-- ==== Sys2Proof/Word.lean ====
section
/-!
DEFINITION. The words of the machine: widths as R4 (00_scope.md) fixes them. No operation of this machine is signed
(R8), so these are plain bit vectors, and an index is a `Fin`.
-/

namespace Sys2Proof

/-- One byte: a general register, a timer, a byte of memory (R4: REG_WIDTH, TIMER_WIDTH, 8 bits). -/
abbrev Byte := BitVec 8

/-- Sixteen bits: an instruction word, I, pc, a return address, the key bitmap (R4, R23, R24, R25, R30). -/
abbrev Word := BitVec 16

/-- A twelve-bit address operand nnn (R91). -/
abbrev Addr := BitVec 12

/-- The number of a general register, 0 to 15 (R20). -/
abbrev Reg := Fin 16

/-- The number of a logical key, 0 to 15 (R4, R30). -/
abbrev Key := Fin 16

/-- One past the last address of the 12-bit address space (R4: MEM_SIZE). -/
abbrev memSize : Nat := 4096

/-- Where a program is loaded and where it starts (R4: PROG_START, R304). -/
abbrev progStart : Nat := 0x200

/-- The longest program that fits (R4: MAX_PROG). -/
abbrev maxProg : Nat := 3584

end Sys2Proof
end

