-- ==== Sys2Proof/Config.lean ====
section
/-!
DEFINITION. The open parameters of R5 (00_scope.md) as data, and the one free value of the spec, the random byte.
The parameters are fixed for a machine, and `State` carries them in a field that no step writes, so that a claim
can be made for every value of them (assumption log 1). Their default values stand in Machine/Defaults.lean.
-/

namespace Sys2Proof

/-- ALU_LAYOUT: which sub-opcodes the family 8 has (R95, R96, D2). -/
inductive AluLayout where
  | doc
  | classic
  deriving DecidableEq, Repr

/-- SHIFT_SOURCE: which register SHR and SHL shift (R167, R169, D3). -/
inductive ShiftSource where
  | y
  | x
  deriving DecidableEq, Repr

/-- TIMING_PROFILE: no time at all, or the 1 ms base clock with its prescalers (R262, D22). -/
inductive TimingProfile where
  | untimed
  | timed
  deriving DecidableEq, Repr

/-- The open parameters of R5 that govern steps. (INITIAL_KEYS and INITIAL_FB are arguments of
`State.launch`, and RNG is `Config.rngByte`.) -/
structure Params where
  /-- ALU_LAYOUT -/
  aluLayout : AluLayout
  /-- SHIFT_SOURCE -/
  shiftSource : ShiftSource
  /-- FONT, the 80 bytes of 0x000..0x04F (R45) -/
  font : Vector Byte 80
  /-- WAIT_FREEZES_TIMERS (R257, D21) -/
  waitFreezesTimers : Bool
  /-- TIMING_PROFILE -/
  timing : TimingProfile
  deriving DecidableEq, Repr

/-- The byte that the n-th read of the RNG port returns (R171, R276): a FREE VALUE. It has no body, so nothing can be
proved of it and a claim holds whatever the source answers (assumption log 13). -/
opaque Config.rngByte : Nat → Byte

end Sys2Proof
end

