-- ==== Sys2Proof/Machine/Defaults.lean ====
section
/-!
DEFINITION. The default values of the open parameters (R5, 00_scope.md): the values the spec gives a machine for which
nothing else is said.
-/

namespace Sys2Proof.Machine

/-- The default FONT: the conventional hexadecimal font, five bytes a glyph, glyphs 0 to F (R45, D14).
The spec takes these bytes from general knowledge (assumption log 5). -/
def defaultFont : Vector Byte 80 :=
  #v[0xF0, 0x90, 0x90, 0x90, 0xF0, 0x20, 0x60, 0x20, 0x20, 0x70, 0xF0, 0x10, 0xF0, 0x80, 0xF0, 0xF0, 0x10, 0xF0,
    0x10, 0xF0, 0x90, 0x90, 0xF0, 0x10, 0x10, 0xF0, 0x80, 0xF0, 0x10, 0xF0, 0xF0, 0x80, 0xF0, 0x90, 0xF0, 0xF0,
    0x10, 0x20, 0x40, 0x40, 0xF0, 0x90, 0xF0, 0x90, 0xF0, 0xF0, 0x90, 0xF0, 0x10, 0xF0, 0xF0, 0x90, 0xF0, 0x90,
    0x90, 0xE0, 0x90, 0xE0, 0x90, 0xE0, 0xF0, 0x80, 0x80, 0x80, 0xF0, 0xE0, 0x90, 0x90, 0x90, 0xE0, 0xF0, 0x80,
    0xF0, 0x80, 0xF0, 0xF0, 0x80, 0xF0, 0x80, 0x80]

/-- The default of every open parameter (R5): DOC, Y, the conventional font, frozen timers during a wait, UNTIMED
(assumption log 5, 6, 7, 8, 9). -/
def defaultParams : Params where
  aluLayout := .doc
  shiftSource := .y
  font := defaultFont
  waitFreezesTimers := true
  timing := .untimed

end Sys2Proof.Machine
end

