-- ==== Sys2Proof/Syntax.lean ====
section
/-!
DEFINITION. The instructions: one constructor for each mnemonic of spec/opcode_table.json. SHR, SUB and SHL have one
rule and two encodings each, one per ALU_LAYOUT (R167, R168, R169), so they are one constructor each and the layout
stands in the decoder and the encoder only. The operands are those of the formats of R93.
-/

namespace Sys2Proof

/-- An instruction with its operands as the fields of its word give them (R91, R92). -/
inductive Instr where
  /-- 00E0 CLS (R130) -/
  | cls
  /-- 00EE RET (R141) -/
  | ret
  /-- 1nnn JP nnn (R142) -/
  | jp (nnn : Addr)
  /-- 2nnn CALL nnn (R143) -/
  | call (nnn : Addr)
  /-- 3xkk SE Vx, kk (R144) -/
  | seVxKk (x : Reg) (kk : Byte)
  /-- 4xkk SNE Vx, kk (R145) -/
  | sneVxKk (x : Reg) (kk : Byte)
  /-- 5xy0 SE Vx, Vy (R146) -/
  | seVxVy (x y : Reg)
  /-- 6xkk LD Vx, kk (R160) -/
  | ldVxKk (x : Reg) (kk : Byte)
  /-- 7xkk ADD Vx, kk (R161) -/
  | addVxKk (x : Reg) (kk : Byte)
  /-- 8xy0 LD Vx, Vy (R162) -/
  | ldVxVy (x y : Reg)
  /-- 8xy1 OR Vx, Vy (R163) -/
  | orVxVy (x y : Reg)
  /-- 8xy2 AND Vx, Vy (R164) -/
  | andVxVy (x y : Reg)
  /-- 8xy3 XOR Vx, Vy (R165) -/
  | xorVxVy (x y : Reg)
  /-- 8xy4 ADD Vx, Vy (R166) -/
  | addVxVy (x y : Reg)
  /-- SHR Vx, Vy: 8xy5 in DOC, 8xy6 in CLASSIC (R167) -/
  | shrVxVy (x y : Reg)
  /-- SUB Vx, Vy: 8xy6 in DOC, 8xy5 in CLASSIC (R168) -/
  | subVxVy (x y : Reg)
  /-- SHL Vx, Vy: 8xy7 in DOC, 8xyE in CLASSIC (R169) -/
  | shlVxVy (x y : Reg)
  /-- SUBN Vx, Vy: 8xy7 in CLASSIC only (R170) -/
  | subnVxVy (x y : Reg)
  /-- 9xy0 SNE Vx, Vy (R147) -/
  | sneVxVy (x y : Reg)
  /-- Annn LD I, nnn (R190) -/
  | ldINnn (nnn : Addr)
  /-- Bnnn JP V0, nnn (R148) -/
  | jpV0Nnn (nnn : Addr)
  /-- Cxkk RND Vx, kk (R171) -/
  | rndVxKk (x : Reg) (kk : Byte)
  /-- Dxyn DRW Vx, Vy, n (R132) -/
  | drwVxVyN (x y : Reg) (n : Fin 16)
  /-- Ex9E SKP Vx (R211) -/
  | skpVx (x : Reg)
  /-- ExA1 SKNP Vx (R212) -/
  | sknpVx (x : Reg)
  /-- Fx07 LD Vx, DT (R213) -/
  | ldVxDt (x : Reg)
  /-- Fx0A LD Vx, K (R214) -/
  | ldVxK (x : Reg)
  /-- Fx15 LD DT, Vx (R215) -/
  | ldDtVx (x : Reg)
  /-- Fx18 LD ST, Vx (R216) -/
  | ldStVx (x : Reg)
  /-- Fx1E ADD I, Vx (R191) -/
  | addIVx (x : Reg)
  /-- Fx29 LD F, Vx (R192) -/
  | ldFVx (x : Reg)
  /-- Fx33 LD B, Vx (R193) -/
  | ldBVx (x : Reg)
  /-- Fx55 LD [I], Vx (R194) -/
  | ldMemVx (x : Reg)
  /-- Fx65 LD Vx, [I] (R195) -/
  | ldVxMem (x : Reg)
  deriving DecidableEq, Repr

end Sys2Proof
end

