-- ==== Sys2Proof/WellFormed.lean ====
section
/-!
DEFINITION. Which instructions an ALU_LAYOUT has. Register numbers, immediates and addresses are in range by their
types, so the one check left is that SUBN exists with ALU_LAYOUT = CLASSIC only (R96, R170).
-/

namespace Sys2Proof

/-- The instruction exists in the layout: SUBN exists only with CLASSIC (R170), every other one in both. -/
def Instr.wellFormed (layout : AluLayout) : Instr → Bool
  | .subnVxVy _ _ => layout == .classic
  | .cls | .ret | .jp _ | .call _ | .seVxKk _ _ | .sneVxKk _ _ | .seVxVy _ _ | .ldVxKk _ _ | .addVxKk _ _
  | .ldVxVy _ _ | .orVxVy _ _ | .andVxVy _ _ | .xorVxVy _ _ | .addVxVy _ _ | .shrVxVy _ _ | .subVxVy _ _
  | .shlVxVy _ _ | .sneVxVy _ _ | .ldINnn _ | .jpV0Nnn _ | .rndVxKk _ _ | .drwVxVyN _ _ _ | .skpVx _ | .sknpVx _
  | .ldVxDt _ | .ldVxK _ | .ldDtVx _ | .ldStVx _ | .addIVx _ | .ldFVx _ | .ldBVx _ | .ldMemVx _ | .ldVxMem _ => true

end Sys2Proof
end

