-- ==== Sys2Proof/Decode.lean ====
section
/-!
DEFINITION. Decoding and encoding (30_encoding.md): the fields of a word (R91), the total decoder (R94 to R98), the
decoder on bytes, high byte first (R62), the encoder, and the opcode map of R95 and R96 as rows of match and mask.
-/

namespace Sys2Proof

/-! ### The fields of a word (R91) -/

/-- F, word[15:12]: the opcode family. -/
def category (w : Word) : Nat := (w.extractLsb' 12 4).toNat

/-- nnn, word[11:0]. -/
def address12 (w : Word) : Addr := w.extractLsb' 0 12

/-- x, word[11:8]. -/
def regX (w : Word) : Reg := (w.extractLsb' 8 4).toFin

/-- y, word[7:4]. -/
def regY (w : Word) : Reg := (w.extractLsb' 4 4).toFin

/-- kk, word[7:0]. -/
def immediate8 (w : Word) : Byte := w.extractLsb' 0 8

/-- n, word[3:0]: the sub-opcode of families 5, 8 and 9, and the height of Dxyn (C9). -/
def subop4 (w : Word) : Fin 16 := (w.extractLsb' 0 4).toFin

/-! ### The decoder -/

/-- Why bytes are no instruction. -/
inductive DecodeError where
  /-- The word is not in the opcode map (R98); its two raw bytes, as R117 records them. -/
  | invalidOpcode (hi lo : Byte)
  /-- Fewer than two bytes: an instruction is one 16-bit word (R90). -/
  | truncated
  deriving DecidableEq, Repr

/-- `Invalid` for a word, with the two raw bytes word[15:8] and word[7:0] (R117). -/
def invalidWord (w : Word) : Except DecodeError Instr :=
  .error (.invalidOpcode (w.extractLsb' 8 8) (w.extractLsb' 0 8))

/-- Family 8 by its sub-opcode, in each layout (R95, R96). -/
def decodeAlu (layout : AluLayout) (w : Word) : Except DecodeError Instr :=
  match layout, (subop4 w).val with
  | _, 0x0 => .ok (.ldVxVy (regX w) (regY w))
  | _, 0x1 => .ok (.orVxVy (regX w) (regY w))
  | _, 0x2 => .ok (.andVxVy (regX w) (regY w))
  | _, 0x3 => .ok (.xorVxVy (regX w) (regY w))
  | _, 0x4 => .ok (.addVxVy (regX w) (regY w))
  | .doc, 0x5 => .ok (.shrVxVy (regX w) (regY w))
  | .doc, 0x6 => .ok (.subVxVy (regX w) (regY w))
  | .doc, 0x7 => .ok (.shlVxVy (regX w) (regY w))
  | .classic, 0x5 => .ok (.subVxVy (regX w) (regY w))
  | .classic, 0x6 => .ok (.shrVxVy (regX w) (regY w))
  | .classic, 0x7 => .ok (.subnVxVy (regX w) (regY w))
  | .classic, 0xE => .ok (.shlVxVy (regX w) (regY w))
  | _, _ => invalidWord w

/-- Family F by its low byte (R95). -/
def decodeMisc (w : Word) : Except DecodeError Instr :=
  match (immediate8 w).toNat with
  | 0x07 => .ok (.ldVxDt (regX w))
  | 0x0A => .ok (.ldVxK (regX w))
  | 0x15 => .ok (.ldDtVx (regX w))
  | 0x18 => .ok (.ldStVx (regX w))
  | 0x1E => .ok (.addIVx (regX w))
  | 0x29 => .ok (.ldFVx (regX w))
  | 0x33 => .ok (.ldBVx (regX w))
  | 0x55 => .ok (.ldMemVx (regX w))
  | 0x65 => .ok (.ldVxMem (regX w))
  | _ => invalidWord w

/-- `Decode(word)` of R94: exactly one instruction of R95 (or R96), or `Invalid`. Every fixed digit of a pattern is
compared (R97). -/
def decode (layout : AluLayout) (w : Word) : Except DecodeError Instr :=
  match category w with
  | 0x0 =>
    if address12 w = 0x0E0 then .ok .cls
    else if address12 w = 0x0EE then .ok .ret
    else invalidWord w
  | 0x1 => .ok (.jp (address12 w))
  | 0x2 => .ok (.call (address12 w))
  | 0x3 => .ok (.seVxKk (regX w) (immediate8 w))
  | 0x4 => .ok (.sneVxKk (regX w) (immediate8 w))
  | 0x5 => if subop4 w = 0 then .ok (.seVxVy (regX w) (regY w)) else invalidWord w
  | 0x6 => .ok (.ldVxKk (regX w) (immediate8 w))
  | 0x7 => .ok (.addVxKk (regX w) (immediate8 w))
  | 0x8 => decodeAlu layout w
  | 0x9 => if subop4 w = 0 then .ok (.sneVxVy (regX w) (regY w)) else invalidWord w
  | 0xA => .ok (.ldINnn (address12 w))
  | 0xB => .ok (.jpV0Nnn (address12 w))
  | 0xC => .ok (.rndVxKk (regX w) (immediate8 w))
  | 0xD => .ok (.drwVxVyN (regX w) (regY w) (subop4 w))
  | 0xE =>
    if immediate8 w = 0x9E then .ok (.skpVx (regX w))
    else if immediate8 w = 0xA1 then .ok (.sknpVx (regX w))
    else invalidWord w
  | 0xF => decodeMisc w
  | _ => invalidWord w

/-- The word of two bytes, the one at the lower address first: big-endian (R62). -/
def wordOfBytes (hi lo : Byte) : Word := hi ++ lo

/-- The byte of a word at the lower address, word[15:8] (R62). -/
def hiByte (w : Word) : Byte := w.extractLsb' 8 8

/-- The byte of a word at the higher address, word[7:0] (R62). -/
def loByte (w : Word) : Byte := w.extractLsb' 0 8

/-- The decoder on bytes: the instruction and the bytes after it. Total: it answers an error, by name, on anything
that is no instruction. -/
def decodeBytes (layout : AluLayout) : List Byte → Except DecodeError (Instr × List Byte)
  | hi :: lo :: rest => (decode layout (wordOfBytes hi lo)).map fun i => (i, rest)
  | _ => .error .truncated

/-- What the decoder reads from a word numbered as spec/opcode_table.json numbers it (bit 0 the least significant bit
of the one word an instruction has), the bits from `nbits` up being zero. The layout is the default one, which the
machine has after reset (assumption log 6). -/
def decodeTableWord (nbits w : Nat) : Option Instr :=
  let word : Word := BitVec.ofNat 16 (w % 2 ^ nbits)
  match decodeBytes Machine.defaultParams.aluLayout [hiByte word, loByte word] with
  | .ok (i, _) => some i
  | .error _ => none

/-! ### The encoder -/

/-- A word of format A: F and nnn (R93). -/
def encodeA (f : Nat) (nnn : Addr) : Word := BitVec.ofNat 16 (f * 4096 + nnn.toNat)

/-- A word of format XK: F, x and kk (R93). -/
def encodeXK (f : Nat) (x : Reg) (kk : Byte) : Word := BitVec.ofNat 16 (f * 4096 + x.val * 256 + kk.toNat)

/-- A word of format XYN, and of format XY with its fixed n: F, x, y and n (R93). -/
def encodeXYN (f : Nat) (x y n : Fin 16) : Word :=
  BitVec.ofNat 16 (f * 4096 + x.val * 256 + y.val * 16 + n.val)

/-- The word of an instruction, from the encodings that the instructions' rules give (R130 to R216). For an
instruction that the layout does not have (SUBN in DOC) it gives the word that CLASSIC has for it. -/
def encode (layout : AluLayout) : Instr → Word
  | .cls => 0x00E0
  | .ret => 0x00EE
  | .jp nnn => encodeA 0x1 nnn
  | .call nnn => encodeA 0x2 nnn
  | .seVxKk x kk => encodeXK 0x3 x kk
  | .sneVxKk x kk => encodeXK 0x4 x kk
  | .seVxVy x y => encodeXYN 0x5 x y 0
  | .ldVxKk x kk => encodeXK 0x6 x kk
  | .addVxKk x kk => encodeXK 0x7 x kk
  | .ldVxVy x y => encodeXYN 0x8 x y 0x0
  | .orVxVy x y => encodeXYN 0x8 x y 0x1
  | .andVxVy x y => encodeXYN 0x8 x y 0x2
  | .xorVxVy x y => encodeXYN 0x8 x y 0x3
  | .addVxVy x y => encodeXYN 0x8 x y 0x4
  | .shrVxVy x y => encodeXYN 0x8 x y (match layout with | .doc => 0x5 | .classic => 0x6)
  | .subVxVy x y => encodeXYN 0x8 x y (match layout with | .doc => 0x6 | .classic => 0x5)
  | .shlVxVy x y => encodeXYN 0x8 x y (match layout with | .doc => 0x7 | .classic => 0xE)
  | .subnVxVy x y => encodeXYN 0x8 x y 0x7
  | .sneVxVy x y => encodeXYN 0x9 x y 0
  | .ldINnn nnn => encodeA 0xA nnn
  | .jpV0Nnn nnn => encodeA 0xB nnn
  | .rndVxKk x kk => encodeXK 0xC x kk
  | .drwVxVyN x y n => encodeXYN 0xD x y n
  | .skpVx x => encodeXK 0xE x 0x9E
  | .sknpVx x => encodeXK 0xE x 0xA1
  | .ldVxDt x => encodeXK 0xF x 0x07
  | .ldVxK x => encodeXK 0xF x 0x0A
  | .ldDtVx x => encodeXK 0xF x 0x15
  | .ldStVx x => encodeXK 0xF x 0x18
  | .addIVx x => encodeXK 0xF x 0x1E
  | .ldFVx x => encodeXK 0xF x 0x29
  | .ldBVx x => encodeXK 0xF x 0x33
  | .ldMemVx x => encodeXK 0xF x 0x55
  | .ldVxMem x => encodeXK 0xF x 0x65

/-! ### The opcode map as rows of match and mask (R95, R96) -/

/-- One row of the opcode map: a word selects it when `word &&& mask = match` (R94). -/
structure OpcodeRow where
  pattern : String
  matchBits : Word
  mask : Word
  deriving DecidableEq, Repr

/-- A word selects a row (R94). -/
def selects (w : Word) (r : OpcodeRow) : Bool := w &&& r.mask == r.matchBits

/-- The rows that both layouts have (R95). -/
def opcodeRowsBoth : List OpcodeRow :=
  [⟨"00E0", 0x00E0, 0xFFFF⟩, ⟨"00EE", 0x00EE, 0xFFFF⟩, ⟨"1nnn", 0x1000, 0xF000⟩, ⟨"2nnn", 0x2000, 0xF000⟩,
    ⟨"3xkk", 0x3000, 0xF000⟩, ⟨"4xkk", 0x4000, 0xF000⟩, ⟨"5xy0", 0x5000, 0xF00F⟩, ⟨"6xkk", 0x6000, 0xF000⟩,
    ⟨"7xkk", 0x7000, 0xF000⟩, ⟨"8xy0", 0x8000, 0xF00F⟩, ⟨"8xy1", 0x8001, 0xF00F⟩, ⟨"8xy2", 0x8002, 0xF00F⟩,
    ⟨"8xy3", 0x8003, 0xF00F⟩, ⟨"8xy4", 0x8004, 0xF00F⟩, ⟨"9xy0", 0x9000, 0xF00F⟩, ⟨"Annn", 0xA000, 0xF000⟩] ++
  [⟨"Bnnn", 0xB000, 0xF000⟩, ⟨"Cxkk", 0xC000, 0xF000⟩, ⟨"Dxyn", 0xD000, 0xF000⟩, ⟨"Ex9E", 0xE09E, 0xF0FF⟩,
    ⟨"ExA1", 0xE0A1, 0xF0FF⟩, ⟨"Fx07", 0xF007, 0xF0FF⟩, ⟨"Fx0A", 0xF00A, 0xF0FF⟩, ⟨"Fx15", 0xF015, 0xF0FF⟩,
    ⟨"Fx18", 0xF018, 0xF0FF⟩, ⟨"Fx1E", 0xF01E, 0xF0FF⟩, ⟨"Fx29", 0xF029, 0xF0FF⟩, ⟨"Fx33", 0xF033, 0xF0FF⟩,
    ⟨"Fx55", 0xF055, 0xF0FF⟩, ⟨"Fx65", 0xF065, 0xF0FF⟩]

/-- The opcode map of a layout: 33 rows in DOC (R95), 34 in CLASSIC (R96). -/
def opcodeRows : AluLayout → List OpcodeRow
  | .doc => opcodeRowsBoth ++ [⟨"8xy5", 0x8005, 0xF00F⟩, ⟨"8xy6", 0x8006, 0xF00F⟩, ⟨"8xy7", 0x8007, 0xF00F⟩]
  | .classic =>
    opcodeRowsBoth ++
      [⟨"8xy5", 0x8005, 0xF00F⟩, ⟨"8xy6", 0x8006, 0xF00F⟩, ⟨"8xy7", 0x8007, 0xF00F⟩, ⟨"8xyE", 0x800E, 0xF00F⟩]

/-- The pattern of the instruction's row in the opcode map of a layout (R95, R96). -/
def patternOf (layout : AluLayout) : Instr → String
  | .cls => "00E0"
  | .ret => "00EE"
  | .jp _ => "1nnn"
  | .call _ => "2nnn"
  | .seVxKk _ _ => "3xkk"
  | .sneVxKk _ _ => "4xkk"
  | .seVxVy _ _ => "5xy0"
  | .ldVxKk _ _ => "6xkk"
  | .addVxKk _ _ => "7xkk"
  | .ldVxVy _ _ => "8xy0"
  | .orVxVy _ _ => "8xy1"
  | .andVxVy _ _ => "8xy2"
  | .xorVxVy _ _ => "8xy3"
  | .addVxVy _ _ => "8xy4"
  | .shrVxVy _ _ => match layout with | .doc => "8xy5" | .classic => "8xy6"
  | .subVxVy _ _ => match layout with | .doc => "8xy6" | .classic => "8xy5"
  | .shlVxVy _ _ => match layout with | .doc => "8xy7" | .classic => "8xyE"
  | .subnVxVy _ _ => "8xy7"
  | .sneVxVy _ _ => "9xy0"
  | .ldINnn _ => "Annn"
  | .jpV0Nnn _ => "Bnnn"
  | .rndVxKk _ _ => "Cxkk"
  | .drwVxVyN _ _ _ => "Dxyn"
  | .skpVx _ => "Ex9E"
  | .sknpVx _ => "ExA1"
  | .ldVxDt _ => "Fx07"
  | .ldVxK _ => "Fx0A"
  | .ldDtVx _ => "Fx15"
  | .ldStVx _ => "Fx18"
  | .addIVx _ => "Fx1E"
  | .ldFVx _ => "Fx29"
  | .ldBVx _ => "Fx33"
  | .ldMemVx _ => "Fx55"
  | .ldVxMem _ => "Fx65"

end Sys2Proof
end

