-- ==== Sys2Proof/Machine/State.lean ====
section
/-!
DEFINITION. The state of the machine as plain data (10_state.md), the ways a step can stop, and the state after reset.
-/

namespace Sys2Proof.Machine

/-- The run state (R32). WaitingForKey is no value of its own: it is `running` with a pending key register. -/
inductive Status where
  | stopped
  | running
  | paused
  | finished
  | faulted
  deriving DecidableEq, Repr

/-- The seven faults of the spec with the information each records (R230). -/
inductive FaultCause where
  /-- A word outside the opcode map: its two raw bytes (R117). -/
  | invalidOpcode (hi lo : Byte)
  /-- 00EE with an empty stack: the word (R141). -/
  | stackUnderflow (word : Word)
  /-- 2nnn with a full stack: the pc of the CALL (R143). -/
  | stackOverflow (callPc : Word)
  /-- A register that must hold 0 to 15 and does not: its number and its value (R192, R210). -/
  | invalidRegisterValue (x : Reg) (value : Byte)
  /-- A jump to an odd address: the target (R140). -/
  | pcMisaligned (target : Nat)
  /-- A jump past 0xFFF: the target (R140). -/
  | pcOutOfRange (target : Nat)
  /-- An access through I past 0xFFF: the first offending address (R64). -/
  | addressOutOfRange (address : Nat)
  deriving DecidableEq, Repr

/-- The cause code of a fault (R230, D13). -/
def FaultCause.code : FaultCause → Nat
  | .invalidOpcode _ _ => 1
  | .stackUnderflow _ => 2
  | .stackOverflow _ => 3
  | .invalidRegisterValue _ _ => 4
  | .pcMisaligned _ => 5
  | .pcOutOfRange _ => 6
  | .addressOutOfRange _ => 7

/-- The fault record (R32, R230): the cause with its information, and the pc of the instruction that raised it. -/
structure FaultRecord where
  cause : FaultCause
  pc : Word
  deriving DecidableEq, Repr

/-- A device event of the output trace (R37). -/
inductive DeviceEvent where
  | clear
  | startDrawBatch
  | lightPixel (x : Fin 64) (y : Fin 32) (collided : Bool)
  | finishDrawBatch
  | beep
  deriving DecidableEq, Repr

/-- A command of the host (R280 to R283, R302). -/
inductive HostCommand where
  /-- load(P): the bytes of the program (R280). -/
  | load (program : List Byte)
  /-- A load whose input is no byte sequence: a ContractViolation (R302). -/
  | loadMalformed
  | pause
  | resume
  | stop
  deriving DecidableEq, Repr

/-- A command by its name, as IllegalTransition names it (R284). -/
inductive CommandName where
  | load
  | pause
  | resume
  deriving DecidableEq, Repr

/-- What the host is told of a command or key event that is rejected (R275, R280, R284, R302). -/
inductive Rejection where
  /-- IllegalTransition(command, status) (R284). -/
  | illegalTransition (command : CommandName) (status : Status)
  /-- ContractViolation: a program of more than 3584 bytes (R280, D27). -/
  | programTooLong (length : Nat)
  /-- ContractViolation: a program input that is no byte sequence (R302). -/
  | malformedProgram
  /-- ContractViolation: a key number above 15 (R275, D41). -/
  | malformedKey (k : Nat)
  /-- ContractViolation: a key number that is negative or no integer (R275, D41). -/
  | malformedKeyInput
  deriving DecidableEq, Repr

/-- One step of one agent (R9), as the environment chooses it. -/
inductive Event where
  /-- The CPU's cycle (R110). -/
  | cpu
  /-- The delay cycle's tick (R255). -/
  | delayTick
  /-- The sound cycle's tick (R256). -/
  | soundTick
  /-- One millisecond of the base clock, TIMED only (R264). -/
  | clock
  /-- Key down (R277); a number that is no key is a ContractViolation (R275). -/
  | keyDown (k : Nat)
  /-- Key up (R277); a number that is no key is a ContractViolation (R275). -/
  | keyUp (k : Nat)
  /-- Key down with a negative number, or with one that is no integer: a ContractViolation (R275). -/
  | keyDownMalformed
  /-- Key up with a negative number, or with one that is no integer: a ContractViolation (R275). -/
  | keyUpMalformed
  /-- A command of the host (R280 to R283). -/
  | host (command : HostCommand)
  deriving DecidableEq, Repr

/-- The agents that R268 grants a step when they keep one: the CPU and the two timer cycles. -/
inductive Agent where
  /-- The CPU. -/
  | cpu
  /-- The delay cycle. -/
  | delay
  /-- The sound cycle. -/
  | sound
  deriving DecidableEq, Repr

/-- Why the machine has no further step. The faults of the spec are not among these: the machine TAKES them, in a next
state whose status is `faulted` (R231). -/
inductive Fault where
  /-- Raised by a step with an empty schedule when the status is Stopped: no agent but the host has a step (R300).
  Safe: the model stops and the hardware waits for a load. -/
  | stopped
  /-- Raised by a step with an empty schedule when the status is Paused: no agent but the host and the keyboard has a
  step (R257, R281). Safe: the model stops and the hardware waits for a resume. -/
  | paused
  /-- Raised by a step with an empty schedule when the status is Finished: the good end of a run (R330).
  Safe: nothing but the host can move the hardware. -/
  | finished
  /-- Raised by a step with an empty schedule when the status is Faulted: the bad end of a run (R232, R330).
  Safe: nothing but the host can move the hardware. -/
  | faulted
  /-- Raised by a step with an empty schedule when the machine waits for a key and no timer counts: a hang until a
  key-down (R214, 93_implementation_defined.md row 21). Safe: the model stops and the hardware waits. -/
  | waitingForKey
  /-- Raised by the fetch when pc is odd or above 0xFFE. No run reaches such a state (R38, R75).
  Safe: the model stops where the spec gives no fetch. -/
  | fetchOutsideMemory (pc : Word)
  deriving DecidableEq, Repr

/-- Why an instruction has no meaning in the model. -/
inductive Refusal where
  /-- Raised by `exec` for an instruction that is not modelled, by its mnemonic. Safe: the model stops.
  No instruction of this model raises it. -/
  | notModelled (mnemonic : String)
  deriving DecidableEq, Repr

/-- The frame buffer: 32 rows of 64 pixels, `true` is lit (R36). -/
abbrev FrameBuffer := Vector (Vector Bool 64) 32

/-- Everything the spec gives the machine (R39), the parameters it runs under, and the model's own three fields. -/
structure State where
  /-- The open parameters (R5). No step writes them. -/
  params : Params
  /-- V0..VF (R20); VF is the flag (R21, R22). -/
  v : Vector Byte 16
  /-- The address register I (R23). -/
  i : Word
  /-- The program counter (R24). -/
  pc : Word
  /-- The call stack, its top first (R25). -/
  stack : List Word
  /-- The delay timer DT (R26). -/
  dt : Byte
  /-- The sound timer ST (R27). -/
  st : Byte
  /-- The delay cycle is running (R28). -/
  dtRun : Bool
  /-- The sound cycle is running (R28). -/
  stRun : Bool
  /-- TIMED: milliseconds until the CPU may issue (R29). -/
  cpuWait : Nat
  /-- TIMED: milliseconds until the next delay tick (R29). -/
  dtPhase : Nat
  /-- TIMED: milliseconds until the next sound tick (R29). -/
  stPhase : Nat
  /-- The key-state bitmap (R30). -/
  keys : Word
  /-- The pending-key register (R31). -/
  pending : Option Reg
  /-- The run state (R32). -/
  status : Status
  /-- The fault record (R32, R33). -/
  fault : Option FaultRecord
  /-- Every fault of the run, oldest first (R33, R232). -/
  faultLog : List FaultRecord
  /-- Memory: the cells that differ from the reset image, addresses strictly rising (R34, R35). -/
  mem : List Host.Cell
  /-- The display's frame buffer (R36). -/
  fb : FrameBuffer
  /-- The output trace, oldest first (R37). -/
  trace : List DeviceEvent
  /-- What the host was told of rejected commands, oldest first (R284). -/
  hostReplies : List Rejection
  /-- The model's own: how many bytes were drawn from RNG (assumption log 13). -/
  rngDraws : Nat
  /-- The model's own: the agents' coming steps (assumption log 10). -/
  schedule : List Event
  /-- The model's own: which agent is asked first when the schedule is empty (assumption log 23). -/
  turn : Agent
  deriving DecidableEq, Repr

/-- The machine right after reset (R301, R303, R39): Launch of the empty program with the default parameters, no key
held and every pixel unlit. Memory lists nothing, so it reads as the reset image of R35 (assumption log 2, 3, 4). -/
def State.reset : State where
  params := defaultParams
  v := Vector.replicate 16 0
  i := 0
  pc := BitVec.ofNat 16 progStart
  stack := []
  dt := 0
  st := 0
  dtRun := false
  stRun := false
  cpuWait := 0
  dtPhase := 0
  stPhase := 0
  keys := 0
  pending := none
  status := .running
  fault := none
  faultLog := []
  mem := []
  fb := Vector.replicate 32 (Vector.replicate 64 false)
  trace := []
  hostReplies := []
  rngDraws := 0
  schedule := []
  turn := .cpu

end Sys2Proof.Machine
end

