-- ==== Sys2Proof/Machine/Ops.lean ====
section
/-!
DEFINITION. The named operations over the state: registers, memory, fetch, the display port, the output trace, the
advance of the program counter with its overflow policy, and TAKING A FAULT, the machine's one kind of exception.
There is no return from one (R234).
-/

namespace Sys2Proof.Machine

/-! ### General registers (R20) -/

/-- `V[r]` (R7, R20). No register is hardwired. -/
def State.reg (s : State) (r : Reg) : Byte := s.v.get r

/-- `V[r] <- b` (R7, R20). -/
def State.setReg (s : State) (r : Reg) (b : Byte) : State := { s with v := s.v.set r.val b r.isLt }

/-- `V[15] <- flag`, the one flag of the machine (R21, R22). -/
def State.setFlag (s : State) (flag : Byte) : State := s.setReg 15 flag

/-! ### Memory (20_memory.md)

A memory is a list of cells over the reset image. -/

/-- What an address that no cell lists reads as: the image that a load of the empty program leaves, FONT at
0x000..0x04F and zero elsewhere (R35, R61; assumption log 14). -/
def background (font : Vector Byte 80) (a : Nat) : Byte := if h : a < 80 then font[a] else 0

/-- The byte that the list holds for an address, if it lists it. -/
def lookupCell : List Host.Cell → Nat → Option Byte
  | [], _ => none
  | (b, x) :: rest, a => if a = b then some x else lookupCell rest a

/-- The list with a cell for the address, which replaces one that stands there; addresses stay rising. -/
def insertCell : List Host.Cell → Nat → Byte → List Host.Cell
  | [], a, x => [(a, x)]
  | (b, y) :: rest, a, x =>
    if a < b then (a, x) :: (b, y) :: rest
    else if a = b then (a, x) :: rest
    else (b, y) :: insertCell rest a x

/-- The list without a cell for the address. -/
def eraseCell (m : List Host.Cell) (a : Nat) : List Host.Cell := m.filter fun c => c.1 != a

/-- A byte of a memory (R67). -/
def Memory.read (font : Vector Byte 80) (m : List Host.Cell) (a : Nat) : Byte := (lookupCell m a).getD (background font a)

/-- A memory after a byte is written. Writing the byte that an unlisted address reads as removes the cell, so that
equal memories are equal lists. -/
def Memory.write (font : Vector Byte 80) (m : List Host.Cell) (a : Nat) (x : Byte) : List Host.Cell :=
  if x = background font a then eraseCell m a else insertCell m a x

/-- The canonical form of a memory: addresses strictly rising, each inside the space of 4096 bytes (R60), and no cell
equal to what its address reads as unlisted. -/
abbrev Memory.wf (font : Vector Byte 80) (m : List Host.Cell) : Prop :=
  m.Pairwise (fun c d => c.1 < d.1) ∧ ∀ c ∈ m, c.1 < memSize ∧ c.2 ≠ background font c.1

/-- `MemRead(a, 1)` (R7). -/
def State.readByte (s : State) (a : Nat) : Byte := Memory.read s.params.font s.mem a

/-- `MemWrite(a, 1, x)` (R7). -/
def State.writeByte (s : State) (a : Nat) (x : Byte) : State := { s with mem := Memory.write s.params.font s.mem a x }

/-- Bytes written one after the other from an address on (R35, R63, R194). -/
def State.writeBytes (s : State) (a : Nat) : List Byte → State
  | [] => s
  | x :: xs => (s.writeByte a x).writeBytes (a + 1) xs

/-- n bytes read one after the other from an address on (R63, R132). -/
def State.readBytes (s : State) (a : Nat) : Nat → List Byte
  | 0 => []
  | n + 1 => s.readByte a :: s.readBytes (a + 1) n

/-- The state's memory has its canonical form. -/
abbrev State.memWf (s : State) : Prop := Memory.wf s.params.font s.mem

/-! ### Fetch (R62, R75) -/

/-- pc is a place an instruction can be fetched from: even, with both bytes in memory (R38, R65, R75). -/
def State.fetchable (s : State) : Bool := s.pc.toNat % 2 == 0 && decide (s.pc.toNat + 1 < memSize)

/-- `Fetch(pc)`: the word of the bytes at pc and pc + 1, the first one high (R62, R75). -/
def State.fetchWord (s : State) : Word := wordOfBytes (s.readByte s.pc.toNat) (s.readByte (s.pc.toNat + 1))

/-- A word placed where the next fetch reads it, high byte first (R62). -/
def State.placeWord (s : State) (w : Word) : State :=
  (s.writeByte s.pc.toNat (hiByte w)).writeByte (s.pc.toNat + 1) (loByte w)

/-! ### The display port and the output trace (R36, R37, R270 to R274) -/

/-- `emit e` (R7, R37). -/
def State.emit (s : State) (e : DeviceEvent) : State := { s with trace := s.trace ++ [e] }

/-- A pixel of the frame buffer: lit or not (R36). -/
def State.pixel (s : State) (x : Fin 64) (y : Fin 32) : Bool := (s.fb.get y).get x

/-- `clear()`: every pixel unlit, one Clear event (R130, R271). -/
def State.clearDisplay (s : State) : State :=
  { s with fb := Vector.replicate 32 (Vector.replicate 64 false) }.emit .clear

/-- A pixel toggled (R273). -/
def State.togglePixel (s : State) (x : Fin 64) (y : Fin 32) : State :=
  { s with fb := s.fb.set y.val ((s.fb.get y).set x.val (!(s.fb.get y).get x) x.isLt) y.isLt }

/-- `lightPixel(x, y)`: toggles the pixel and emits the event, which says whether a lit pixel went off (R132, R273).
The coordinates are in range by their types, so the range error cannot occur. -/
def State.lightPixel (s : State) (x : Fin 64) (y : Fin 32) : State :=
  (s.togglePixel x y).emit (.lightPixel x y (s.pixel x y))

/-- `lightPixel` on one pixel after the other, and whether any call turned a lit pixel off (R132). -/
def State.lightPixels (s : State) : List (Fin 64 × Fin 32) → State × Bool
  | [] => (s, false)
  | (x, y) :: rest =>
    let (t, coll) := (s.lightPixel x y).lightPixels rest
    (t, s.pixel x y || coll)

/-! ### The advance of the program counter (R111 to R114) -/

/-- A sequential advance to p, with the program-counter-overflow policy: past 0xFFF the machine is Finished and both
timer cycles are cancelled, and what the instruction did is kept (R114). -/
def State.advanceTo (s : State) (p : Nat) : State :=
  if p ≤ 0xFFF then { s with pc := BitVec.ofNat 16 p }
  else { s with pc := BitVec.ofNat 16 p, status := .finished, dtRun := false, stRun := false }

/-- Outcome Next: sequential advance by 2 from pc (R111, R112). -/
def State.next (s : State) : State := s.advanceTo (s.pc.toNat + 2)

/-- Outcome Skip: sequential advance by 4 from pc; the word skipped is not looked at (R112, R113). -/
def State.skip (s : State) : State := s.advanceTo (s.pc.toNat + 4)

/-- Outcome Skip when the condition holds, outcome Next otherwise (R111). -/
def State.skipIf (s : State) (cond : Bool) : State := if cond then s.skip else s.next

/-- Outcome Return(r): sequential advance by 2 from r (R111, R112). -/
def State.returnTo (s : State) (r : Word) : State := s.advanceTo (r.toNat + 2)

/-- Outcome Jump(t): pc is t and nothing else (R111, R112). -/
def State.jump (s : State) (t : Nat) : State := { s with pc := BitVec.ofNat 16 t }

/-! ### Taking a fault (R230, R231) -/

/-- `raise`: the fault record and its copy in the fault log, status Faulted, both timer cycles cancelled; pc stays at
the faulting instruction, and nothing that the instruction would write is written (R231, R232). It is given the state
BEFORE the instruction. -/
def State.raise (s : State) (cause : FaultCause) : State :=
  { s with
    fault := some ⟨cause, s.pc⟩
    faultLog := s.faultLog ++ [⟨cause, s.pc⟩]
    status := .faulted
    dtRun := false
    stRun := false }

/-- The end of an instruction that a check may forbid: the fault where the check names one, else its effect. -/
def State.unlessFault (s : State) (check : Option FaultCause) (effect : State) : State :=
  match check with
  | some cause => s.raise cause
  | none => effect

end Sys2Proof.Machine
end

