-- ==== Sys2Proof/Machine/Operands.lean ====
section
/-!
DEFINITION. The operand forms: the address of a byte through I with its range check (R64), the target of a jump with
its checks (R140), the register that must hold 0 to 15 (R192, R210), the source of a shift (R167, R169), and the
pixels a sprite covers (R131).
-/

namespace Sys2Proof.Machine

/-- I[11:0], the base of every access through I (R23, R64). -/
def State.base (s : State) : Nat := (s.i.extractLsb' 0 12).toNat

/-- The smallest of the n addresses base, base + 1, ... that exceeds 0xFFF, if one does (R64). -/
def firstOutside (base n : Nat) : Option Nat := ((List.range n).map (base + ·)).find? fun a => decide (0xFFF < a)

/-- The check of an instruction that accesses n bytes through I: AddressOutOfRange of the smallest offending address,
before anything is read or written (R64). -/
def State.checkAddresses (s : State) (n : Nat) : Option FaultCause :=
  (firstOutside s.base n).map .addressOutOfRange

/-- `CheckTarget(t)`: range first, then parity (R140, R233). -/
def checkTarget (t : Nat) : Option FaultCause :=
  if 0xFFF < t then some (.pcOutOfRange t)
  else if t % 2 = 1 then some (.pcMisaligned t)
  else none

/-- The check that Vx holds 0 to 15 (R192, R210). -/
def State.checkDigit (s : State) (x : Reg) : Option FaultCause :=
  if 15 < (s.reg x).toNat then some (.invalidRegisterValue x (s.reg x)) else none

/-- `keys[v] = 1`: the key is down (R30, R211). -/
def State.keyHeld (s : State) (v : Byte) : Bool := s.keys.getLsbD v.toNat

/-- The source of SHR and SHL, by SHIFT_SOURCE (R167, R169, D3). -/
def State.shiftSource (s : State) (x y : Reg) : Byte :=
  match s.params.shiftSource with
  | .y => s.reg y
  | .x => s.reg x

/-- The pixel at column c of row r of a sprite drawn at (X, Y): both coordinates wrap (R131). -/
def spritePixel (X Y r c : Nat) : Fin 64 × Fin 32 := (Fin.ofNat 64 (X + c), Fin.ofNat 32 (Y + r))

/-- The pixels of one sprite row, left to right: column c is set when bit 7 - c is 1 (R131). -/
def rowPixels (X Y r : Nat) (b : Byte) : List (Fin 64 × Fin 32) :=
  ((List.range 8).filter fun c => b.getLsbD (7 - c)).map (spritePixel X Y r)

/-- The pixels of a sprite from row r on, in the order they are visited: row by row, each left to right (R131). -/
def spritePixels (X Y : Nat) : Nat → List Byte → List (Fin 64 × Fin 32)
  | _, [] => []
  | r, b :: rest => rowPixels X Y r b ++ spritePixels X Y (r + 1) rest

/-- A byte's hundreds (R193). -/
def hundreds (v : Byte) : Byte := BitVec.ofNat 8 (v.toNat / 100)

/-- A byte's tens (R193). -/
def tens (v : Byte) : Byte := BitVec.ofNat 8 (v.toNat / 10 % 10)

/-- A byte's ones (R193). -/
def ones (v : Byte) : Byte := BitVec.ofNat 8 (v.toNat % 10)

end Sys2Proof.Machine
end

