-- ==== Sys2Proof/Machine/AddressMemory.lean ====
section
/-!
DEFINITION. The address-register and memory instructions (43_address_memory.md).
-/

namespace Sys2Proof.Machine

/-- `I <- value`, modulo 2^16 (R23). -/
def State.setI (s : State) (value : Nat) : State := { s with i := BitVec.ofNat 16 value }

/-- V0..Vx loaded from the bytes at the base (R195). -/
def State.loadRegs (s : State) (x : Reg) : State :=
  { s with v := Vector.ofFn fun k : Fin 16 => if k ≤ x then s.readByte (s.base + k.val) else s.v.get k }

/-- Annn LD I, nnn (R190). -/
def execLdINnn (nnn : Addr) (s : State) : Host.Outcome State Fault Refusal := .next (s.setI nnn.toNat).next

/-- Fx1E ADD I, Vx: no flag (R191). -/
def execAddIVx (x : Reg) (s : State) : Host.Outcome State Fault Refusal :=
  .next (s.setI (s.i.toNat + (s.reg x).toNat)).next

/-- Fx29 LD F, Vx: the address of the digit's glyph (R192). -/
def execLdFVx (x : Reg) (s : State) : Host.Outcome State Fault Refusal :=
  .next (s.unlessFault (s.checkDigit x) (s.setI ((s.reg x).toNat * 5)).next)

/-- Fx33 LD B, Vx: hundreds, tens and ones from the base on; I is kept (R193). -/
def execLdBVx (x : Reg) (s : State) : Host.Outcome State Fault Refusal :=
  .next (s.unlessFault (s.checkAddresses 3)
    (s.writeBytes s.base [hundreds (s.reg x), tens (s.reg x), ones (s.reg x)]).next)

/-- Fx55 LD [I], Vx: V0..Vx from the base on, and I past the bytes written (R194). -/
def execLdMemVx (x : Reg) (s : State) : Host.Outcome State Fault Refusal :=
  .next (s.unlessFault (s.checkAddresses (x.val + 1))
    ((s.writeBytes s.base (s.v.toList.take (x.val + 1))).setI (s.i.toNat + x.val + 1)).next)

/-- Fx65 LD Vx, [I]: the bytes from the base on to V0..Vx, and I past the bytes read (R195). -/
def execLdVxMem (x : Reg) (s : State) : Host.Outcome State Fault Refusal :=
  .next (s.unlessFault (s.checkAddresses (x.val + 1)) ((s.loadRegs x).setI (s.i.toNat + x.val + 1)).next)

end Sys2Proof.Machine
end

