-- ==== Sys2Proof/Machine/Flags.lean ====
section
/-!
DEFINITION. The results and the flag values of the register ALU (R22, R158): each computed exactly on naturals and
narrowed to a byte at the end. The flag is a byte, 0 or 1, for VF.
-/

namespace Sys2Proof.Machine

/-- A flag as VF holds it (R22). -/
def flagByte (b : Bool) : Byte := if b then 1 else 0

/-- `(a + b) mod 256` (R158, R166). -/
def addResult (a b : Byte) : Byte := BitVec.ofNat 8 (a.toNat + b.toNat)

/-- VF after ADD: 1 iff the exact sum exceeds 255 (R166). -/
def addFlag (a b : Byte) : Byte := flagByte (decide (a.toNat + b.toNat > 255))

/-- `(a - b) mod 256`: a - b + 256 when a < b (R158, R168). -/
def subResult (a b : Byte) : Byte := BitVec.ofNat 8 (a.toNat + 256 - b.toNat)

/-- VF after SUB and SUBN: 1 iff no borrow, a >= b (R168, R170). -/
def subFlag (a b : Byte) : Byte := flagByte (decide (b.toNat ≤ a.toNat))

/-- `src >> 1` (R167). -/
def shrResult (src : Byte) : Byte := BitVec.ofNat 8 (src.toNat / 2)

/-- VF after SHR: the bit shifted out, bit 0 (R167). -/
def shrFlag (src : Byte) : Byte := flagByte (src.getLsbD 0)

/-- `(src << 1) mod 256` (R158, R169). -/
def shlResult (src : Byte) : Byte := BitVec.ofNat 8 (src.toNat * 2)

/-- VF after SHL: the bit shifted out, bit 7 (R169). -/
def shlFlag (src : Byte) : Byte := flagByte (src.getLsbD 7)

end Sys2Proof.Machine
end

