-- ==== Sys2Proof/Machine/Alu.lean ====
section
/-!
DEFINITION. Register loads and the ALU (42_registers_alu.md). Every operand is read from the state before the
instruction, and the flag is written last (R115).
-/

namespace Sys2Proof.Machine

/-- The end of an instruction that writes one register and no flag (R115, R159). -/
def State.writeReg (s : State) (x : Reg) (result : Byte) : Host.Outcome State Fault Refusal :=
  .next (s.setReg x result).next

/-- The end of an instruction that writes a result to Vx and then a flag to VF (R115, R159). -/
def State.writeRegFlag (s : State) (x : Reg) (result flag : Byte) : Host.Outcome State Fault Refusal :=
  .next ((s.setReg x result).setFlag flag).next

/-- 6xkk LD Vx, kk (R160). -/
def execLdVxKk (x : Reg) (kk : Byte) (s : State) : Host.Outcome State Fault Refusal := s.writeReg x kk

/-- 7xkk ADD Vx, kk: no flag (R161). -/
def execAddVxKk (x : Reg) (kk : Byte) (s : State) : Host.Outcome State Fault Refusal :=
  s.writeReg x (addResult (s.reg x) kk)

/-- 8xy0 LD Vx, Vy (R162). -/
def execLdVxVy (x y : Reg) (s : State) : Host.Outcome State Fault Refusal := s.writeReg x (s.reg y)

/-- 8xy1 OR Vx, Vy (R163). -/
def execOrVxVy (x y : Reg) (s : State) : Host.Outcome State Fault Refusal := s.writeReg x (s.reg x ||| s.reg y)

/-- 8xy2 AND Vx, Vy (R164). -/
def execAndVxVy (x y : Reg) (s : State) : Host.Outcome State Fault Refusal := s.writeReg x (s.reg x &&& s.reg y)

/-- 8xy3 XOR Vx, Vy (R165). -/
def execXorVxVy (x y : Reg) (s : State) : Host.Outcome State Fault Refusal := s.writeReg x (s.reg x ^^^ s.reg y)

/-- 8xy4 ADD Vx, Vy (R166). -/
def execAddVxVy (x y : Reg) (s : State) : Host.Outcome State Fault Refusal :=
  s.writeRegFlag x (addResult (s.reg x) (s.reg y)) (addFlag (s.reg x) (s.reg y))

/-- SHR Vx, Vy (R167). -/
def execShrVxVy (x y : Reg) (s : State) : Host.Outcome State Fault Refusal :=
  s.writeRegFlag x (shrResult (s.shiftSource x y)) (shrFlag (s.shiftSource x y))

/-- SUB Vx, Vy (R168). -/
def execSubVxVy (x y : Reg) (s : State) : Host.Outcome State Fault Refusal :=
  s.writeRegFlag x (subResult (s.reg x) (s.reg y)) (subFlag (s.reg x) (s.reg y))

/-- SHL Vx, Vy (R169). -/
def execShlVxVy (x y : Reg) (s : State) : Host.Outcome State Fault Refusal :=
  s.writeRegFlag x (shlResult (s.shiftSource x y)) (shlFlag (s.shiftSource x y))

/-- SUBN Vx, Vy (R170). -/
def execSubnVxVy (x y : Reg) (s : State) : Host.Outcome State Fault Refusal :=
  s.writeRegFlag x (subResult (s.reg y) (s.reg x)) (subFlag (s.reg y) (s.reg x))

/-- Cxkk RND Vx, kk: a fresh byte of RNG, masked (R171, R276). -/
def execRndVxKk (x : Reg) (kk : Byte) (s : State) : Host.Outcome State Fault Refusal :=
  { s with rngDraws := s.rngDraws + 1 }.writeReg x (Config.rngByte s.rngDraws &&& kk)

end Sys2Proof.Machine
end

