-- ==== Sys2Proof/Machine/ControlFlow.lean ====
section
/-!
DEFINITION. The control-flow instructions (41_control_flow.md).
-/

namespace Sys2Proof.Machine

/-- 00EE RET: the popped address, then the advance from it (R141). -/
def execRet (s : State) : Host.Outcome State Fault Refusal :=
  match s.stack with
  | [] => .next (s.raise (.stackUnderflow 0x00EE))
  | r :: rest => .next ({ s with stack := rest }.returnTo r)

/-- 1nnn JP nnn (R142). -/
def execJp (nnn : Addr) (s : State) : Host.Outcome State Fault Refusal :=
  .next (s.unlessFault (checkTarget nnn.toNat) (s.jump nnn.toNat))

/-- 2nnn CALL nnn: a full stack is checked first, then the target; the address pushed is the CALL's own (R143, R233).
A stack of more than 16 entries, which no run reaches, counts as full (assumption log 16). -/
def execCall (nnn : Addr) (s : State) : Host.Outcome State Fault Refusal :=
  if 16 ≤ s.stack.length then .next (s.raise (.stackOverflow s.pc))
  else .next (s.unlessFault (checkTarget nnn.toNat) ({ s with stack := s.pc :: s.stack }.jump nnn.toNat))

/-- 3xkk SE Vx, kk (R144). -/
def execSeVxKk (x : Reg) (kk : Byte) (s : State) : Host.Outcome State Fault Refusal :=
  .next (s.skipIf (s.reg x == kk))

/-- 4xkk SNE Vx, kk (R145). -/
def execSneVxKk (x : Reg) (kk : Byte) (s : State) : Host.Outcome State Fault Refusal :=
  .next (s.skipIf (s.reg x != kk))

/-- 5xy0 SE Vx, Vy (R146). -/
def execSeVxVy (x y : Reg) (s : State) : Host.Outcome State Fault Refusal :=
  .next (s.skipIf (s.reg x == s.reg y))

/-- 9xy0 SNE Vx, Vy (R147). -/
def execSneVxVy (x y : Reg) (s : State) : Host.Outcome State Fault Refusal :=
  .next (s.skipIf (s.reg x != s.reg y))

/-- Bnnn JP V0, nnn: the sum is exact, not truncated (R148). -/
def execJpV0Nnn (nnn : Addr) (s : State) : Host.Outcome State Fault Refusal :=
  .next (s.unlessFault (checkTarget ((s.reg 0).toNat + nnn.toNat)) (s.jump ((s.reg 0).toNat + nnn.toNat)))

end Sys2Proof.Machine
end

