-- ==== Sys2Proof/Machine/Display.lean ====
section
/-!
DEFINITION. The display instructions (40_display.md).
-/

namespace Sys2Proof.Machine

/-- What a draw of n rows at (Vx, Vy) does: the batch opened, every set bit's pixel toggled and reported in order, the
batch closed, and VF the collision flag (R132, R133). -/
def State.draw (s : State) (x y : Reg) (n : Nat) : State :=
  let pixels := spritePixels (s.reg x).toNat (s.reg y).toNat 0 (s.readBytes s.base n)
  let (t, coll) := (s.emit .startDrawBatch).lightPixels pixels
  (t.emit .finishDrawBatch).setFlag (if coll then 1 else 0)

/-- 00E0 CLS (R130). -/
def execCls (s : State) : Host.Outcome State Fault Refusal := .next s.clearDisplay.next

/-- Dxyn DRW Vx, Vy, n (R131, R132). -/
def execDrwVxVyN (x y : Reg) (n : Fin 16) (s : State) : Host.Outcome State Fault Refusal :=
  .next (s.unlessFault (s.checkAddresses n.val) (s.draw x y n.val).next)

end Sys2Proof.Machine
end

