-- ==== Sys2Proof/Machine/KeysTimers.lean ====
section
/-!
DEFINITION. The key and timer instructions (44_keys_timers.md).
-/

namespace Sys2Proof.Machine

/-- What a timer cycle's phase is set to when it starts or ticks: 16 ms in TIMED; in UNTIMED the counter does not
exist and keeps its value (R29, R215, R255, R266). -/
def State.reload (s : State) (phase : Nat) : Nat := if s.params.timing = .timed then 16 else phase

/-- DT written, and its decrement cycle started if the value is not 0 and none is running (R215). -/
def State.setDelay (s : State) (b : Byte) : State :=
  if b ≠ 0 ∧ s.dtRun = false then { s with dt := b, dtRun := true, dtPhase := s.reload s.dtPhase }
  else { s with dt := b }

/-- ST written, and its decrement cycle started if the value is not 0 and none is running (R216). -/
def State.setSound (s : State) (b : Byte) : State :=
  if b ≠ 0 ∧ s.stRun = false then { s with st := b, stRun := true, stPhase := s.reload s.stPhase }
  else { s with st := b }

/-- Ex9E SKP Vx (R210, R211). -/
def execSkpVx (x : Reg) (s : State) : Host.Outcome State Fault Refusal :=
  .next (s.unlessFault (s.checkDigit x) (s.skipIf (s.keyHeld (s.reg x))))

/-- ExA1 SKNP Vx (R210, R212). -/
def execSknpVx (x : Reg) (s : State) : Host.Outcome State Fault Refusal :=
  .next (s.unlessFault (s.checkDigit x) (s.skipIf (!s.keyHeld (s.reg x))))

/-- Fx07 LD Vx, DT (R213). -/
def execLdVxDt (x : Reg) (s : State) : Host.Outcome State Fault Refusal := .next (s.setReg x s.dt).next

/-- Fx0A LD Vx, K: the register waits, pc stays, and the key-down that resolves the wait advances it (R214, R277). -/
def execLdVxK (x : Reg) (s : State) : Host.Outcome State Fault Refusal := .next { s with pending := some x }

/-- Fx15 LD DT, Vx (R215). -/
def execLdDtVx (x : Reg) (s : State) : Host.Outcome State Fault Refusal := .next (s.setDelay (s.reg x)).next

/-- Fx18 LD ST, Vx (R216). -/
def execLdStVx (x : Reg) (s : State) : Host.Outcome State Fault Refusal := .next (s.setSound (s.reg x)).next

end Sys2Proof.Machine
end

