-- ==== Sys2Proof/Machine/Timers.lean ====
section
/-!
DEFINITION. When each agent that needs no outside input has a step (R110, R255 to R257, R264), the two decrement cycles
(R255, R256) and the base clock of the TIMED profile (R264).
-/

namespace Sys2Proof.Machine

/-- The TIMED profile is in force (R262). -/
def State.timed (s : State) : Bool := s.params.timing == .timed

/-- The CPU has a step: Running, no wait pending, and in TIMED the prescaler at 0 (R110, R265). -/
def State.cpuEnabled (s : State) : Bool :=
  s.status == .running && s.pending.isNone && (!s.timed || s.cpuWait == 0)

/-- The timers are enabled: Running, and not waiting for a key if WAIT_FREEZES_TIMERS (R257). -/
def State.timersEnabled (s : State) : Bool :=
  s.status == .running && (!s.params.waitFreezesTimers || s.pending.isNone)

/-- The delay cycle has a step (R255). -/
def State.delayEnabled (s : State) : Bool := s.dtRun && s.timersEnabled && (!s.timed || s.dtPhase == 0)

/-- The sound cycle has a step (R256). -/
def State.soundEnabled (s : State) : Bool := s.stRun && s.timersEnabled && (!s.timed || s.stPhase == 0)

/-- The base clock has a step: TIMED, and neither the CPU nor a timer cycle has one (R264). -/
def State.clockEnabled (s : State) : Bool := s.timed && !s.cpuEnabled && !s.delayEnabled && !s.soundEnabled

/-- The delay tick (R255): counts DT down, and the cycle stops at 0 and when DT is found at 0; a cycle that goes on
gets its next phase. -/
def State.delayTick (s : State) : State :=
  if s.dt = 0 then { s with dtRun := false }
  else if s.dt = 1 then { s with dt := 0, dtRun := false }
  else { s with dt := s.dt - 1, dtPhase := s.reload s.dtPhase }

/-- The sound tick (R256): as the delay tick, and the one that takes ST to 0 emits Beep. -/
def State.soundTick (s : State) : State :=
  if s.st = 0 then { s with stRun := false }
  else if s.st = 1 then { s with st := 0, stRun := false }.emit .beep
  else { s with st := s.st - 1, stPhase := s.reload s.stPhase }

/-- The clock counts cpuWait down: Running, no wait pending (R264). -/
def State.cpuCounts (s : State) : Bool := s.status == .running && s.pending.isNone && decide (0 < s.cpuWait)

/-- The clock counts dtPhase down (R264). -/
def State.delayCounts (s : State) : Bool := s.timersEnabled && s.dtRun && decide (0 < s.dtPhase)

/-- The clock counts stPhase down (R264). -/
def State.soundCounts (s : State) : Bool := s.timersEnabled && s.stRun && decide (0 < s.stPhase)

/-- One millisecond of the base clock (R264). -/
def State.clockTick (s : State) : State :=
  { s with
    cpuWait := if s.cpuCounts then s.cpuWait - 1 else s.cpuWait
    dtPhase := if s.delayCounts then s.dtPhase - 1 else s.dtPhase
    stPhase := if s.soundCounts then s.stPhase - 1 else s.stPhase }

end Sys2Proof.Machine
end

