-- ==== Sys2Proof/Machine/Keyboard.lean ====
section
/-!
DEFINITION. The keyboard (R275, R277): key events, the resolution of a wait, and what the host is told of a rejected
event or command (R284).
-/

namespace Sys2Proof.Machine

/-- The host is told, and nothing else changes (R284). -/
def State.reply (s : State) (r : Rejection) : State := { s with hostReplies := s.hostReplies ++ [r] }

/-- The CPU prescaler set, in TIMED only (R265, R277, R282). -/
def State.setCpuWait (s : State) (ms : Nat) : State := if s.timed then { s with cpuWait := ms } else s

/-- Bit k of the key bitmap written (R30). -/
def State.setKey (s : State) (k : Key) (down : Bool) : State :=
  { s with keys := if down then s.keys ||| BitVec.twoPow 16 k.val else s.keys &&& ~~~(BitVec.twoPow 16 k.val) }

/-- A wait for a key resolved by key k: the number stored, the wait over, the deferred advance taken with the overflow
policy, and in TIMED one cycle to the next instruction (R214, R277). -/
def State.resolveWait (s : State) (x : Reg) (k : Key) : State :=
  ({ s.setReg x (BitVec.ofNat 8 k.val) with pending := none }.next).setCpuWait 2

/-- The key-down event (R277): the bit set, and while Running a pending wait resolved. -/
def State.pressKey (s : State) (k : Key) : State :=
  match s.status, s.pending with
  | .running, some x => (s.setKey k true).resolveWait x k
  | _, _ => s.setKey k true

/-- The key-up event (R277): the bit cleared. -/
def State.releaseKey (s : State) (k : Key) : State := s.setKey k false

/-- A key-down event with a number as the host gives it: one that is no key is a ContractViolation (R275). -/
def State.keyDown (s : State) (k : Nat) : State :=
  if h : k < 16 then s.pressKey ⟨k, h⟩ else s.reply (.malformedKey k)

/-- A key-up event with a number as the host gives it: one that is no key is a ContractViolation (R275). -/
def State.keyUp (s : State) (k : Nat) : State :=
  if h : k < 16 then s.releaseKey ⟨k, h⟩ else s.reply (.malformedKey k)

/-- A key event whose number is negative or no integer: a ContractViolation, before any state changes (R275). -/
def State.keyMalformed (s : State) : State := s.reply .malformedKeyInput

end Sys2Proof.Machine
end

