-- ==== Sys2Proof/Machine/HostCommands.lean ====
section
/-!
DEFINITION. The host's commands and the run-state machine (R280 to R285), the reset that a load performs (R301), and
the launch state (R303).
-/

namespace Sys2Proof.Machine

/-- The counters of TIMED set to 0; in UNTIMED they do not exist (R29, R283, R301). -/
def State.clearCounters (s : State) : State :=
  if s.timed then { s with cpuWait := 0, dtPhase := 0, stPhase := 0 } else s

/-- The reset performed by a legal load(P) (R301): registers, I, pc, stack, timers, wait and fault record reset, the
memory image of R35, status Running. keys, fb, the output trace and the fault log are kept (R39, R232). -/
def State.load (s : State) (program : List Byte) : State :=
  { s.clearCounters with
    dtRun := false
    stRun := false
    v := Vector.replicate 16 0
    i := 0
    pc := BitVec.ofNat 16 progStart
    stack := []
    dt := 0
    st := 0
    pending := none
    fault := none
    mem := []
    status := .running }.writeBytes progStart program

/-- The teardown of a stop (R283): Stopped, the wait and both cycles cancelled; registers, memory and fb are kept, and
the fault record too (assumption log 18). -/
def State.teardown (s : State) : State :=
  { s.clearCounters with status := .stopped, pending := none, dtRun := false, stRun := false }

/-- load(P) (R280): a program that does not fit is a ContractViolation in every status (assumption log 20); legal when
Stopped, Finished or Faulted. -/
def State.hostLoad (s : State) (program : List Byte) : State :=
  if maxProg < program.length then s.reply (.programTooLong program.length)
  else
    match s.status with
    | .stopped | .finished | .faulted => s.load program
    | .running | .paused => s.reply (.illegalTransition .load s.status)

/-- pause: legal only when Running, waiting or not (R281). -/
def State.hostPause (s : State) : State :=
  match s.status with
  | .running => { s with status := .paused }
  | .stopped | .paused | .finished | .faulted => s.reply (.illegalTransition .pause s.status)

/-- resume: legal only when Paused; in TIMED the next instruction is issued at once (R282). -/
def State.hostResume (s : State) : State :=
  match s.status with
  | .paused => { s with status := .running }.setCpuWait 0
  | .stopped | .running | .finished | .faulted => s.reply (.illegalTransition .resume s.status)

/-- stop: legal in every status, with no effect when Stopped (R283). -/
def State.hostStop (s : State) : State :=
  match s.status with
  | .stopped => s
  | .running | .paused | .finished | .faulted => s.teardown

/-- A command of the host (R280 to R284, R302). DESIGN CHOICE: a malformed program is a ContractViolation in every status,
also when Running or Paused, where a load is an IllegalTransition too and the spec does not order the two rejections
(assumption log 20). -/
def State.command (s : State) : HostCommand → State
  | .load program => s.hostLoad program
  | .loadMalformed => s.reply .malformedProgram
  | .pause => s.hostPause
  | .resume => s.hostResume
  | .stop => s.hostStop

/-- The machine before its first load: Stopped, with its parameters, key bitmap and frame buffer. The spec leaves every
other field unspecified and no rule reads it before a load writes it (R300); here they are those of `State.reset`. -/
def State.powerOn (params : Params) (keys0 : Word) (fb0 : FrameBuffer) : State :=
  { State.reset with params := params, keys := keys0, fb := fb0, status := .stopped }

/-- Launch(P, keys0, fb0): the state after a load of P from power-on (R303), under given parameters. R303 gives no
launch state for a P of more than 3584 bytes, whose load R302 rejects. DESIGN CHOICE: here it is the state after the
rejected command, Stopped, with nothing loaded and the host told (assumption log 30). -/
def State.launch (params : Params) (program : List Byte) (keys0 : Word) (fb0 : FrameBuffer) : State :=
  (State.powerOn params keys0 fb0).hostLoad program

end Sys2Proof.Machine
end

