-- ==== Sys2Proof/Machine/Cycle.lean ====
section
/-!
DEFINITION. The instruction cycle (R110), and one step of each agent (R9). Between the agents the state's schedule
chooses, and past its end they take turns (R268; assumption log 10, 23).
-/

namespace Sys2Proof.Machine

/-- The milliseconds an instruction is billed in TIMED: CYCLE_MS, and ten times that for Dxyn (R265, R320). -/
def cycleMs : Instr → Nat
  | .drwVxVyN _ _ _ => 20
  | _ => 2

/-- The CPU prescaler after a CPU step that does not fault or suspend (R265). -/
def State.bill (i : Instr) (t : State) : State :=
  if t.status = .faulted ∨ t.pending ≠ none then t else t.setCpuWait (cycleMs i)

/-- An outcome with its next state changed. -/
def mapNext (f : State → State) : Host.Outcome State Fault Refusal → Host.Outcome State Fault Refusal
  | .next t => .next (f t)
  | .fault r => .fault r
  | .refused r => .refused r

/-- One cycle of the CPU (R110): fetch, decode, InvalidOpcode for a word outside the opcode map (R117), else the
instruction's rule with its advance, and in TIMED the prescaler (R265). -/
def cpuStep (s : State) : Host.Outcome State Fault Refusal :=
  if s.fetchable then
    match decode s.params.aluLayout s.fetchWord with
    | .ok i => mapNext (State.bill i) (exec i s)
    | .error _ => .next (s.raise (.invalidOpcode (hiByte s.fetchWord) (loByte s.fetchWord)))
  else .fault (.fetchOutsideMemory s.pc)

/-- One step of the agent that an event names. An agent that has no step does nothing (assumption log 11). -/
def agentStep (e : Event) (s : State) : Host.Outcome State Fault Refusal :=
  match e with
  | .cpu => if s.cpuEnabled then cpuStep s else .next s
  | .delayTick => .next (if s.delayEnabled then s.delayTick else s)
  | .soundTick => .next (if s.soundEnabled then s.soundTick else s)
  | .clock => .next (if s.clockEnabled then s.clockTick else s)
  | .keyDown k => .next (s.keyDown k)
  | .keyUp k => .next (s.keyUp k)
  | .keyDownMalformed | .keyUpMalformed => .next s.keyMalformed
  | .host c => .next (s.command c)

/-- Why no agent moves, by the status (R214, R232, R300, R330). -/
def stuckReason (s : State) : Fault :=
  match s.status with
  | .stopped => .stopped
  | .paused => .paused
  | .finished => .finished
  | .faulted => .faulted
  | .running => .waitingForKey

/-- The event that an agent's step is. -/
def Agent.event : Agent → Event
  | .cpu => .cpu
  | .delay => .delayTick
  | .sound => .soundTick

/-- The agent whose turn comes after another's (assumption log 23). -/
def Agent.next : Agent → Agent
  | .cpu => .delay
  | .delay => .sound
  | .sound => .cpu

/-- The agents in the order in which they are asked, from the one whose turn it is. -/
def Agent.order (a : Agent) : List Agent := [a, a.next, a.next.next]

/-- The agent has a step (R110, R255, R256). -/
def State.agentEnabled (s : State) : Agent → Bool
  | .cpu => s.cpuEnabled
  | .delay => s.delayEnabled
  | .sound => s.soundEnabled

/-- The agent that moves when the schedule is empty: the first that has a step, from the one whose turn it is. -/
def State.idleAgent (s : State) : Option Agent := s.turn.order.find? s.agentEnabled

/-- The turn passed on after an agent's step, so that none that keeps a step waits for ever (R268). -/
def State.passTurn (s : State) (a : Agent) : State := { s with turn := a.next }

/-- The step with an empty schedule: the agent that the turns give, then a clock that counts something; with none, the
machine is stuck (assumption log 10, 12, 23). -/
def idleStep (s : State) : Host.Outcome State Fault Refusal :=
  match s.idleAgent with
  | some a => agentStep a.event (s.passTurn a)
  | none =>
    if s.clockEnabled && (s.cpuCounts || s.delayCounts || s.soundCounts) then .next s.clockTick
    else .fault (stuckReason s)

/-- The step with an event at the head of the schedule: the event is used up and its agent moves. -/
def scheduledStep (e : Event) (rest : List Event) (s : State) : Host.Outcome State Fault Refusal :=
  agentStep e { s with schedule := rest }

end Sys2Proof.Machine
end

