-- ==== Sys2Proof/Machine/Step.lean ====
section
/-!
DEFINITION. One step of the machine, and the placing of a word where the next fetch reads it.
-/

namespace Sys2Proof.Machine

/-- One step of one agent: the one the schedule names next, or with an empty schedule the one whose turn it is (R268). -/
def step (s : State) : Host.Outcome State Fault Refusal :=
  match s.schedule with
  | [] => idleStep s
  | e :: rest => scheduledStep e rest s

/-- The state with the instruction whose bits are `w`, as spec/opcode_table.json numbers them, stored where the next
fetch reads it: it stands for the load of a program whose first word it is (assumption log 2). -/
def State.withFetchWord (s : State) (nbits w : Nat) : State := s.placeWord (BitVec.ofNat 16 (w % 2 ^ nbits))

end Sys2Proof.Machine
end

