-- ==== Sys2Proof/Safety.lean ====
section
/-!
DEFINITION. The terms in which claims are made: the ends of a run (R330), fair runs (R268), the invariant of the
reachable states (R38), and what a step of an instruction changes and leaves, written out of the spec's own words and
not of the model's operations.
-/

namespace Sys2Proof.Machine

/-! ### The ends of a run (R330) -/

/-- The good end of a run (R330). -/
def State.goodEnd (s : State) : Prop := s.status = .finished

/-- The bad end of a run (R232, R330). -/
def State.badEnd (s : State) : Prop := s.status = .faulted

/-- The machine waits, for a key-down or for a resume: quiescent, and no end (R330). -/
def State.waits (s : State) : Prop := s.status = .paused ∨ (s.status = .running ∧ s.pending ≠ none)

/-! ### Runs (R9, R263, R268) -/

/-- The state after an agent's step; a step that answers no next state leaves the state as it is. -/
def afterEvent (e : Event) (s : State) : State :=
  match agentStep e s with
  | .next t => t
  | .fault _ | .refused _ => s

/-- The states of the run that takes the events of an infinite schedule one after the other. -/
def runStates (events : Nat → Event) (s : State) : Nat → State
  | 0 => s
  | n + 1 => afterEvent (events n) (runStates events s n)

/-- The agent that an event names has a step (R110, R255, R256, R264; the keyboard and the host always have one). -/
def State.hasStep (s : State) : Event → Bool
  | .cpu => s.cpuEnabled
  | .delayTick => s.delayEnabled
  | .soundTick => s.soundEnabled
  | .clock => s.clockEnabled
  | .keyDown _ | .keyUp _ | .keyDownMalformed | .keyUpMalformed | .host _ => true

/-- Weak fairness for the CPU and both timer cycles (R268): none of them keeps a step for ever without taking one.
The keyboard and the host are not subject to it. -/
def WeaklyFair (events : Nat → Event) (s : State) : Prop :=
  ∀ e ∈ [Event.cpu, .delayTick, .soundTick], ∀ n, ∃ m, n ≤ m ∧ (events m = e ∨ (runStates events s m).hasStep e = false)

/-- The state after a step; where the machine stops it stays as it is. -/
def afterStep (s : State) : State :=
  match step s with
  | .next t => t
  | .fault _ | .refused _ => s

/-- The states of the run that steps on from a state: its schedule first, then the agents by their turns. -/
def stepStates (s : State) : Nat → State
  | 0 => s
  | n + 1 => afterStep (stepStates s n)

/-- The step is the one of the agent that the event names, whatever the schedule and the turn become. -/
def TakesStep (e : Event) (s : State) : Prop :=
  ∃ turn, step s = agentStep e { s with schedule := s.schedule.tail, turn := turn }

/-! ### What an instruction changes and leaves -/

/-- Everything but the general registers, pc, and what the overflow policy writes is as before, every byte of memory
among it. -/
def OnlyRegs (s t : State) : Prop :=
  t = { s with v := t.v, pc := t.pc, status := t.status, dtRun := t.dtRun, stRun := t.stRun } ∧
    ∀ a, t.readByte a = s.readByte a

/-- Everything but I, pc, and what the overflow policy writes is as before, every register and every byte of memory
among it. -/
def OnlyI (s t : State) : Prop :=
  t = { s with i := t.i, pc := t.pc, status := t.status, dtRun := t.dtRun, stRun := t.stRun } ∧
    ∀ a, t.readByte a = s.readByte a

/-- Everything but pc and what the overflow policy writes is as before, every register and every byte of memory among
it. -/
def OnlyPc (s t : State) : Prop :=
  t = { s with pc := t.pc, status := t.status, dtRun := t.dtRun, stRun := t.stRun } ∧
    ∀ a, t.readByte a = s.readByte a

/-- The register r alone may differ. -/
def OtherRegsKept (s t : State) (r : Reg) : Prop := ∀ q, q ≠ r → t.reg q = s.reg q

/-- The registers r and VF alone may differ. -/
def OtherRegsAndFlagKept (s t : State) (r : Reg) : Prop := ∀ q, q ≠ r → q ≠ 15 → t.reg q = s.reg q

/-- Every byte outside the n bytes from a on reads as before. -/
def BytesKeptOutside (s t : State) (a n : Nat) : Prop := ∀ b, ¬(a ≤ b ∧ b < a + n) → t.readByte b = s.readByte b

/-- pc after a sequential advance to p from a state with these run bits and this status: p, and past 0xFFF the machine
is Finished with both cycles cancelled (R112, R114). -/
def Advanced (s t : State) (p : Nat) : Prop :=
  t.pc = BitVec.ofNat 16 p ∧
    if p ≤ 0xFFF then t.status = s.status ∧ t.dtRun = s.dtRun ∧ t.stRun = s.stRun
    else t.status = .finished ∧ t.dtRun = false ∧ t.stRun = false

/-- The fault effect (R231): the record with the pc, its copy in the log, status Faulted, both cycles cancelled, and
NOTHING else changed, so that pc still holds the address of the faulting instruction. -/
def TookFault (s t : State) (cause : FaultCause) : Prop :=
  t = { s with
        fault := some ⟨cause, s.pc⟩
        faultLog := s.faultLog ++ [⟨cause, s.pc⟩]
        status := .faulted
        dtRun := false
        stRun := false }

/-- The word f | nnn of format A (R93). -/
def wordA (f : Nat) (nnn : Addr) : Word := BitVec.ofNat 16 (f + nnn.toNat)

/-- The word f | x<<8 | kk of formats XK and X (R93). -/
def wordXK (f : Nat) (x : Reg) (kk : Byte) : Word := BitVec.ofNat 16 (f + x.val * 256 + kk.toNat)

/-- The word f | x<<8 | y<<4 of formats XY and XYN (R93). -/
def wordXY (f : Nat) (x y : Reg) : Word := BitVec.ofNat 16 (f + x.val * 256 + y.val * 16)

/-- The word is the instruction in both layouts (R95, R96). -/
def EncodesInBoth (w : Word) (i : Instr) : Prop := ∀ layout, decode layout w = .ok i

/-! ### How an instruction completes -/

/-- The instruction completes with b in Vx, every other register and everything else kept, and the advance by 2. -/
def WritesReg (i : Instr) (s : State) (x : Reg) (b : Byte) : Prop :=
  ∃ t, exec i s = .next t ∧ t.reg x = b ∧ OtherRegsKept s t x ∧ OnlyRegs s t ∧ Advanced s t (s.pc.toNat + 2)

/-- The instruction completes with b in Vx and then the flag f in VF, so that with x = 15 VF holds the flag (R115),
every other register and everything else kept, and the advance by 2. -/
def WritesRegAndFlag (i : Instr) (s : State) (x : Reg) (b f : Byte) : Prop :=
  ∃ t, exec i s = .next t ∧ (x ≠ 15 → t.reg x = b) ∧ t.reg 15 = f ∧ OtherRegsAndFlagKept s t x ∧ OnlyRegs s t ∧
    Advanced s t (s.pc.toNat + 2)

/-- The instruction completes with an advance by `distance` and everything else kept. -/
def OnlyAdvances (i : Instr) (s : State) (distance : Nat) : Prop :=
  ∃ t, exec i s = .next t ∧ OnlyPc s t ∧ Advanced s t (s.pc.toNat + distance)

/-- The instruction takes the fault (R231). -/
def Faults (i : Instr) (s : State) (cause : FaultCause) : Prop := ∃ t, exec i s = .next t ∧ TookFault s t cause

/-- I[11:0], the base of an access through I (R23, R64). -/
def baseOf (s : State) : Nat := s.i.toNat % 4096

/-- The instruction is Dxyn. -/
def isDrw : Instr → Bool
  | .drwVxVyN _ _ _ => true
  | _ => false

/-! ### Sprites (R131) -/

/-- Column c of row r of the sprite whose bytes stand at `base` is set (R131: bit 7 - c of its byte). -/
def State.spriteBit (s : State) (base r c : Nat) : Bool := (s.readByte (base + r)).getLsbD (7 - c)

/-- The pixel is one that a sprite of n rows at (X, Y) covers with a set bit (R131). -/
def State.covered (s : State) (base X Y n : Nat) (px : Fin 64) (py : Fin 32) : Prop :=
  ∃ r c, r < n ∧ c < 8 ∧ s.spriteBit base r c = true ∧ px.val = (X + c) % 64 ∧ py.val = (Y + r) % 32

/-- The LightPixel events of a sprite of n rows at (X, Y): row by row, in each row left to right, one for each set
bit, saying whether its pixel was lit (R131, R132). -/
def State.spriteEvents (s : State) (base X Y n : Nat) : List DeviceEvent :=
  (List.range n).flatMap fun r =>
    ((List.range 8).filter fun c => s.spriteBit base r c).map fun c =>
      .lightPixel (Fin.ofNat 64 (X + c)) (Fin.ofNat 32 (Y + r)) (s.pixel (Fin.ofNat 64 (X + c)) (Fin.ofNat 32 (Y + r)))

/-! ### Agents -/

/-- The timers are enabled (R257). -/
def TimersOn (s : State) : Prop := s.status = .running ∧ (s.params.waitFreezesTimers = true → s.pending = none)

/-- The CPU has a step (R110). -/
def CpuReady (s : State) : Prop :=
  s.status = .running ∧ s.pending = none ∧ (s.params.timing = .timed → s.cpuWait = 0)

/-- The delay cycle has a step (R255). -/
def DelayReady (s : State) : Prop := s.dtRun = true ∧ TimersOn s ∧ (s.params.timing = .timed → s.dtPhase = 0)

/-- The sound cycle has a step (R256). -/
def SoundReady (s : State) : Prop := s.stRun = true ∧ TimersOn s ∧ (s.params.timing = .timed → s.stPhase = 0)

/-- The word that the CPU fetches (R62, R75): the byte at pc high, the one at pc + 1 low. -/
def fetched (s : State) : Word := s.readByte s.pc.toNat ++ s.readByte (s.pc.toNat + 1)

/-- pc is where an instruction can be (R38): even and at most 0xFFE. -/
def PcOk (s : State) : Prop := s.pc.toNat % 2 = 0 ∧ s.pc.toNat ≤ 0xFFE

/-- A value of a counter of TIMED: the given one in TIMED, and the old one in UNTIMED, where the counter does not
exist (R29). -/
def inTimed (s : State) (new old : Nat) : Nat := if s.params.timing = .timed then new else old

/-! ### The invariant of the reachable states -/

/-- What holds in every state of a run (R38, and R24, R28, R29, R32, R33 for the other statuses). -/
structure Inv (s : State) : Prop where
  /-- While Running or Paused, pc is even and at most 0xFFE (R38). -/
  pcFetchable : s.status = .running ∨ s.status = .paused → s.pc.toNat % 2 = 0 ∧ s.pc.toNat ≤ 0xFFE
  /-- Finished with the pc that fired the overflow policy (R24, R114). -/
  pcFinished : s.status = .finished → s.pc = 0x1000 ∨ s.pc = 0x1002
  /-- At most 16 return addresses (R38). -/
  stackDepth : s.stack.length ≤ 16
  /-- Every return address is even and at most 0xFFE (R38). -/
  stackEntries : ∀ r ∈ s.stack, r.toNat % 2 = 0 ∧ r.toNat ≤ 0xFFE
  /-- A wait is pending only while Running or Paused, and only at its Fx0A, which pc still points at (R38, R214). -/
  waitingAtLdVxK : ∀ x, s.pending = some x →
    (s.status = .running ∨ s.status = .paused) ∧ decode s.params.aluLayout s.fetchWord = .ok (.ldVxK x)
  /-- A timer cycle runs only while Running or Paused (R28). -/
  cyclesCancelled : s.dtRun = true ∨ s.stRun = true → s.status = .running ∨ s.status = .paused
  /-- Running and Paused carry no fault record (R301); Faulted carries the record of the fault at pc, and the log
  keeps it (R231, R232). -/
  faultRecord : (s.status = .running ∨ s.status = .paused → s.fault = none) ∧
    (s.status = .faulted → ∃ r ∈ s.faultLog, s.fault = some r ∧ r.pc = s.pc)
  /-- Memory is in its canonical form. -/
  memory : s.memWf
  /-- The counters of TIMED stay within their reload values (R265, R266), and in UNTIMED they are 0 (R29). -/
  counters : (s.params.timing = .untimed → s.cpuWait = 0 ∧ s.dtPhase = 0 ∧ s.stPhase = 0) ∧
    s.cpuWait ≤ 20 ∧ s.dtPhase ≤ 16 ∧ s.stPhase ≤ 16

end Sys2Proof.Machine
end

