-- ==== Sys2Proof/Certificates/Slice0/Obligations.lean ====
section
/-!
DEFINITION. The statements for the provers, from the spec's numbered rules.
-/

open Sys2Proof Sys2Proof.Machine

/-! ### Encoding (30_encoding.md) -/

/-- Decoding undoes encoding, for every instruction that a layout has and every value of its operands (R94 to R96). -/
def Obligations.DecodeEncodeRoundTrip : Prop :=
  ∀ (layout : AluLayout) (i : Instr), i.wellFormed layout = true → decode layout (encode layout i) = .ok i

/-- R94: the decoder is total, a word that selects a row is that row's instruction, a word that selects none is
`Invalid` with its two raw bytes, and no two rows of a layout overlap. -/
def Obligations.DecodeFollowsTheOpcodeMap : Prop :=
  ∀ (layout : AluLayout) (w : Word),
    (∀ r ∈ opcodeRows layout, selects w r = true → ∃ i, decode layout w = .ok i ∧ patternOf layout i = r.pattern) ∧
    ((∀ r ∈ opcodeRows layout, selects w r = false) →
      decode layout w = .error (.invalidOpcode (w.extractLsb' 8 8) (w.extractLsb' 0 8))) ∧
    (∀ r ∈ opcodeRows layout, ∀ r' ∈ opcodeRows layout, selects w r = true → selects w r' = true → r = r')

/-- R98: the invalid words, family by family. -/
def Obligations.InvalidWordsByFamily : Prop :=
  ∀ (layout : AluLayout) (w : Word),
    (∃ e, decode layout w = .error e) ↔
      (category w = 0x0 ∧ w ≠ 0x00E0 ∧ w ≠ 0x00EE) ∨
      (category w = 0x5 ∧ (subop4 w).val ≠ 0) ∨
      (category w = 0x8 ∧ layout = .doc ∧ 0x8 ≤ (subop4 w).val) ∨
      (category w = 0x8 ∧ layout = .classic ∧ 0x8 ≤ (subop4 w).val ∧ (subop4 w).val ≠ 0xE) ∨
      (category w = 0x9 ∧ (subop4 w).val ≠ 0) ∨
      (category w = 0xE ∧ immediate8 w ≠ 0x9E ∧ immediate8 w ≠ 0xA1) ∨
      (category w = 0xF ∧ immediate8 w ∉ ([0x07, 0x0A, 0x15, 0x18, 0x1E, 0x29, 0x33, 0x55, 0x65] : List Byte))

/-- Words of the spec's examples, one of each family, decode to the instructions that the spec gives them
(95_test_vectors.md and the examples of the instructions' rules). -/
def Obligations.ExampleWordsDecode : Prop :=
  decode .doc 0x6005 = .ok (.ldVxKk 0 0x05) ∧ decode .doc 0x8014 = .ok (.addVxVy 0 1) ∧
    decode .doc 0xD015 = .ok (.drwVxVyN 0 1 5) ∧ decode .doc 0x1228 = .ok (.jp 0x228) ∧
    decode .doc 0xF255 = .ok (.ldMemVx 2) ∧ decode .doc 0xE59E = .ok (.skpVx 5) ∧
    decode .doc 0x8125 = .ok (.shrVxVy 1 2) ∧ decode .classic 0x8015 = .ok (.subVxVy 0 1) ∧
    decode .classic 0x801E = .ok (.shlVxVy 0 1)

/-! ### The instruction cycle (R110, R117) -/

/-- When the CPU has a step and the word at pc decodes to i, and the schedule names the CPU, or is empty and the turns give
the CPU (the model's own order, assumption log 10 and 23), the step is `exec i`, with the CPU prescaler after it (R110,
R265) and the schedule's head used up or the turn passed on. -/
def Obligations.StepRunsTheDecodedInstruction : Prop :=
  ∀ (s : State) (i : Instr), CpuReady s → PcOk s → decode s.params.aluLayout (fetched s) = .ok i →
    (s.schedule = [] → s.turn = .cpu ∨ ¬SoundReady s ∧ (s.turn = .sound ∨ ¬DelayReady s) →
      step s = mapNext (State.bill i) (exec i { s with turn := .delay })) ∧
    (∀ rest, s.schedule = .cpu :: rest → step s = mapNext (State.bill i) (exec i { s with schedule := rest }))

/-- R117: a word that is no instruction faults with its two raw bytes, writes nothing else, and pc stays on it. -/
def Obligations.InvalidOpcodeFaults : Prop :=
  ∀ (s : State) (e : DecodeError), CpuReady s → PcOk s → decode s.params.aluLayout (fetched s) = .error e →
    ∃ t, agentStep .cpu s = .next t ∧
      TookFault s t (.invalidOpcode (s.readByte s.pc.toNat) (s.readByte (s.pc.toNat + 1)))

/-- The agents have a step exactly when R110, R255, R256 and R264 say so. The step takes the agent that the schedule names
first, and uses its entry up (the schedule is the model's own choice, assumption log 10); with an empty schedule it takes
the first agent that has a step from the one whose turn it is, and passes the turn to the agent after it (the model's own
choice, assumption log 23); an agent without a step does nothing (assumption log 11). -/
def Obligations.TheScheduleNamesTheAgent : Prop :=
  ∀ s : State,
    (s.hasStep .cpu = true ↔ CpuReady s) ∧ (s.hasStep .delayTick = true ↔ DelayReady s) ∧
    (s.hasStep .soundTick = true ↔ SoundReady s) ∧
    (s.hasStep .clock = true ↔ s.params.timing = .timed ∧ ¬CpuReady s ∧ ¬DelayReady s ∧ ¬SoundReady s) ∧
    (∀ (e : Event) (rest : List Event), s.schedule = e :: rest → step s = agentStep e { s with schedule := rest }) ∧
    (s.schedule = [] → ∀ (a : Agent) (before after : List Agent), s.turn.order = before ++ a :: after →
      s.hasStep a.event = true → (∀ b ∈ before, s.hasStep b.event = false) →
      step s = agentStep a.event { s with turn := a.next }) ∧
    (∀ e : Event, s.hasStep e = false → agentStep e s = .next s)

/-! ### Display (40_display.md) -/

/-- R130: CLS. -/
def Obligations.ClsClearsTheDisplay : Prop :=
  EncodesInBoth 0x00E0 .cls ∧
  ∀ s : State, ∃ t, exec .cls s = .next t ∧ (∀ x y, t.pixel x y = false) ∧ t.trace = s.trace ++ [.clear] ∧
    (∀ r, t.reg r = s.reg r) ∧ (∀ a, t.readByte a = s.readByte a) ∧
    t = { s with fb := t.fb, trace := t.trace, pc := t.pc, status := t.status, dtRun := t.dtRun, stRun := t.stRun } ∧
    Advanced s t (s.pc.toNat + 2)

/-- R131, R132: DRW. A sprite that passes 0xFFF faults with the first address past it and does nothing. Otherwise
exactly the covered pixels are toggled, VF says whether one of them was lit, and the trace gains the batch with one
event for each set bit in order; everything else is kept, I among it; and in TIMED the CPU bills it as ten cycles. -/
def Obligations.DrwDrawsTheSprite : Prop :=
  ∀ (x y : Reg) (n : Fin 16) (s : State),
    EncodesInBoth (wordXY (0xD000 + n.val) x y) (.drwVxVyN x y n) ∧
    (0xFFF < baseOf s + n.val - 1 → Faults (.drwVxVyN x y n) s (.addressOutOfRange 0x1000)) ∧
    (baseOf s + n.val - 1 ≤ 0xFFF → ∃ t, exec (.drwVxVyN x y n) s = .next t ∧
      (∀ px py, (s.covered (baseOf s) (s.reg x).toNat (s.reg y).toNat n.val px py → t.pixel px py = !s.pixel px py) ∧
        (¬s.covered (baseOf s) (s.reg x).toNat (s.reg y).toNat n.val px py → t.pixel px py = s.pixel px py)) ∧
      (((∃ px py, s.covered (baseOf s) (s.reg x).toNat (s.reg y).toNat n.val px py ∧ s.pixel px py = true) ∧
          t.reg 15 = 1) ∨
        ((∀ px py, s.covered (baseOf s) (s.reg x).toNat (s.reg y).toNat n.val px py → s.pixel px py = false) ∧
          t.reg 15 = 0)) ∧
      t.trace = s.trace ++
        (.startDrawBatch :: s.spriteEvents (baseOf s) (s.reg x).toNat (s.reg y).toNat n.val ++ [.finishDrawBatch]) ∧
      OtherRegsKept s t 15 ∧ (∀ a, t.readByte a = s.readByte a) ∧
      t = { s with
            v := t.v, fb := t.fb, trace := t.trace, pc := t.pc, status := t.status, dtRun := t.dtRun
            stRun := t.stRun } ∧
      Advanced s t (s.pc.toNat + 2) ∧
      (CpuReady s → PcOk s → decode s.params.aluLayout (fetched s) = .ok (.drwVxVyN x y n) →
        agentStep .cpu s = .next { t with cpuWait := inTimed s 20 t.cpuWait }))

/-- R133: a Dxyn that does not fault brackets its LightPixel events with one StartDrawBatch and one FinishDrawBatch, and
no other instruction emits either. -/
def Obligations.OnlyDrwEmitsBatchEvents : Prop :=
  ∀ (i : Instr) (s t : State), exec i s = .next t →
    (isDrw i = true → t.status ≠ .faulted → ∃ es, t.trace = s.trace ++ (.startDrawBatch :: es ++ [.finishDrawBatch]) ∧
      ∀ e ∈ es, ∃ x y c, e = DeviceEvent.lightPixel x y c) ∧
    (isDrw i = false → ∃ es, t.trace = s.trace ++ es ∧ .startDrawBatch ∉ es ∧ .finishDrawBatch ∉ es)

/-- The same sprite drawn twice at one place leaves the frame buffer as it was. A sprite without a set bit gives VF = 0
in the second draw, and FROM AN UNLIT DISPLAY one with a set bit gives VF = 0 in the first draw and VF = 1 in the second
(R132; the test L2-D1). Where x or y is F the first draw changes a coordinate of the second. -/
def Obligations.DrawingTwiceRestoresTheDisplay : Prop :=
  ∀ (x y : Reg) (n : Fin 16) (s : State), x ≠ 15 → y ≠ 15 → baseOf s + n.val - 1 ≤ 0xFFF → s.pc.toNat ≤ 0xFFC →
    ∃ t u, exec (.drwVxVyN x y n) s = .next t ∧ exec (.drwVxVyN x y n) t = .next u ∧
      (∀ px py, u.pixel px py = s.pixel px py) ∧
      (u.reg 15 = 0 ∨ u.reg 15 = 1) ∧
      ((∀ r c, r < n.val → c < 8 → s.spriteBit (baseOf s) r c = false) → u.reg 15 = 0) ∧
      ((∀ px py, s.pixel px py = false) → (∃ r c, r < n.val ∧ c < 8 ∧ s.spriteBit (baseOf s) r c = true) →
        t.reg 15 = 0 ∧ u.reg 15 = 1)

/-! ### Control flow (41_control_flow.md) -/

/-- R141: RET. -/
def Obligations.RetReturnsPastTheCall : Prop :=
  EncodesInBoth 0x00EE .ret ∧
  (∀ s : State, s.stack = [] → Faults .ret s (.stackUnderflow 0x00EE)) ∧
  (∀ (s : State) (r : Word) (rest : List Word), s.stack = r :: rest →
    ∃ t, exec .ret s = .next t ∧ t.stack = rest ∧ (∀ q, t.reg q = s.reg q) ∧ (∀ a, t.readByte a = s.readByte a) ∧
      t = { s with stack := t.stack, pc := t.pc, status := t.status, dtRun := t.dtRun, stRun := t.stRun } ∧
      Advanced s t (r.toNat + 2))

/-- R142: JP nnn. -/
def Obligations.JpJumps : Prop :=
  ∀ (nnn : Addr) (s : State),
    EncodesInBoth (wordA 0x1000 nnn) (.jp nnn) ∧
    (nnn.toNat % 2 = 1 → Faults (.jp nnn) s (.pcMisaligned nnn.toNat)) ∧
    (nnn.toNat % 2 = 0 → ∃ t, exec (.jp nnn) s = .next t ∧ t = { s with pc := BitVec.ofNat 16 nnn.toNat } ∧
      (∀ a, t.readByte a = s.readByte a))

/-- R143: CALL nnn. A full stack is reported before an odd target. -/
def Obligations.CallPushesItsOwnAddress : Prop :=
  ∀ (nnn : Addr) (s : State),
    EncodesInBoth (wordA 0x2000 nnn) (.call nnn) ∧
    (s.stack.length = 16 → Faults (.call nnn) s (.stackOverflow s.pc)) ∧
    (s.stack.length < 16 → nnn.toNat % 2 = 1 → Faults (.call nnn) s (.pcMisaligned nnn.toNat)) ∧
    (s.stack.length < 16 → nnn.toNat % 2 = 0 → ∃ t, exec (.call nnn) s = .next t ∧
      t = { s with stack := s.pc :: s.stack, pc := BitVec.ofNat 16 nnn.toNat } ∧
      (∀ a, t.readByte a = s.readByte a))

/-- A CALL followed by the RET at its target comes back to the instruction after the CALL (R141, R143). -/
def Obligations.ReturnComesBackAfterTheCall : Prop :=
  ∀ (nnn : Addr) (s : State), s.stack.length < 16 → nnn.toNat % 2 = 0 → s.pc.toNat + 2 ≤ 0xFFF →
    ∃ t, exec (.call nnn) s = .next t ∧ exec .ret t = .next { s with pc := s.pc + 2 }

/-- R144, R145: SE Vx, kk and SNE Vx, kk. -/
def Obligations.ImmediateSkipsCompare : Prop :=
  ∀ (x : Reg) (kk : Byte) (s : State),
    EncodesInBoth (wordXK 0x3000 x kk) (.seVxKk x kk) ∧ OnlyAdvances (.seVxKk x kk) s (if s.reg x = kk then 4 else 2) ∧
    EncodesInBoth (wordXK 0x4000 x kk) (.sneVxKk x kk) ∧ OnlyAdvances (.sneVxKk x kk) s (if s.reg x ≠ kk then 4 else 2)

/-- R146, R147: SE Vx, Vy and SNE Vx, Vy; another low nibble is no instruction. -/
def Obligations.RegisterSkipsCompare : Prop :=
  ∀ (x y : Reg) (s : State),
    EncodesInBoth (wordXY 0x5000 x y) (.seVxVy x y) ∧
    EncodesInBoth (wordXY 0x9000 x y) (.sneVxVy x y) ∧
    (∀ (layout : AluLayout) (n : Fin 16), n ≠ 0 →
      (∃ e, decode layout (wordXY (0x5000 + n.val) x y) = .error e) ∧
      ∃ e, decode layout (wordXY (0x9000 + n.val) x y) = .error e) ∧
    OnlyAdvances (.seVxVy x y) s (if s.reg x = s.reg y then 4 else 2) ∧
    OnlyAdvances (.sneVxVy x y) s (if s.reg x ≠ s.reg y then 4 else 2)

/-- R148: JP V0, nnn. The sum is exact, and its range is checked before its parity. -/
def Obligations.JpV0JumpsToTheSum : Prop :=
  ∀ (nnn : Addr) (s : State),
    EncodesInBoth (wordA 0xB000 nnn) (.jpV0Nnn nnn) ∧
    (0xFFF < (s.reg 0).toNat + nnn.toNat →
      Faults (.jpV0Nnn nnn) s (.pcOutOfRange ((s.reg 0).toNat + nnn.toNat))) ∧
    ((s.reg 0).toNat + nnn.toNat ≤ 0xFFF → ((s.reg 0).toNat + nnn.toNat) % 2 = 1 →
      Faults (.jpV0Nnn nnn) s (.pcMisaligned ((s.reg 0).toNat + nnn.toNat))) ∧
    ((s.reg 0).toNat + nnn.toNat ≤ 0xFFF → ((s.reg 0).toNat + nnn.toNat) % 2 = 0 →
      ∃ t, exec (.jpV0Nnn nnn) s = .next t ∧
        t = { s with pc := BitVec.ofNat 16 ((s.reg 0).toNat + nnn.toNat) } ∧ (∀ a, t.readByte a = s.readByte a))

/-! ### Register loads and the ALU (42_registers_alu.md) -/

/-- R160, R161: LD Vx, kk, and ADD Vx, kk with no flag. -/
def Obligations.ImmediateLoadAndAdd : Prop :=
  ∀ (x : Reg) (kk : Byte) (s : State),
    EncodesInBoth (wordXK 0x6000 x kk) (.ldVxKk x kk) ∧ WritesReg (.ldVxKk x kk) s x kk ∧
    EncodesInBoth (wordXK 0x7000 x kk) (.addVxKk x kk) ∧
    WritesReg (.addVxKk x kk) s x (BitVec.ofNat 8 (((s.reg x).toNat + kk.toNat) % 256))

/-- R162 to R165: LD, OR, AND and XOR of registers, with no flag. -/
def Obligations.MoveAndLogicWriteVx : Prop :=
  ∀ (x y : Reg) (s : State),
    (EncodesInBoth (wordXY 0x8000 x y) (.ldVxVy x y) ∧ WritesReg (.ldVxVy x y) s x (s.reg y)) ∧
    (EncodesInBoth (wordXY 0x8001 x y) (.orVxVy x y) ∧ WritesReg (.orVxVy x y) s x (s.reg x ||| s.reg y)) ∧
    (EncodesInBoth (wordXY 0x8002 x y) (.andVxVy x y) ∧ WritesReg (.andVxVy x y) s x (s.reg x &&& s.reg y)) ∧
    (EncodesInBoth (wordXY 0x8003 x y) (.xorVxVy x y) ∧ WritesReg (.xorVxVy x y) s x (s.reg x ^^^ s.reg y))

/-- R166: ADD Vx, Vy, with the carry in VF. -/
def Obligations.AddSetsTheCarry : Prop :=
  ∀ (x y : Reg) (s : State), EncodesInBoth (wordXY 0x8004 x y) (.addVxVy x y) ∧
    WritesRegAndFlag (.addVxVy x y) s x (BitVec.ofNat 8 (((s.reg x).toNat + (s.reg y).toNat) % 256))
      (if (s.reg x).toNat + (s.reg y).toNat > 255 then 1 else 0)

/-- R168: SUB Vx, Vy, with not-borrow in VF. -/
def Obligations.SubSetsNotBorrow : Prop :=
  ∀ (x y : Reg) (s : State), decode .doc (wordXY 0x8006 x y) = .ok (.subVxVy x y) ∧
    decode .classic (wordXY 0x8005 x y) = .ok (.subVxVy x y) ∧
    WritesRegAndFlag (.subVxVy x y) s x
      (BitVec.ofNat 8 (if (s.reg x).toNat < (s.reg y).toNat then (s.reg x).toNat + 256 - (s.reg y).toNat
        else (s.reg x).toNat - (s.reg y).toNat))
      (if (s.reg y).toNat ≤ (s.reg x).toNat then 1 else 0)

/-- R170: SUBN Vx, Vy, which only CLASSIC has; in DOC its word is SHL. -/
def Obligations.SubnSubtractsTheOtherWay : Prop :=
  ∀ (x y : Reg) (s : State), decode .classic (wordXY 0x8007 x y) = .ok (.subnVxVy x y) ∧
    decode .doc (wordXY 0x8007 x y) = .ok (.shlVxVy x y) ∧
    (∀ w, decode .doc w ≠ .ok (.subnVxVy x y)) ∧
    WritesRegAndFlag (.subnVxVy x y) s x
      (BitVec.ofNat 8 (if (s.reg y).toNat < (s.reg x).toNat then (s.reg y).toNat + 256 - (s.reg x).toNat
        else (s.reg y).toNat - (s.reg x).toNat))
      (if (s.reg x).toNat ≤ (s.reg y).toNat then 1 else 0)

/-- R167: SHR Vx, Vy, with the bit shifted out in VF, for both values of SHIFT_SOURCE. -/
def Obligations.ShrShiftsOutBitZero : Prop :=
  ∀ (x y : Reg) (s : State), decode .doc (wordXY 0x8005 x y) = .ok (.shrVxVy x y) ∧
    decode .classic (wordXY 0x8006 x y) = .ok (.shrVxVy x y) ∧
    ∀ src, src = (if s.params.shiftSource = .y then s.reg y else s.reg x) →
      WritesRegAndFlag (.shrVxVy x y) s x (src >>> 1) (if src.toNat % 2 = 1 then 1 else 0)

/-- R169: SHL Vx, Vy, with the bit shifted out in VF, for both values of SHIFT_SOURCE. -/
def Obligations.ShlShiftsOutBitSeven : Prop :=
  ∀ (x y : Reg) (s : State), decode .doc (wordXY 0x8007 x y) = .ok (.shlVxVy x y) ∧
    decode .classic (wordXY 0x800E x y) = .ok (.shlVxVy x y) ∧
    ∀ src, src = (if s.params.shiftSource = .y then s.reg y else s.reg x) →
      WritesRegAndFlag (.shlVxVy x y) s x (src <<< 1) (if 128 ≤ src.toNat then 1 else 0)

/-- R171: RND Vx, kk. The drawn byte is the free value `Config.rngByte` (assumption log 13), of which nothing is
assumed: the statement holds for every source. -/
def Obligations.RndMasksTheDrawnByte : Prop :=
  ∀ (x : Reg) (kk : Byte) (s : State), EncodesInBoth (wordXK 0xC000 x kk) (.rndVxKk x kk) ∧
    ∃ t, exec (.rndVxKk x kk) s = .next t ∧ t.reg x = Config.rngByte s.rngDraws &&& kk ∧
      (kk = 0 → t.reg x = 0) ∧ (t.reg x).toNat ≤ kk.toNat ∧ OtherRegsKept s t x ∧
      (∀ a, t.readByte a = s.readByte a) ∧
      t = { s with
            v := t.v, rngDraws := s.rngDraws + 1, pc := t.pc, status := t.status, dtRun := t.dtRun
            stRun := t.stRun } ∧
      Advanced s t (s.pc.toNat + 2)

/-! ### Address register and memory (43_address_memory.md) -/

/-- R190, R191: LD I, nnn, and ADD I, Vx modulo 2^16 with no flag. -/
def Obligations.LdIAndAddIWriteI : Prop :=
  ∀ (nnn : Addr) (x : Reg) (s : State),
    (EncodesInBoth (wordA 0xA000 nnn) (.ldINnn nnn) ∧ ∃ t, exec (.ldINnn nnn) s = .next t ∧
      t.i = BitVec.ofNat 16 nnn.toNat ∧ OnlyI s t ∧ Advanced s t (s.pc.toNat + 2)) ∧
    (EncodesInBoth (wordXK 0xF000 x 0x1E) (.addIVx x) ∧ ∃ t, exec (.addIVx x) s = .next t ∧
      t.i = BitVec.ofNat 16 ((s.i.toNat + (s.reg x).toNat) % 65536) ∧ OnlyI s t ∧ Advanced s t (s.pc.toNat + 2))

/-- R192: LD F, Vx. -/
def Obligations.LdFPointsAtTheGlyph : Prop :=
  ∀ (x : Reg) (s : State), EncodesInBoth (wordXK 0xF000 x 0x29) (.ldFVx x) ∧
    (15 < (s.reg x).toNat → Faults (.ldFVx x) s (.invalidRegisterValue x (s.reg x))) ∧
    ((s.reg x).toNat ≤ 15 → ∃ t, exec (.ldFVx x) s = .next t ∧ t.i = BitVec.ofNat 16 ((s.reg x).toNat * 5) ∧
      OnlyI s t ∧ Advanced s t (s.pc.toNat + 2))

/-- R193: LD B, Vx. The bytes stored to are the three from I[11:0] on. -/
def Obligations.LdBStoresTheDigits : Prop :=
  ∀ (x : Reg) (s : State), EncodesInBoth (wordXK 0xF000 x 0x33) (.ldBVx x) ∧
    (0xFFD < baseOf s → Faults (.ldBVx x) s (.addressOutOfRange 0x1000)) ∧
    (baseOf s ≤ 0xFFD → ∃ t, exec (.ldBVx x) s = .next t ∧
      t.readByte (baseOf s) = BitVec.ofNat 8 ((s.reg x).toNat / 100) ∧
      t.readByte (baseOf s + 1) = BitVec.ofNat 8 ((s.reg x).toNat / 10 % 10) ∧
      t.readByte (baseOf s + 2) = BitVec.ofNat 8 ((s.reg x).toNat % 10) ∧
      BytesKeptOutside s t (baseOf s) 3 ∧ (∀ r, t.reg r = s.reg r) ∧
      t = { s with mem := t.mem, pc := t.pc, status := t.status, dtRun := t.dtRun, stRun := t.stRun } ∧
      Advanced s t (s.pc.toNat + 2))

/-- R194: LD [I], Vx. The bytes stored to are the x + 1 from I[11:0] on. -/
def Obligations.LdMemStoresTheRegisters : Prop :=
  ∀ (x : Reg) (s : State), EncodesInBoth (wordXK 0xF000 x 0x55) (.ldMemVx x) ∧
    (0xFFF < baseOf s + x.val → Faults (.ldMemVx x) s (.addressOutOfRange 0x1000)) ∧
    (baseOf s + x.val ≤ 0xFFF → ∃ t, exec (.ldMemVx x) s = .next t ∧
      (∀ k : Reg, k ≤ x → t.readByte (baseOf s + k.val) = s.reg k) ∧
      BytesKeptOutside s t (baseOf s) (x.val + 1) ∧ (∀ r, t.reg r = s.reg r) ∧
      t.i = BitVec.ofNat 16 ((s.i.toNat + x.val + 1) % 65536) ∧
      t = { s with mem := t.mem, i := t.i, pc := t.pc, status := t.status, dtRun := t.dtRun, stRun := t.stRun } ∧
      Advanced s t (s.pc.toNat + 2))

/-- R195: LD Vx, [I]. -/
def Obligations.LdRegsLoadsTheMemory : Prop :=
  ∀ (x : Reg) (s : State), EncodesInBoth (wordXK 0xF000 x 0x65) (.ldVxMem x) ∧
    (0xFFF < baseOf s + x.val → Faults (.ldVxMem x) s (.addressOutOfRange 0x1000)) ∧
    (baseOf s + x.val ≤ 0xFFF → ∃ t, exec (.ldVxMem x) s = .next t ∧
      (∀ k : Reg, k ≤ x → t.reg k = s.readByte (baseOf s + k.val)) ∧ (∀ k : Reg, x < k → t.reg k = s.reg k) ∧
      (∀ a, t.readByte a = s.readByte a) ∧ t.i = BitVec.ofNat 16 ((s.i.toNat + x.val + 1) % 65536) ∧
      t = { s with v := t.v, i := t.i, pc := t.pc, status := t.status, dtRun := t.dtRun, stRun := t.stRun } ∧
      Advanced s t (s.pc.toNat + 2))

/-- Fx55 followed by Fx65 with the same x and the same I gives the registers back, whatever they held in between
(R195's corner case). -/
def Obligations.StoreThenLoadRestoresRegisters : Prop :=
  ∀ (x : Reg) (s : State) (v : Vector Byte 16), baseOf s + x.val ≤ 0xFFF →
    ∃ t u, exec (.ldMemVx x) s = .next t ∧ exec (.ldVxMem x) { t with v := v, i := s.i } = .next u ∧
      ∀ k : Reg, k ≤ x → u.reg k = s.reg k

/-! ### Keys and timers (44_keys_timers.md) -/

/-- R210 to R212: SKP Vx and SKNP Vx. -/
def Obligations.KeySkipsReadTheBitmap : Prop :=
  ∀ (x : Reg) (s : State), EncodesInBoth (wordXK 0xE000 x 0x9E) (.skpVx x) ∧
    EncodesInBoth (wordXK 0xE000 x 0xA1) (.sknpVx x) ∧
    (15 < (s.reg x).toNat → Faults (.skpVx x) s (.invalidRegisterValue x (s.reg x)) ∧
      Faults (.sknpVx x) s (.invalidRegisterValue x (s.reg x))) ∧
    ((s.reg x).toNat ≤ 15 →
      OnlyAdvances (.skpVx x) s (if s.keys.getLsbD (s.reg x).toNat = true then 4 else 2) ∧
      OnlyAdvances (.sknpVx x) s (if s.keys.getLsbD (s.reg x).toNat = false then 4 else 2))

/-- R213: LD Vx, DT. -/
def Obligations.LdVxDtReadsTheTimer : Prop :=
  ∀ (x : Reg) (s : State), EncodesInBoth (wordXK 0xF000 x 0x07) (.ldVxDt x) ∧ WritesReg (.ldVxDt x) s x s.dt

/-- R214: LD Vx, K. It sets pending and nothing else, whatever keys are held; the CPU then has no step, and the timers
have none if the wait freezes them; a key-up, and a key-down while not Running, do not resolve the wait, and the first
key-down taken while Running stores its number and takes the deferred advance. -/
def Obligations.LdVxKWaitsForAKeyDown : Prop :=
  ∀ (x : Reg) (s : State), EncodesInBoth (wordXK 0xF000 x 0x0A) (.ldVxK x) ∧
    ∃ t, exec (.ldVxK x) s = .next t ∧ t = { s with pending := some x } ∧ (∀ a, t.readByte a = s.readByte a) ∧
      t.hasStep .cpu = false ∧
      (s.params.waitFreezesTimers = true → t.hasStep .delayTick = false ∧ t.hasStep .soundTick = false) ∧
      (∀ k, k < 16 → ∃ u, agentStep (.keyUp k) t = .next u ∧ u.pending = some x ∧ u.pc = t.pc) ∧
      (s.status ≠ .running → ∀ k, k < 16 → ∃ u, agentStep (.keyDown k) t = .next u ∧ u.pending = some x ∧
        u.pc = t.pc) ∧
      (s.status = .running → ∀ k, k < 16 → ∃ u, agentStep (.keyDown k) t = .next u ∧
        u.reg x = BitVec.ofNat 8 k ∧ OtherRegsKept t u x ∧ u.pending = none ∧ Advanced t u (s.pc.toNat + 2))

/-- R215: LD DT, Vx. A write of 0 leaves a running cycle running, and its next tick stops it without a decrement. -/
def Obligations.LdDtStartsTheDelayCycle : Prop :=
  ∀ (x : Reg) (s : State), EncodesInBoth (wordXK 0xF000 x 0x15) (.ldDtVx x) ∧
    ∃ t, exec (.ldDtVx x) s = .next t ∧ t.dt = s.reg x ∧
      t.dtPhase = (if s.reg x ≠ 0 ∧ s.dtRun = false then inTimed s 16 s.dtPhase else s.dtPhase) ∧
      Advanced { s with dtRun := s.dtRun || s.reg x != 0 } t (s.pc.toNat + 2) ∧ (∀ r, t.reg r = s.reg r) ∧
      (∀ a, t.readByte a = s.readByte a) ∧
      t = { s with
            dt := t.dt, dtPhase := t.dtPhase, dtRun := t.dtRun, pc := t.pc, status := t.status, stRun := t.stRun } ∧
      (s.reg x = 0 → DelayReady t → agentStep .delayTick t = .next { t with dtRun := false })

/-- R216: LD ST, Vx. No beep is emitted by it; after a write of 1 the next tick beeps, and after a write of 0 it stops
the cycle without a beep. -/
def Obligations.LdStStartsTheSoundCycle : Prop :=
  ∀ (x : Reg) (s : State), EncodesInBoth (wordXK 0xF000 x 0x18) (.ldStVx x) ∧
    ∃ t, exec (.ldStVx x) s = .next t ∧ t.st = s.reg x ∧
      t.stPhase = (if s.reg x ≠ 0 ∧ s.stRun = false then inTimed s 16 s.stPhase else s.stPhase) ∧
      Advanced { s with stRun := s.stRun || s.reg x != 0 } t (s.pc.toNat + 2) ∧ (∀ r, t.reg r = s.reg r) ∧
      (∀ a, t.readByte a = s.readByte a) ∧
      t = { s with
            st := t.st, stPhase := t.stPhase, stRun := t.stRun, pc := t.pc, status := t.status, dtRun := t.dtRun } ∧
      (s.reg x = 1 → SoundReady t →
        agentStep .soundTick t = .next { t with st := 0, stRun := false, trace := t.trace ++ [.beep] }) ∧
      (s.reg x = 0 → SoundReady t → agentStep .soundTick t = .next { t with stRun := false })

/-! ### Faults (60_exceptions.md) -/

/-- R231: an instruction that faults, a word that is no instruction among them, writes nothing but the fault: the record
with its pc, the log, status Faulted, and both cycles cancelled; pc stays. -/
def Obligations.FaultsArePrecise : Prop :=
  (∀ (i : Instr) (s t : State), s.status ≠ .faulted → exec i s = .next t → t.status = .faulted →
    ∃ c, TookFault s t c) ∧
  ∀ s t : State, s.status ≠ .faulted → agentStep .cpu s = .next t → t.status = .faulted → ∃ c, TookFault s t c

/-- R230: each fault of the CPU comes from its instructions under its condition, with the information that its row
records and the row's code; the pc is in the record (`TookFault`). -/
def Obligations.EachFaultHasItsInstructions : Prop :=
  ∀ (s t : State) (c : FaultCause), s.status ≠ .faulted → agentStep .cpu s = .next t → TookFault s t c →
    (c.code = 1 ∧ (∃ e, decode s.params.aluLayout (fetched s) = .error e) ∧
      c = .invalidOpcode (s.readByte s.pc.toNat) (s.readByte (s.pc.toNat + 1))) ∨
    ∃ i, decode s.params.aluLayout (fetched s) = .ok i ∧
      match c with
      | .invalidOpcode _ _ => False
      | .stackUnderflow w => c.code = 2 ∧ i = .ret ∧ s.stack = [] ∧ w = 0x00EE
      | .stackOverflow callPc => c.code = 3 ∧ (∃ nnn, i = .call nnn) ∧ 16 ≤ s.stack.length ∧ callPc = s.pc
      | .invalidRegisterValue x value =>
        c.code = 4 ∧ (i = .skpVx x ∨ i = .sknpVx x ∨ i = .ldFVx x) ∧ value = s.reg x ∧ 15 < value.toNat
      | .pcMisaligned target =>
        c.code = 5 ∧ target % 2 = 1 ∧ ∃ nnn, (i = .jp nnn ∨ i = .call nnn) ∧ target = nnn.toNat ∨
          i = .jpV0Nnn nnn ∧ target = (s.reg 0).toNat + nnn.toNat
      | .pcOutOfRange target =>
        c.code = 6 ∧ 0xFFF < target ∧ ∃ nnn, i = .jpV0Nnn nnn ∧ target = (s.reg 0).toNat + nnn.toNat
      | .addressOutOfRange address =>
        c.code = 7 ∧ address = 0x1000 ∧
          ((∃ x y n, i = .drwVxVyN x y n ∧ 0xFFF < baseOf s + n.val - 1) ∨
            (∃ x, i = .ldBVx x ∧ 0xFFF < baseOf s + 2) ∨
            ∃ x, (i = .ldMemVx x ∨ i = .ldVxMem x) ∧ 0xFFF < baseOf s + x.val)

/-- R232: when Faulted, no agent but the host has a step; key events change the bitmap only; the host's commands keep the
fault log; and the state is no good end. -/
def Obligations.FaultedOnlyTheHostMoves : Prop :=
  ∀ s : State, s.status = .faulted →
    s.hasStep .cpu = false ∧ s.hasStep .delayTick = false ∧ s.hasStep .soundTick = false ∧
    (∀ k, k < 16 → (∃ t, agentStep (.keyDown k) s = .next t ∧ t = { s with keys := t.keys }) ∧
      ∃ t, agentStep (.keyUp k) s = .next t ∧ t = { s with keys := t.keys }) ∧
    (∀ c, ∃ t, agentStep (.host c) s = .next t ∧ t.faultLog = s.faultLog) ∧
    ¬s.goodEnd ∧ s.badEnd

/-- R33: no step of the CPU, the timers or the keyboard clears a fault record, and no step at all takes a fault out of
the log. -/
def Obligations.FaultRecordIsKept : Prop :=
  ∀ (e : Event) (s t : State), Inv s → agentStep e s = .next t →
    ((∀ c, e ≠ .host c) → s.fault ≠ none → t.fault = s.fault) ∧ s.faultLog <+: t.faultLog

/-! ### Timers and the clock (60_exceptions.md) -/

/-- R255: the delay tick. -/
def Obligations.DelayTickCountsDown : Prop :=
  ∀ s : State, DelayReady s → ∃ t, agentStep .delayTick s = .next t ∧
    (s.dt = 0 → t = { s with dtRun := false }) ∧
    (s.dt = 1 → t = { s with dt := 0, dtRun := false }) ∧
    (1 < s.dt.toNat → t = { s with dt := BitVec.ofNat 8 (s.dt.toNat - 1), dtPhase := inTimed s 16 s.dtPhase })

/-- R256: the sound tick, with exactly one Beep when it takes ST to 0. -/
def Obligations.SoundTickBeepsOnce : Prop :=
  ∀ s : State, SoundReady s → ∃ t, agentStep .soundTick s = .next t ∧
    (s.st = 0 → t = { s with stRun := false }) ∧
    (s.st = 1 → t = { s with st := 0, stRun := false, trace := s.trace ++ [.beep] }) ∧
    (1 < s.st.toNat → t = { s with st := BitVec.ofNat 8 (s.st.toNat - 1), stPhase := inTimed s 16 s.stPhase })

/-- R268: in a weakly fair run of UNTIMED in which the timers stay enabled and no instruction raises DT, a running delay
timer reaches 0. -/
def Obligations.AFairRunCountsTheDelayTimerDown : Prop :=
  ∀ (events : Nat → Event) (s : State), s.params.timing = .untimed → s.dtRun = true → WeaklyFair events s →
    (∀ n, TimersOn (runStates events s n)) →
    (∀ n, (runStates events s (n + 1)).dt.toNat ≤ (runStates events s n).dt.toNat) →
    ∃ n, (runStates events s n).dt = 0

/-- R264: the base clock of TIMED counts each counter down whose agent waits for it, and has no step while the CPU or a
timer cycle has one. -/
def Obligations.ClockCountsDown : Prop :=
  ∀ s : State,
    (s.params.timing = .timed → ¬CpuReady s → ¬DelayReady s → ¬SoundReady s →
      agentStep .clock s = .next { s with
        cpuWait := if s.status = .running ∧ s.pending = none ∧ 0 < s.cpuWait then s.cpuWait - 1 else s.cpuWait
        dtPhase := if s.status = .running ∧ (s.params.waitFreezesTimers = true → s.pending = none) ∧ s.dtRun = true ∧
            0 < s.dtPhase then s.dtPhase - 1 else s.dtPhase
        stPhase := if s.status = .running ∧ (s.params.waitFreezesTimers = true → s.pending = none) ∧ s.stRun = true ∧
            0 < s.stPhase then s.stPhase - 1 else s.stPhase }) ∧
    (s.params.timing = .untimed ∨ CpuReady s ∨ DelayReady s ∨ SoundReady s → s.hasStep .clock = false)

/-- The CPU prescaler (R265): in TIMED the CPU has no step before cpuWait is 0; after a step of the CPU that neither
faults nor suspends cpuWait is 2, and 20 after Dxyn; after a key-down that resolves a wait it is 2, and after a load or a
resume 0. In UNTIMED nothing writes it. -/
def Obligations.CpuPrescalerBillsTheCycle : Prop :=
  (∀ s : State, s.params.timing = .timed → 0 < s.cpuWait → s.hasStep .cpu = false) ∧
  (∀ (s u : State) (i : Instr), CpuReady s → PcOk s → decode s.params.aluLayout (fetched s) = .ok i →
    exec i s = .next u →
    agentStep .cpu s = .next (if u.status = .faulted ∨ u.pending ≠ none then u
      else { u with cpuWait := inTimed s (if isDrw i then 20 else 2) u.cpuWait })) ∧
  ∀ s : State, s.params.timing = .timed →
    (∀ k, k < 16 → s.status = .running → s.pending ≠ none →
      ∃ t, agentStep (.keyDown k) s = .next t ∧ t.cpuWait = 2) ∧
    (∀ P : List Byte, P.length ≤ 3584 → s.status = .stopped ∨ s.status = .finished ∨ s.status = .faulted →
      ∃ t, agentStep (.host (.load P)) s = .next t ∧ t.cpuWait = 0) ∧
    (s.status = .paused → ∃ t, agentStep (.host .resume) s = .next t ∧ t.cpuWait = 0)

/-! ### The keyboard and the host (60_exceptions.md, 70_reset_and_hazards.md) -/

/-- R277: key events. -/
def Obligations.KeyEventsSetTheBitmap : Prop :=
  ∀ (s : State) (k : Nat), k < 16 →
    (∃ t, agentStep (.keyUp k) s = .next t ∧ (∀ j, j < 16 → t.keys.getLsbD j = (s.keys.getLsbD j && j != k)) ∧
      t = { s with keys := t.keys }) ∧
    (∃ t, agentStep (.keyDown k) s = .next t ∧ (∀ j, j < 16 → t.keys.getLsbD j = (s.keys.getLsbD j || j == k)) ∧
      (s.status ≠ .running ∨ s.pending = none → t = { s with keys := t.keys }) ∧
      (∀ x, s.status = .running → s.pending = some x →
        t.reg x = BitVec.ofNat 8 k ∧ OtherRegsKept s t x ∧ Advanced s t (s.pc.toNat + 2) ∧
        (∀ a, t.readByte a = s.readByte a) ∧
        t = { s with
              keys := t.keys, v := t.v, pending := none, cpuWait := inTimed s 2 s.cpuWait, pc := t.pc
              status := t.status, dtRun := t.dtRun, stRun := t.stRun }))

/-- R301, R35: the reset that a legal load performs, and the memory image after it. Everything not named is kept: keys,
fb, the output trace and the fault log among it. -/
def Obligations.LoadResetsTheMachine : Prop :=
  ∀ (s : State) (P : List Byte), s.status = .stopped ∨ s.status = .finished ∨ s.status = .faulted →
    P.length ≤ 3584 →
    ∃ t, agentStep (.host (.load P)) s = .next t ∧ (∀ r, t.reg r = 0) ∧
      (∀ a, a < 4096 → t.readByte a =
        if h : a < 80 then s.params.font[a]
        else if 0x200 ≤ a ∧ a < 0x200 + P.length then P.getD (a - 0x200) 0
        else 0) ∧
      t = { s with
            v := t.v, i := 0, pc := 0x200, stack := [], dt := 0, st := 0, dtRun := false, stRun := false
            cpuWait := inTimed s 0 s.cpuWait, dtPhase := inTimed s 0 s.dtPhase, stPhase := inTimed s 0 s.stPhase
            pending := none, fault := none, mem := t.mem, status := .running }

/-- Pause, resume and stop, each where it is legal and where it is not (R281 to R283). That stop keeps the fault record,
DT, ST and the call stack, which R283 does not name, is the model's choice (assumption log 18, DEDUCED). -/
def Obligations.PauseResumeStop : Prop :=
  ∀ s : State,
    (s.status = .running → agentStep (.host .pause) s = .next { s with status := .paused }) ∧
    (s.status ≠ .running → ∃ r, agentStep (.host .pause) s = .next { s with hostReplies := s.hostReplies ++ [r] }) ∧
    (s.status = .paused →
      agentStep (.host .resume) s = .next { s with status := .running, cpuWait := inTimed s 0 s.cpuWait }) ∧
    (s.status ≠ .paused → ∃ r, agentStep (.host .resume) s = .next { s with hostReplies := s.hostReplies ++ [r] }) ∧
    (s.status = .stopped → agentStep (.host .stop) s = .next s) ∧
    (s.status ≠ .stopped → agentStep (.host .stop) s = .next { s with
      status := .stopped, pending := none, dtRun := false, stRun := false
      cpuWait := inTimed s 0 s.cpuWait, dtPhase := inTimed s 0 s.dtPhase, stPhase := inTimed s 0 s.stPhase })

/-- An illegal command and a ContractViolation (a program that does not fit or is malformed, a key number that is not one
of 0 to 15) change nothing of the core, and the host is told (R284, R275, R302). That a program of more than 3584 bytes is
a ContractViolation also when Running or Paused, where a load is illegal too, is the model's reading of the row `any` of
the host commands in 95_test_vectors.md (assumption log 20, DEDUCED). That a malformed program is a ContractViolation also
when Running or Paused is the model's choice: the spec does not order it against the IllegalTransition there (assumption
log 20, DESIGN CHOICE). So are the events and the rejections of malformed input, which leave the malformed value out
(assumption log 21, DESIGN CHOICE), and the list of what the host is told (assumption log 19, DESIGN CHOICE). -/
def Obligations.IllegalCommandsAreRejected : Prop :=
  ∀ s : State,
    (∀ P : List Byte, P.length ≤ 3584 → s.status = .running ∨ s.status = .paused →
      agentStep (.host (.load P)) s =
        .next { s with hostReplies := s.hostReplies ++ [.illegalTransition .load s.status] }) ∧
    (s.status ≠ .running →
      agentStep (.host .pause) s =
        .next { s with hostReplies := s.hostReplies ++ [.illegalTransition .pause s.status] }) ∧
    (s.status ≠ .paused →
      agentStep (.host .resume) s =
        .next { s with hostReplies := s.hostReplies ++ [.illegalTransition .resume s.status] }) ∧
    (∀ P : List Byte, 3584 < P.length →
      agentStep (.host (.load P)) s =
        .next { s with hostReplies := s.hostReplies ++ [.programTooLong P.length] }) ∧
    agentStep (.host .loadMalformed) s = .next { s with hostReplies := s.hostReplies ++ [.malformedProgram] } ∧
    (∀ k, 16 ≤ k →
      agentStep (.keyDown k) s = .next { s with hostReplies := s.hostReplies ++ [.malformedKey k] } ∧
      agentStep (.keyUp k) s = .next { s with hostReplies := s.hostReplies ++ [.malformedKey k] }) ∧
    agentStep .keyDownMalformed s = .next { s with hostReplies := s.hostReplies ++ [.malformedKeyInput] } ∧
    agentStep .keyUpMalformed s = .next { s with hostReplies := s.hostReplies ++ [.malformedKeyInput] }

/-- R285: the status and the pending key after each event, the whole table of the run-state machine; WaitingForKey is
Running with a pending key. -/
def Obligations.RunStateMachine : Prop :=
  ∀ (e : Event) (s t : State), agentStep e s = .next t →
    match e with
    | .host (.load P) =>
      if P.length ≤ 3584 ∧ s.status ≠ .running ∧ s.status ≠ .paused then t.status = .running ∧ t.pending = none
      else t.status = s.status ∧ t.pending = s.pending
    | .host .loadMalformed => t.status = s.status ∧ t.pending = s.pending
    | .host .pause => t.status = (if s.status = .running then .paused else s.status) ∧ t.pending = s.pending
    | .host .resume => t.status = (if s.status = .paused then .running else s.status) ∧ t.pending = s.pending
    | .host .stop => t.status = .stopped ∧ (s.status ≠ .stopped → t.pending = none)
    | .keyDown k =>
      if k < 16 ∧ s.status = .running ∧ s.pending ≠ none then
        t.status = (if 0x1000 ≤ s.pc.toNat + 2 then .finished else .running) ∧ t.pending = none
      else t.status = s.status ∧ t.pending = s.pending
    | .keyUp _ | .keyDownMalformed | .keyUpMalformed | .delayTick | .soundTick | .clock =>
      t.status = s.status ∧ t.pending = s.pending
    | .cpu =>
      s.hasStep .cpu = true → Inv s →
        (t.status = .running ∧ t.pc.toNat ≤ 0xFFF ∨ t.status = .finished ∧ 0x1000 ≤ t.pc.toNat ∨
          t.status = .faulted ∧ t.pc = s.pc) ∧
        ∀ x, t.pending = some x ↔ decode s.params.aluLayout (fetched s) = .ok (.ldVxK x)

/-! ### The whole machine -/

/-- The invariant holds after reset. -/
def Obligations.InvariantHoldsAtReset : Prop := Inv State.reset

/-- Every step keeps the invariant: pc even and inside memory while Running or Paused, the stack within its depth and
its entries fetchable, a wait only at its Fx0A, the cycles cancelled outside Running and Paused, the fault record,
the canonical memory, and the counters within their reload values (R38, R24, R28, R29, R33). -/
def Obligations.StepKeepsTheInvariant : Prop :=
  ∀ s t : State, Inv s → step s = .next t → Inv t

/-- No instruction stops the machine: each answers a next state in every state, the fault that it takes being one of
them (R111, R231). And in a state of the invariant the fetch never fails, so that a step stops only because no agent has
a step (R38, R75). -/
def Obligations.InstructionsNeverStopTheMachine : Prop :=
  (∀ (i : Instr) (s : State), ∃ t, exec i s = .next t) ∧
  ∀ s : State, Inv s → ∀ pc, step s ≠ .fault (.fetchOutsideMemory pc)

/-- R70, R66: only LD B and LD [I] of the CPU's instructions, and a load, change a byte of memory. -/
def Obligations.OnlyStoresAndLoadsChangeMemory : Prop :=
  ∀ (e : Event) (s t : State), agentStep e s = .next t → (∃ a, t.readByte a ≠ s.readByte a) →
    (∃ P, e = .host (.load P)) ∨
    (e = .cpu ∧ ∃ x, decode s.params.aluLayout (fetched s) = .ok (.ldBVx x) ∨
      decode s.params.aluLayout (fetched s) = .ok (.ldMemVx x))

/-- DT changes only by Fx15, its own tick and a load, ST only by Fx18, its own tick and a load, and DT rises only by Fx15
(R258, R312). R258 names the stop command too among those that may write a timer. That stop keeps DT and ST, so that it
is left out here, is the model's choice (assumption log 18, DEDUCED). -/
def Obligations.TimersHaveFewWriters : Prop :=
  ∀ (e : Event) (s t : State), agentStep e s = .next t →
    (t.dt ≠ s.dt → (∃ P, e = .host (.load P)) ∨ e = .delayTick ∨
      (e = .cpu ∧ ∃ x, decode s.params.aluLayout (fetched s) = .ok (.ldDtVx x))) ∧
    (t.st ≠ s.st → (∃ P, e = .host (.load P)) ∨ e = .soundTick ∨
      (e = .cpu ∧ ∃ x, decode s.params.aluLayout (fetched s) = .ok (.ldStVx x))) ∧
    (s.dt.toNat < t.dt.toNat → e = .cpu ∧ ∃ x, decode s.params.aluLayout (fetched s) = .ok (.ldDtVx x))

/-- The stack changes only by CALL, RET and a load; the key bitmap only by key events; the frame buffer only by CLS and
DRW (R25, R30, R36). R25 speaks of instructions only and R283 does not name the stack. That stop keeps it is the model's
choice (assumption log 18, DEDUCED). -/
def Obligations.StackKeysAndDisplayWriters : Prop :=
  ∀ (e : Event) (s t : State), agentStep e s = .next t →
    (t.stack ≠ s.stack → (∃ P, e = .host (.load P)) ∨
      (e = .cpu ∧ (decode s.params.aluLayout (fetched s) = .ok .ret ∨
        ∃ nnn, decode s.params.aluLayout (fetched s) = .ok (.call nnn)))) ∧
    (t.keys ≠ s.keys → ∃ k, k < 16 ∧ (e = .keyDown k ∨ e = .keyUp k)) ∧
    (t.fb ≠ s.fb → e = .cpu ∧ (decode s.params.aluLayout (fetched s) = .ok .cls ∨
      ∃ x y n, decode s.params.aluLayout (fetched s) = .ok (.drwVxVyN x y n)))

/-- The parameters are fixed (R5, assumption log 1), and the output trace only grows (R37). -/
def Obligations.ParametersFixedTraceGrows : Prop :=
  ∀ s t : State, step s = .next t → t.params = s.params ∧ s.trace <+: t.trace

/-- The machine after reset is Launch of the empty program with the default parameters, an empty key bitmap and every
pixel unlit (R303), and it runs from 0x200 (R304). The model's choices here, each DESIGN CHOICE: that reset is the launch
of the EMPTY program (assumption log 2), the key bitmap (assumption log 3), and the unlit display, which the spec gives as
a default premise and not as a fact (assumption log 4). -/
def Obligations.ResetIsTheLaunchState : Prop :=
  State.reset = State.launch defaultParams [] 0 (Vector.replicate 32 (Vector.replicate 64 false)) ∧
    State.reset.status = .running ∧ State.reset.pc = 0x200 ∧ (∀ r, State.reset.reg r = 0) ∧ State.reset.i = 0 ∧
    State.reset.stack = [] ∧ State.reset.dt = 0 ∧ State.reset.st = 0 ∧ State.reset.dtRun = false ∧
    State.reset.stRun = false ∧ State.reset.pending = none ∧ State.reset.fault = none ∧ State.reset.trace = [] ∧
    (∀ x y, State.reset.pixel x y = false) ∧ State.reset.keys = 0

/-- The runs of `step` are weakly fair, from every state of the invariant (R268): the CPU and each timer cycle either takes
a step again and again or is again and again without one. Hence a running timer of UNTIMED whose timers stay enabled and
that no instruction raises reaches 0; and as neither the keyboard nor the host need act, a machine that waits in Fx0A with
an empty schedule waits for ever. That the agents take turns is the model's choice (assumption log 23, DESIGN CHOICE). -/
def Obligations.RunsOfStepAreFair : Prop :=
  ∀ s : State, Inv s →
    (∀ e ∈ [Event.cpu, .delayTick, .soundTick], ∀ n, ∃ m, n ≤ m ∧
      (TakesStep e (stepStates s m) ∨ (stepStates s m).hasStep e = false)) ∧
    (s.params.timing = .untimed → (∀ n, TimersOn (stepStates s n)) →
      (s.dtRun = true → (∀ n, (stepStates s (n + 1)).dt.toNat ≤ (stepStates s n).dt.toNat) →
        ∃ n, (stepStates s n).dt = 0) ∧
      (s.stRun = true → (∀ n, (stepStates s (n + 1)).st.toNat ≤ (stepStates s n).st.toNat) →
        ∃ n, (stepStates s n).st = 0)) ∧
    (s.schedule = [] → ∀ x, s.pending = some x → ∀ n, (stepStates s n).pending = some x)
end

