-- ==== Sys2Proof/Laws/Decode.lean ====
section
/-!
SUPPORT. What the decoder's fields read from the encoder's words: one lemma for each field of each format. A proof that
decoding undoes encoding cites these and never unfolds a field or a format.
-/

namespace Sys2Proof

/-- A field of a word as a quotient and a remainder (`v[hi:lo]`, R6). -/
theorem toNat_field (w : Word) (lo len : Nat) : (w.extractLsb' lo len).toNat = w.toNat / 2 ^ lo % 2 ^ len := by
  simp [BitVec.extractLsb', Nat.shiftRight_eq_div_pow]

theorem category_eq (w : Word) : category w = w.toNat / 4096 := by
  have := w.isLt
  rw [category, toNat_field]; omega

theorem regX_val (w : Word) : (regX w).val = w.toNat / 256 % 16 := toNat_field w 8 4

theorem regY_val (w : Word) : (regY w).val = w.toNat / 16 % 16 := toNat_field w 4 4

theorem subop4_val (w : Word) : (subop4 w).val = w.toNat % 16 := by
  simp [subop4]

theorem immediate8_toNat (w : Word) : (immediate8 w).toNat = w.toNat % 256 := by
  simp [immediate8]

theorem address12_toNat (w : Word) : (address12 w).toNat = w.toNat % 4096 := by
  simp [address12]

theorem encodeA_toNat {f : Nat} (hf : f < 16) (nnn : Addr) : (encodeA f nnn).toNat = f * 4096 + nnn.toNat := by
  have := nnn.isLt
  simp only [encodeA, BitVec.toNat_ofNat]; omega

theorem encodeXK_toNat {f : Nat} (hf : f < 16) (x : Reg) (kk : Byte) :
    (encodeXK f x kk).toNat = f * 4096 + x.val * 256 + kk.toNat := by
  have := x.isLt
  have := kk.isLt
  simp only [encodeXK, BitVec.toNat_ofNat]; omega

theorem encodeXYN_toNat {f : Nat} (hf : f < 16) (x y n : Fin 16) :
    (encodeXYN f x y n).toNat = f * 4096 + x.val * 256 + y.val * 16 + n.val := by
  have := x.isLt
  have := y.isLt
  have := n.isLt
  simp only [encodeXYN, BitVec.toNat_ofNat]; omega

/-! ### Fields of a word of format A -/

theorem category_encodeA {f : Nat} (hf : f < 16) (nnn : Addr) : category (encodeA f nnn) = f := by
  have := nnn.isLt
  rw [category_eq, encodeA_toNat hf]; omega

theorem address12_encodeA {f : Nat} (hf : f < 16) (nnn : Addr) : address12 (encodeA f nnn) = nnn := by
  have := nnn.isLt
  apply BitVec.eq_of_toNat_eq
  rw [address12_toNat, encodeA_toNat hf]; omega

/-! ### Fields of a word of format XK -/

theorem category_encodeXK {f : Nat} (hf : f < 16) (x : Reg) (kk : Byte) : category (encodeXK f x kk) = f := by
  have := x.isLt
  have := kk.isLt
  rw [category_eq, encodeXK_toNat hf]; omega

theorem regX_encodeXK {f : Nat} (hf : f < 16) (x : Reg) (kk : Byte) : regX (encodeXK f x kk) = x := by
  have := x.isLt
  have := kk.isLt
  apply Fin.ext
  rw [regX_val, encodeXK_toNat hf]; omega

theorem immediate8_encodeXK {f : Nat} (hf : f < 16) (x : Reg) (kk : Byte) : immediate8 (encodeXK f x kk) = kk := by
  have := kk.isLt
  apply BitVec.eq_of_toNat_eq
  rw [immediate8_toNat, encodeXK_toNat hf]; omega

/-! ### Fields of a word of format XYN, and of XY -/

theorem category_encodeXYN {f : Nat} (hf : f < 16) (x y n : Fin 16) : category (encodeXYN f x y n) = f := by
  have := x.isLt
  have := y.isLt
  have := n.isLt
  rw [category_eq, encodeXYN_toNat hf]; omega

theorem regX_encodeXYN {f : Nat} (hf : f < 16) (x y n : Fin 16) : regX (encodeXYN f x y n) = x := by
  have := x.isLt
  have := y.isLt
  have := n.isLt
  apply Fin.ext
  rw [regX_val, encodeXYN_toNat hf]; omega

theorem regY_encodeXYN {f : Nat} (hf : f < 16) (x y n : Fin 16) : regY (encodeXYN f x y n) = y := by
  have := y.isLt
  have := n.isLt
  apply Fin.ext
  rw [regY_val, encodeXYN_toNat hf]; omega

theorem subop4_encodeXYN {f : Nat} (hf : f < 16) (x y n : Fin 16) : subop4 (encodeXYN f x y n) = n := by
  have := n.isLt
  apply Fin.ext
  rw [subop4_val, encodeXYN_toNat hf]; omega

/-! ### A word from its own fields -/

theorem encodeA_fields {w : Word} {f : Nat} (h : category w = f) : encodeA f (address12 w) = w := by
  have := w.isLt
  rw [category_eq] at h
  apply BitVec.eq_of_toNat_eq
  rw [encodeA_toNat (by omega), address12_toNat]; omega

theorem encodeXK_fields {w : Word} {f : Nat} (h : category w = f) : encodeXK f (regX w) (immediate8 w) = w := by
  have := w.isLt
  rw [category_eq] at h
  apply BitVec.eq_of_toNat_eq
  rw [encodeXK_toNat (by omega), regX_val, immediate8_toNat]; omega

theorem encodeXYN_fields {w : Word} {f : Nat} (h : category w = f) :
    encodeXYN f (regX w) (regY w) (subop4 w) = w := by
  have := w.isLt
  rw [category_eq] at h
  apply BitVec.eq_of_toNat_eq
  rw [encodeXYN_toNat (by omega), regX_val, regY_val, subop4_val]; omega

theorem encodeXK_fields_of {w : Word} {f : Nat} {kk : Byte} (h : category w = f)
    (hk : (immediate8 w).toNat = kk.toNat) : encodeXK f (regX w) kk = w := by
  rw [← BitVec.eq_of_toNat_eq hk, encodeXK_fields h]

theorem encodeXYN_fields_of {w : Word} {f : Nat} {n : Fin 16} (h : category w = f)
    (hn : (subop4 w).val = n.val) : encodeXYN f (regX w) (regY w) n = w := by
  rw [← Fin.ext hn, encodeXYN_fields h]

theorem word_of_zero_family {w : Word} {nnn : Addr} (h : category w = 0) (hn : address12 w = nnn) :
    w = BitVec.ofNat 16 nnn.toNat := by
  rw [← encodeA_fields h, hn]
  simp [encodeA]

/-- Family 8: the word of the instruction that it decodes to is the word itself, in each layout. -/
theorem encode_of_decodeAlu {layout : AluLayout} {w : Word} {i : Instr} (h8 : category w = 0x8)
    (h : decodeAlu layout w = .ok i) : encode layout i = w := by
  unfold decodeAlu at h
  split at h <;> first
    | (cases h; exact encodeXYN_fields_of h8 (by assumption))
    | exact absurd h (by simp [invalidWord])

/-- Family F: the word of the instruction that it decodes to is the word itself. -/
theorem encode_of_decodeMisc {layout : AluLayout} {w : Word} {i : Instr} (hF : category w = 0xF)
    (h : decodeMisc w = .ok i) : encode layout i = w := by
  unfold decodeMisc at h
  split at h <;> first
    | (cases h; exact encodeXK_fields_of hF (by assumption))
    | exact absurd h (by simp [invalidWord])

/-- Every word has one meaning: the encoder gives the word back from the instruction that it decodes to (R94). -/
theorem encode_of_decode {layout : AluLayout} {w : Word} {i : Instr} (h : decode layout w = .ok i) :
    encode layout i = w := by
  unfold decode at h
  split at h
  case h_1 hc =>
    split at h
    · next ha => cases h; exact (word_of_zero_family hc ha).symm
    · split at h
      · next ha => cases h; exact (word_of_zero_family hc ha).symm
      · exact absurd h (by simp [invalidWord])
  case h_9 hc => exact encode_of_decodeAlu hc h
  case h_15 hc =>
    split at h
    · next hk => cases h; exact encodeXK_fields_of hc (by rw [hk])
    · split at h
      · next hk => cases h; exact encodeXK_fields_of hc (by rw [hk])
      · exact absurd h (by simp [invalidWord])
  case h_16 hc => exact encode_of_decodeMisc hc h
  case h_17 => exact absurd h (by simp [invalidWord])
  case h_6 hc =>
    split at h
    · next hn => cases h; exact encodeXYN_fields_of hc (by rw [hn])
    · exact absurd h (by simp [invalidWord])
  case h_10 hc =>
    split at h
    · next hn => cases h; exact encodeXYN_fields_of hc (by rw [hn])
    · exact absurd h (by simp [invalidWord])
  case h_2 hc => cases h; exact encodeA_fields hc
  case h_3 hc => cases h; exact encodeA_fields hc
  case h_11 hc => cases h; exact encodeA_fields hc
  case h_12 hc => cases h; exact encodeA_fields hc
  case h_4 hc => cases h; exact encodeXK_fields hc
  case h_5 hc => cases h; exact encodeXK_fields hc
  case h_7 hc => cases h; exact encodeXK_fields hc
  case h_8 hc => cases h; exact encodeXK_fields hc
  case h_13 hc => cases h; exact encodeXK_fields hc
  case h_14 hc => cases h; exact encodeXYN_fields hc

/-! ### Bytes of a word -/

theorem wordOfBytes_hiByte_loByte (w : Word) : wordOfBytes (hiByte w) (loByte w) = w := by
  apply BitVec.eq_of_getLsbD_eq
  intro i hi
  simp only [wordOfBytes, hiByte, loByte, BitVec.getLsbD_append, BitVec.getLsbD_extractLsb']
  by_cases h : i < 8
  · simp [h]
  · have h' : i - 8 < 8 := by omega
    have h'' : 8 + (i - 8) = i := by omega
    simp [h, h', h'']

theorem hiByte_wordOfBytes (hi lo : Byte) : hiByte (wordOfBytes hi lo) = hi := by
  apply BitVec.eq_of_getLsbD_eq
  intro i h
  simp only [wordOfBytes, hiByte, BitVec.getLsbD_append, BitVec.getLsbD_extractLsb']
  simp [h]

theorem loByte_wordOfBytes (hi lo : Byte) : loByte (wordOfBytes hi lo) = lo := by
  apply BitVec.eq_of_getLsbD_eq
  intro i h
  simp only [wordOfBytes, loByte, BitVec.getLsbD_append, BitVec.getLsbD_extractLsb']
  simp [h]

/-- The decoder on a word's two bytes is the decoder on the word (R62, R75). -/
theorem decodeBytes_word (layout : AluLayout) (w : Word) (rest : List Byte) :
    decodeBytes layout (hiByte w :: loByte w :: rest) = (decode layout w).map fun i => (i, rest) := by
  simp [decodeBytes, wordOfBytes_hiByte_loByte]

end Sys2Proof
end

