-- ==== Sys2Proof/Laws/State.lean ====
section
/-!
SUPPORT. What each named update of the state does to each field: one lemma for each field of each update. The updates
with a condition inside (the advance, the timers, the prescaler) have one lemma for each field they never touch.
-/

namespace Sys2Proof.Machine

/-! ### `State.setReg` -/

@[simp] theorem State.setReg_params (s : State) (r : Reg) (b : Byte) : (s.setReg r b).params = s.params := rfl
@[simp] theorem State.setReg_v (s : State) (r : Reg) (b : Byte) : (s.setReg r b).v = s.v.set r.val b r.isLt := rfl
@[simp] theorem State.setReg_i (s : State) (r : Reg) (b : Byte) : (s.setReg r b).i = s.i := rfl
@[simp] theorem State.setReg_pc (s : State) (r : Reg) (b : Byte) : (s.setReg r b).pc = s.pc := rfl
@[simp] theorem State.setReg_stack (s : State) (r : Reg) (b : Byte) : (s.setReg r b).stack = s.stack := rfl
@[simp] theorem State.setReg_dt (s : State) (r : Reg) (b : Byte) : (s.setReg r b).dt = s.dt := rfl
@[simp] theorem State.setReg_st (s : State) (r : Reg) (b : Byte) : (s.setReg r b).st = s.st := rfl
@[simp] theorem State.setReg_dtRun (s : State) (r : Reg) (b : Byte) : (s.setReg r b).dtRun = s.dtRun := rfl
@[simp] theorem State.setReg_stRun (s : State) (r : Reg) (b : Byte) : (s.setReg r b).stRun = s.stRun := rfl
@[simp] theorem State.setReg_cpuWait (s : State) (r : Reg) (b : Byte) : (s.setReg r b).cpuWait = s.cpuWait := rfl
@[simp] theorem State.setReg_dtPhase (s : State) (r : Reg) (b : Byte) : (s.setReg r b).dtPhase = s.dtPhase := rfl
@[simp] theorem State.setReg_stPhase (s : State) (r : Reg) (b : Byte) : (s.setReg r b).stPhase = s.stPhase := rfl
@[simp] theorem State.setReg_keys (s : State) (r : Reg) (b : Byte) : (s.setReg r b).keys = s.keys := rfl
@[simp] theorem State.setReg_pending (s : State) (r : Reg) (b : Byte) : (s.setReg r b).pending = s.pending := rfl
@[simp] theorem State.setReg_status (s : State) (r : Reg) (b : Byte) : (s.setReg r b).status = s.status := rfl
@[simp] theorem State.setReg_fault (s : State) (r : Reg) (b : Byte) : (s.setReg r b).fault = s.fault := rfl
@[simp] theorem State.setReg_faultLog (s : State) (r : Reg) (b : Byte) : (s.setReg r b).faultLog = s.faultLog := rfl
@[simp] theorem State.setReg_mem (s : State) (r : Reg) (b : Byte) : (s.setReg r b).mem = s.mem := rfl
@[simp] theorem State.setReg_fb (s : State) (r : Reg) (b : Byte) : (s.setReg r b).fb = s.fb := rfl
@[simp] theorem State.setReg_trace (s : State) (r : Reg) (b : Byte) : (s.setReg r b).trace = s.trace := rfl
@[simp] theorem State.setReg_hostReplies (s : State) (r : Reg) (b : Byte) : (s.setReg r b).hostReplies = s.hostReplies := rfl
@[simp] theorem State.setReg_rngDraws (s : State) (r : Reg) (b : Byte) : (s.setReg r b).rngDraws = s.rngDraws := rfl
@[simp] theorem State.setReg_schedule (s : State) (r : Reg) (b : Byte) : (s.setReg r b).schedule = s.schedule := rfl
@[simp] theorem State.setReg_turn (s : State) (r : Reg) (b : Byte) : (s.setReg r b).turn = s.turn := rfl

/-! ### `State.setFlag` -/

@[simp] theorem State.setFlag_params (s : State) (b : Byte) : (s.setFlag b).params = s.params := rfl
@[simp] theorem State.setFlag_v (s : State) (b : Byte) : (s.setFlag b).v = s.v.set 15 b := rfl
@[simp] theorem State.setFlag_i (s : State) (b : Byte) : (s.setFlag b).i = s.i := rfl
@[simp] theorem State.setFlag_pc (s : State) (b : Byte) : (s.setFlag b).pc = s.pc := rfl
@[simp] theorem State.setFlag_stack (s : State) (b : Byte) : (s.setFlag b).stack = s.stack := rfl
@[simp] theorem State.setFlag_dt (s : State) (b : Byte) : (s.setFlag b).dt = s.dt := rfl
@[simp] theorem State.setFlag_st (s : State) (b : Byte) : (s.setFlag b).st = s.st := rfl
@[simp] theorem State.setFlag_dtRun (s : State) (b : Byte) : (s.setFlag b).dtRun = s.dtRun := rfl
@[simp] theorem State.setFlag_stRun (s : State) (b : Byte) : (s.setFlag b).stRun = s.stRun := rfl
@[simp] theorem State.setFlag_cpuWait (s : State) (b : Byte) : (s.setFlag b).cpuWait = s.cpuWait := rfl
@[simp] theorem State.setFlag_dtPhase (s : State) (b : Byte) : (s.setFlag b).dtPhase = s.dtPhase := rfl
@[simp] theorem State.setFlag_stPhase (s : State) (b : Byte) : (s.setFlag b).stPhase = s.stPhase := rfl
@[simp] theorem State.setFlag_keys (s : State) (b : Byte) : (s.setFlag b).keys = s.keys := rfl
@[simp] theorem State.setFlag_pending (s : State) (b : Byte) : (s.setFlag b).pending = s.pending := rfl
@[simp] theorem State.setFlag_status (s : State) (b : Byte) : (s.setFlag b).status = s.status := rfl
@[simp] theorem State.setFlag_fault (s : State) (b : Byte) : (s.setFlag b).fault = s.fault := rfl
@[simp] theorem State.setFlag_faultLog (s : State) (b : Byte) : (s.setFlag b).faultLog = s.faultLog := rfl
@[simp] theorem State.setFlag_mem (s : State) (b : Byte) : (s.setFlag b).mem = s.mem := rfl
@[simp] theorem State.setFlag_fb (s : State) (b : Byte) : (s.setFlag b).fb = s.fb := rfl
@[simp] theorem State.setFlag_trace (s : State) (b : Byte) : (s.setFlag b).trace = s.trace := rfl
@[simp] theorem State.setFlag_hostReplies (s : State) (b : Byte) : (s.setFlag b).hostReplies = s.hostReplies := rfl
@[simp] theorem State.setFlag_rngDraws (s : State) (b : Byte) : (s.setFlag b).rngDraws = s.rngDraws := rfl
@[simp] theorem State.setFlag_schedule (s : State) (b : Byte) : (s.setFlag b).schedule = s.schedule := rfl
@[simp] theorem State.setFlag_turn (s : State) (b : Byte) : (s.setFlag b).turn = s.turn := rfl

/-! ### `State.setI` -/

@[simp] theorem State.setI_params (s : State) (n : Nat) : (s.setI n).params = s.params := rfl
@[simp] theorem State.setI_v (s : State) (n : Nat) : (s.setI n).v = s.v := rfl
@[simp] theorem State.setI_i (s : State) (n : Nat) : (s.setI n).i = BitVec.ofNat 16 n := rfl
@[simp] theorem State.setI_pc (s : State) (n : Nat) : (s.setI n).pc = s.pc := rfl
@[simp] theorem State.setI_stack (s : State) (n : Nat) : (s.setI n).stack = s.stack := rfl
@[simp] theorem State.setI_dt (s : State) (n : Nat) : (s.setI n).dt = s.dt := rfl
@[simp] theorem State.setI_st (s : State) (n : Nat) : (s.setI n).st = s.st := rfl
@[simp] theorem State.setI_dtRun (s : State) (n : Nat) : (s.setI n).dtRun = s.dtRun := rfl
@[simp] theorem State.setI_stRun (s : State) (n : Nat) : (s.setI n).stRun = s.stRun := rfl
@[simp] theorem State.setI_cpuWait (s : State) (n : Nat) : (s.setI n).cpuWait = s.cpuWait := rfl
@[simp] theorem State.setI_dtPhase (s : State) (n : Nat) : (s.setI n).dtPhase = s.dtPhase := rfl
@[simp] theorem State.setI_stPhase (s : State) (n : Nat) : (s.setI n).stPhase = s.stPhase := rfl
@[simp] theorem State.setI_keys (s : State) (n : Nat) : (s.setI n).keys = s.keys := rfl
@[simp] theorem State.setI_pending (s : State) (n : Nat) : (s.setI n).pending = s.pending := rfl
@[simp] theorem State.setI_status (s : State) (n : Nat) : (s.setI n).status = s.status := rfl
@[simp] theorem State.setI_fault (s : State) (n : Nat) : (s.setI n).fault = s.fault := rfl
@[simp] theorem State.setI_faultLog (s : State) (n : Nat) : (s.setI n).faultLog = s.faultLog := rfl
@[simp] theorem State.setI_mem (s : State) (n : Nat) : (s.setI n).mem = s.mem := rfl
@[simp] theorem State.setI_fb (s : State) (n : Nat) : (s.setI n).fb = s.fb := rfl
@[simp] theorem State.setI_trace (s : State) (n : Nat) : (s.setI n).trace = s.trace := rfl
@[simp] theorem State.setI_hostReplies (s : State) (n : Nat) : (s.setI n).hostReplies = s.hostReplies := rfl
@[simp] theorem State.setI_rngDraws (s : State) (n : Nat) : (s.setI n).rngDraws = s.rngDraws := rfl
@[simp] theorem State.setI_schedule (s : State) (n : Nat) : (s.setI n).schedule = s.schedule := rfl
@[simp] theorem State.setI_turn (s : State) (n : Nat) : (s.setI n).turn = s.turn := rfl

/-! ### `State.jump` -/

@[simp] theorem State.jump_params (s : State) (n : Nat) : (s.jump n).params = s.params := rfl
@[simp] theorem State.jump_v (s : State) (n : Nat) : (s.jump n).v = s.v := rfl
@[simp] theorem State.jump_i (s : State) (n : Nat) : (s.jump n).i = s.i := rfl
@[simp] theorem State.jump_pc (s : State) (n : Nat) : (s.jump n).pc = BitVec.ofNat 16 n := rfl
@[simp] theorem State.jump_stack (s : State) (n : Nat) : (s.jump n).stack = s.stack := rfl
@[simp] theorem State.jump_dt (s : State) (n : Nat) : (s.jump n).dt = s.dt := rfl
@[simp] theorem State.jump_st (s : State) (n : Nat) : (s.jump n).st = s.st := rfl
@[simp] theorem State.jump_dtRun (s : State) (n : Nat) : (s.jump n).dtRun = s.dtRun := rfl
@[simp] theorem State.jump_stRun (s : State) (n : Nat) : (s.jump n).stRun = s.stRun := rfl
@[simp] theorem State.jump_cpuWait (s : State) (n : Nat) : (s.jump n).cpuWait = s.cpuWait := rfl
@[simp] theorem State.jump_dtPhase (s : State) (n : Nat) : (s.jump n).dtPhase = s.dtPhase := rfl
@[simp] theorem State.jump_stPhase (s : State) (n : Nat) : (s.jump n).stPhase = s.stPhase := rfl
@[simp] theorem State.jump_keys (s : State) (n : Nat) : (s.jump n).keys = s.keys := rfl
@[simp] theorem State.jump_pending (s : State) (n : Nat) : (s.jump n).pending = s.pending := rfl
@[simp] theorem State.jump_status (s : State) (n : Nat) : (s.jump n).status = s.status := rfl
@[simp] theorem State.jump_fault (s : State) (n : Nat) : (s.jump n).fault = s.fault := rfl
@[simp] theorem State.jump_faultLog (s : State) (n : Nat) : (s.jump n).faultLog = s.faultLog := rfl
@[simp] theorem State.jump_mem (s : State) (n : Nat) : (s.jump n).mem = s.mem := rfl
@[simp] theorem State.jump_fb (s : State) (n : Nat) : (s.jump n).fb = s.fb := rfl
@[simp] theorem State.jump_trace (s : State) (n : Nat) : (s.jump n).trace = s.trace := rfl
@[simp] theorem State.jump_hostReplies (s : State) (n : Nat) : (s.jump n).hostReplies = s.hostReplies := rfl
@[simp] theorem State.jump_rngDraws (s : State) (n : Nat) : (s.jump n).rngDraws = s.rngDraws := rfl
@[simp] theorem State.jump_schedule (s : State) (n : Nat) : (s.jump n).schedule = s.schedule := rfl
@[simp] theorem State.jump_turn (s : State) (n : Nat) : (s.jump n).turn = s.turn := rfl

/-! ### `State.emit` -/

@[simp] theorem State.emit_params (s : State) (e : DeviceEvent) : (s.emit e).params = s.params := rfl
@[simp] theorem State.emit_v (s : State) (e : DeviceEvent) : (s.emit e).v = s.v := rfl
@[simp] theorem State.emit_i (s : State) (e : DeviceEvent) : (s.emit e).i = s.i := rfl
@[simp] theorem State.emit_pc (s : State) (e : DeviceEvent) : (s.emit e).pc = s.pc := rfl
@[simp] theorem State.emit_stack (s : State) (e : DeviceEvent) : (s.emit e).stack = s.stack := rfl
@[simp] theorem State.emit_dt (s : State) (e : DeviceEvent) : (s.emit e).dt = s.dt := rfl
@[simp] theorem State.emit_st (s : State) (e : DeviceEvent) : (s.emit e).st = s.st := rfl
@[simp] theorem State.emit_dtRun (s : State) (e : DeviceEvent) : (s.emit e).dtRun = s.dtRun := rfl
@[simp] theorem State.emit_stRun (s : State) (e : DeviceEvent) : (s.emit e).stRun = s.stRun := rfl
@[simp] theorem State.emit_cpuWait (s : State) (e : DeviceEvent) : (s.emit e).cpuWait = s.cpuWait := rfl
@[simp] theorem State.emit_dtPhase (s : State) (e : DeviceEvent) : (s.emit e).dtPhase = s.dtPhase := rfl
@[simp] theorem State.emit_stPhase (s : State) (e : DeviceEvent) : (s.emit e).stPhase = s.stPhase := rfl
@[simp] theorem State.emit_keys (s : State) (e : DeviceEvent) : (s.emit e).keys = s.keys := rfl
@[simp] theorem State.emit_pending (s : State) (e : DeviceEvent) : (s.emit e).pending = s.pending := rfl
@[simp] theorem State.emit_status (s : State) (e : DeviceEvent) : (s.emit e).status = s.status := rfl
@[simp] theorem State.emit_fault (s : State) (e : DeviceEvent) : (s.emit e).fault = s.fault := rfl
@[simp] theorem State.emit_faultLog (s : State) (e : DeviceEvent) : (s.emit e).faultLog = s.faultLog := rfl
@[simp] theorem State.emit_mem (s : State) (e : DeviceEvent) : (s.emit e).mem = s.mem := rfl
@[simp] theorem State.emit_fb (s : State) (e : DeviceEvent) : (s.emit e).fb = s.fb := rfl
@[simp] theorem State.emit_trace (s : State) (e : DeviceEvent) : (s.emit e).trace = s.trace ++ [e] := rfl
@[simp] theorem State.emit_hostReplies (s : State) (e : DeviceEvent) : (s.emit e).hostReplies = s.hostReplies := rfl
@[simp] theorem State.emit_rngDraws (s : State) (e : DeviceEvent) : (s.emit e).rngDraws = s.rngDraws := rfl
@[simp] theorem State.emit_schedule (s : State) (e : DeviceEvent) : (s.emit e).schedule = s.schedule := rfl
@[simp] theorem State.emit_turn (s : State) (e : DeviceEvent) : (s.emit e).turn = s.turn := rfl

/-! ### `State.togglePixel` -/

@[simp] theorem State.togglePixel_params (s : State) (x : Fin 64) (y : Fin 32) : (s.togglePixel x y).params = s.params := rfl
@[simp] theorem State.togglePixel_v (s : State) (x : Fin 64) (y : Fin 32) : (s.togglePixel x y).v = s.v := rfl
@[simp] theorem State.togglePixel_i (s : State) (x : Fin 64) (y : Fin 32) : (s.togglePixel x y).i = s.i := rfl
@[simp] theorem State.togglePixel_pc (s : State) (x : Fin 64) (y : Fin 32) : (s.togglePixel x y).pc = s.pc := rfl
@[simp] theorem State.togglePixel_stack (s : State) (x : Fin 64) (y : Fin 32) : (s.togglePixel x y).stack = s.stack := rfl
@[simp] theorem State.togglePixel_dt (s : State) (x : Fin 64) (y : Fin 32) : (s.togglePixel x y).dt = s.dt := rfl
@[simp] theorem State.togglePixel_st (s : State) (x : Fin 64) (y : Fin 32) : (s.togglePixel x y).st = s.st := rfl
@[simp] theorem State.togglePixel_dtRun (s : State) (x : Fin 64) (y : Fin 32) : (s.togglePixel x y).dtRun = s.dtRun := rfl
@[simp] theorem State.togglePixel_stRun (s : State) (x : Fin 64) (y : Fin 32) : (s.togglePixel x y).stRun = s.stRun := rfl
@[simp] theorem State.togglePixel_cpuWait (s : State) (x : Fin 64) (y : Fin 32) : (s.togglePixel x y).cpuWait = s.cpuWait := rfl
@[simp] theorem State.togglePixel_dtPhase (s : State) (x : Fin 64) (y : Fin 32) : (s.togglePixel x y).dtPhase = s.dtPhase := rfl
@[simp] theorem State.togglePixel_stPhase (s : State) (x : Fin 64) (y : Fin 32) : (s.togglePixel x y).stPhase = s.stPhase := rfl
@[simp] theorem State.togglePixel_keys (s : State) (x : Fin 64) (y : Fin 32) : (s.togglePixel x y).keys = s.keys := rfl
@[simp] theorem State.togglePixel_pending (s : State) (x : Fin 64) (y : Fin 32) : (s.togglePixel x y).pending = s.pending := rfl
@[simp] theorem State.togglePixel_status (s : State) (x : Fin 64) (y : Fin 32) : (s.togglePixel x y).status = s.status := rfl
@[simp] theorem State.togglePixel_fault (s : State) (x : Fin 64) (y : Fin 32) : (s.togglePixel x y).fault = s.fault := rfl
@[simp] theorem State.togglePixel_faultLog (s : State) (x : Fin 64) (y : Fin 32) : (s.togglePixel x y).faultLog = s.faultLog := rfl
@[simp] theorem State.togglePixel_mem (s : State) (x : Fin 64) (y : Fin 32) : (s.togglePixel x y).mem = s.mem := rfl
@[simp] theorem State.togglePixel_trace (s : State) (x : Fin 64) (y : Fin 32) : (s.togglePixel x y).trace = s.trace := rfl
@[simp] theorem State.togglePixel_hostReplies (s : State) (x : Fin 64) (y : Fin 32) : (s.togglePixel x y).hostReplies = s.hostReplies := rfl
@[simp] theorem State.togglePixel_rngDraws (s : State) (x : Fin 64) (y : Fin 32) : (s.togglePixel x y).rngDraws = s.rngDraws := rfl
@[simp] theorem State.togglePixel_schedule (s : State) (x : Fin 64) (y : Fin 32) : (s.togglePixel x y).schedule = s.schedule := rfl
@[simp] theorem State.togglePixel_turn (s : State) (x : Fin 64) (y : Fin 32) : (s.togglePixel x y).turn = s.turn := rfl

/-! ### `State.writeByte` -/

@[simp] theorem State.writeByte_params (s : State) (a : Nat) (x : Byte) : (s.writeByte a x).params = s.params := rfl
@[simp] theorem State.writeByte_v (s : State) (a : Nat) (x : Byte) : (s.writeByte a x).v = s.v := rfl
@[simp] theorem State.writeByte_i (s : State) (a : Nat) (x : Byte) : (s.writeByte a x).i = s.i := rfl
@[simp] theorem State.writeByte_pc (s : State) (a : Nat) (x : Byte) : (s.writeByte a x).pc = s.pc := rfl
@[simp] theorem State.writeByte_stack (s : State) (a : Nat) (x : Byte) : (s.writeByte a x).stack = s.stack := rfl
@[simp] theorem State.writeByte_dt (s : State) (a : Nat) (x : Byte) : (s.writeByte a x).dt = s.dt := rfl
@[simp] theorem State.writeByte_st (s : State) (a : Nat) (x : Byte) : (s.writeByte a x).st = s.st := rfl
@[simp] theorem State.writeByte_dtRun (s : State) (a : Nat) (x : Byte) : (s.writeByte a x).dtRun = s.dtRun := rfl
@[simp] theorem State.writeByte_stRun (s : State) (a : Nat) (x : Byte) : (s.writeByte a x).stRun = s.stRun := rfl
@[simp] theorem State.writeByte_cpuWait (s : State) (a : Nat) (x : Byte) : (s.writeByte a x).cpuWait = s.cpuWait := rfl
@[simp] theorem State.writeByte_dtPhase (s : State) (a : Nat) (x : Byte) : (s.writeByte a x).dtPhase = s.dtPhase := rfl
@[simp] theorem State.writeByte_stPhase (s : State) (a : Nat) (x : Byte) : (s.writeByte a x).stPhase = s.stPhase := rfl
@[simp] theorem State.writeByte_keys (s : State) (a : Nat) (x : Byte) : (s.writeByte a x).keys = s.keys := rfl
@[simp] theorem State.writeByte_pending (s : State) (a : Nat) (x : Byte) : (s.writeByte a x).pending = s.pending := rfl
@[simp] theorem State.writeByte_status (s : State) (a : Nat) (x : Byte) : (s.writeByte a x).status = s.status := rfl
@[simp] theorem State.writeByte_fault (s : State) (a : Nat) (x : Byte) : (s.writeByte a x).fault = s.fault := rfl
@[simp] theorem State.writeByte_faultLog (s : State) (a : Nat) (x : Byte) : (s.writeByte a x).faultLog = s.faultLog := rfl
@[simp] theorem State.writeByte_mem (s : State) (a : Nat) (x : Byte) : (s.writeByte a x).mem = Memory.write s.params.font s.mem a x := rfl
@[simp] theorem State.writeByte_fb (s : State) (a : Nat) (x : Byte) : (s.writeByte a x).fb = s.fb := rfl
@[simp] theorem State.writeByte_trace (s : State) (a : Nat) (x : Byte) : (s.writeByte a x).trace = s.trace := rfl
@[simp] theorem State.writeByte_hostReplies (s : State) (a : Nat) (x : Byte) : (s.writeByte a x).hostReplies = s.hostReplies := rfl
@[simp] theorem State.writeByte_rngDraws (s : State) (a : Nat) (x : Byte) : (s.writeByte a x).rngDraws = s.rngDraws := rfl
@[simp] theorem State.writeByte_schedule (s : State) (a : Nat) (x : Byte) : (s.writeByte a x).schedule = s.schedule := rfl
@[simp] theorem State.writeByte_turn (s : State) (a : Nat) (x : Byte) : (s.writeByte a x).turn = s.turn := rfl

/-! ### `State.loadRegs` -/

@[simp] theorem State.loadRegs_params (s : State) (x : Reg) : (s.loadRegs x).params = s.params := by simp only [State.loadRegs]
@[simp] theorem State.loadRegs_i (s : State) (x : Reg) : (s.loadRegs x).i = s.i := by simp only [State.loadRegs]
@[simp] theorem State.loadRegs_pc (s : State) (x : Reg) : (s.loadRegs x).pc = s.pc := by simp only [State.loadRegs]
@[simp] theorem State.loadRegs_stack (s : State) (x : Reg) : (s.loadRegs x).stack = s.stack := by simp only [State.loadRegs]
@[simp] theorem State.loadRegs_dt (s : State) (x : Reg) : (s.loadRegs x).dt = s.dt := by simp only [State.loadRegs]
@[simp] theorem State.loadRegs_st (s : State) (x : Reg) : (s.loadRegs x).st = s.st := by simp only [State.loadRegs]
@[simp] theorem State.loadRegs_dtRun (s : State) (x : Reg) : (s.loadRegs x).dtRun = s.dtRun := by simp only [State.loadRegs]
@[simp] theorem State.loadRegs_stRun (s : State) (x : Reg) : (s.loadRegs x).stRun = s.stRun := by simp only [State.loadRegs]
@[simp] theorem State.loadRegs_cpuWait (s : State) (x : Reg) : (s.loadRegs x).cpuWait = s.cpuWait := by simp only [State.loadRegs]
@[simp] theorem State.loadRegs_dtPhase (s : State) (x : Reg) : (s.loadRegs x).dtPhase = s.dtPhase := by simp only [State.loadRegs]
@[simp] theorem State.loadRegs_stPhase (s : State) (x : Reg) : (s.loadRegs x).stPhase = s.stPhase := by simp only [State.loadRegs]
@[simp] theorem State.loadRegs_keys (s : State) (x : Reg) : (s.loadRegs x).keys = s.keys := by simp only [State.loadRegs]
@[simp] theorem State.loadRegs_pending (s : State) (x : Reg) : (s.loadRegs x).pending = s.pending := by simp only [State.loadRegs]
@[simp] theorem State.loadRegs_status (s : State) (x : Reg) : (s.loadRegs x).status = s.status := by simp only [State.loadRegs]
@[simp] theorem State.loadRegs_fault (s : State) (x : Reg) : (s.loadRegs x).fault = s.fault := by simp only [State.loadRegs]
@[simp] theorem State.loadRegs_faultLog (s : State) (x : Reg) : (s.loadRegs x).faultLog = s.faultLog := by simp only [State.loadRegs]
@[simp] theorem State.loadRegs_mem (s : State) (x : Reg) : (s.loadRegs x).mem = s.mem := by simp only [State.loadRegs]
@[simp] theorem State.loadRegs_fb (s : State) (x : Reg) : (s.loadRegs x).fb = s.fb := by simp only [State.loadRegs]
@[simp] theorem State.loadRegs_trace (s : State) (x : Reg) : (s.loadRegs x).trace = s.trace := by simp only [State.loadRegs]
@[simp] theorem State.loadRegs_hostReplies (s : State) (x : Reg) : (s.loadRegs x).hostReplies = s.hostReplies := by simp only [State.loadRegs]
@[simp] theorem State.loadRegs_rngDraws (s : State) (x : Reg) : (s.loadRegs x).rngDraws = s.rngDraws := by simp only [State.loadRegs]
@[simp] theorem State.loadRegs_schedule (s : State) (x : Reg) : (s.loadRegs x).schedule = s.schedule := by simp only [State.loadRegs]
@[simp] theorem State.loadRegs_turn (s : State) (x : Reg) : (s.loadRegs x).turn = s.turn := by simp only [State.loadRegs]

/-! ### `State.raise` -/

@[simp] theorem State.raise_params (s : State) (c : FaultCause) : (s.raise c).params = s.params := rfl
@[simp] theorem State.raise_v (s : State) (c : FaultCause) : (s.raise c).v = s.v := rfl
@[simp] theorem State.raise_i (s : State) (c : FaultCause) : (s.raise c).i = s.i := rfl
@[simp] theorem State.raise_pc (s : State) (c : FaultCause) : (s.raise c).pc = s.pc := rfl
@[simp] theorem State.raise_stack (s : State) (c : FaultCause) : (s.raise c).stack = s.stack := rfl
@[simp] theorem State.raise_dt (s : State) (c : FaultCause) : (s.raise c).dt = s.dt := rfl
@[simp] theorem State.raise_st (s : State) (c : FaultCause) : (s.raise c).st = s.st := rfl
@[simp] theorem State.raise_dtRun (s : State) (c : FaultCause) : (s.raise c).dtRun = false := rfl
@[simp] theorem State.raise_stRun (s : State) (c : FaultCause) : (s.raise c).stRun = false := rfl
@[simp] theorem State.raise_cpuWait (s : State) (c : FaultCause) : (s.raise c).cpuWait = s.cpuWait := rfl
@[simp] theorem State.raise_dtPhase (s : State) (c : FaultCause) : (s.raise c).dtPhase = s.dtPhase := rfl
@[simp] theorem State.raise_stPhase (s : State) (c : FaultCause) : (s.raise c).stPhase = s.stPhase := rfl
@[simp] theorem State.raise_keys (s : State) (c : FaultCause) : (s.raise c).keys = s.keys := rfl
@[simp] theorem State.raise_pending (s : State) (c : FaultCause) : (s.raise c).pending = s.pending := rfl
@[simp] theorem State.raise_status (s : State) (c : FaultCause) : (s.raise c).status = .faulted := rfl
@[simp] theorem State.raise_fault (s : State) (c : FaultCause) : (s.raise c).fault = some ⟨c, s.pc⟩ := rfl
@[simp] theorem State.raise_faultLog (s : State) (c : FaultCause) : (s.raise c).faultLog = s.faultLog ++ [⟨c, s.pc⟩] := rfl
@[simp] theorem State.raise_mem (s : State) (c : FaultCause) : (s.raise c).mem = s.mem := rfl
@[simp] theorem State.raise_fb (s : State) (c : FaultCause) : (s.raise c).fb = s.fb := rfl
@[simp] theorem State.raise_trace (s : State) (c : FaultCause) : (s.raise c).trace = s.trace := rfl
@[simp] theorem State.raise_hostReplies (s : State) (c : FaultCause) : (s.raise c).hostReplies = s.hostReplies := rfl
@[simp] theorem State.raise_rngDraws (s : State) (c : FaultCause) : (s.raise c).rngDraws = s.rngDraws := rfl
@[simp] theorem State.raise_schedule (s : State) (c : FaultCause) : (s.raise c).schedule = s.schedule := rfl
@[simp] theorem State.raise_turn (s : State) (c : FaultCause) : (s.raise c).turn = s.turn := rfl

/-! ### `State.reply` -/

@[simp] theorem State.reply_params (s : State) (r : Rejection) : (s.reply r).params = s.params := rfl
@[simp] theorem State.reply_v (s : State) (r : Rejection) : (s.reply r).v = s.v := rfl
@[simp] theorem State.reply_i (s : State) (r : Rejection) : (s.reply r).i = s.i := rfl
@[simp] theorem State.reply_pc (s : State) (r : Rejection) : (s.reply r).pc = s.pc := rfl
@[simp] theorem State.reply_stack (s : State) (r : Rejection) : (s.reply r).stack = s.stack := rfl
@[simp] theorem State.reply_dt (s : State) (r : Rejection) : (s.reply r).dt = s.dt := rfl
@[simp] theorem State.reply_st (s : State) (r : Rejection) : (s.reply r).st = s.st := rfl
@[simp] theorem State.reply_dtRun (s : State) (r : Rejection) : (s.reply r).dtRun = s.dtRun := rfl
@[simp] theorem State.reply_stRun (s : State) (r : Rejection) : (s.reply r).stRun = s.stRun := rfl
@[simp] theorem State.reply_cpuWait (s : State) (r : Rejection) : (s.reply r).cpuWait = s.cpuWait := rfl
@[simp] theorem State.reply_dtPhase (s : State) (r : Rejection) : (s.reply r).dtPhase = s.dtPhase := rfl
@[simp] theorem State.reply_stPhase (s : State) (r : Rejection) : (s.reply r).stPhase = s.stPhase := rfl
@[simp] theorem State.reply_keys (s : State) (r : Rejection) : (s.reply r).keys = s.keys := rfl
@[simp] theorem State.reply_pending (s : State) (r : Rejection) : (s.reply r).pending = s.pending := rfl
@[simp] theorem State.reply_status (s : State) (r : Rejection) : (s.reply r).status = s.status := rfl
@[simp] theorem State.reply_fault (s : State) (r : Rejection) : (s.reply r).fault = s.fault := rfl
@[simp] theorem State.reply_faultLog (s : State) (r : Rejection) : (s.reply r).faultLog = s.faultLog := rfl
@[simp] theorem State.reply_mem (s : State) (r : Rejection) : (s.reply r).mem = s.mem := rfl
@[simp] theorem State.reply_fb (s : State) (r : Rejection) : (s.reply r).fb = s.fb := rfl
@[simp] theorem State.reply_trace (s : State) (r : Rejection) : (s.reply r).trace = s.trace := rfl
@[simp] theorem State.reply_hostReplies (s : State) (r : Rejection) : (s.reply r).hostReplies = s.hostReplies ++ [r] := rfl
@[simp] theorem State.reply_rngDraws (s : State) (r : Rejection) : (s.reply r).rngDraws = s.rngDraws := rfl
@[simp] theorem State.reply_schedule (s : State) (r : Rejection) : (s.reply r).schedule = s.schedule := rfl
@[simp] theorem State.reply_turn (s : State) (r : Rejection) : (s.reply r).turn = s.turn := rfl

/-! ### `State.passTurn` -/

@[simp] theorem State.passTurn_params (s : State) (a : Agent) : (s.passTurn a).params = s.params := rfl
@[simp] theorem State.passTurn_v (s : State) (a : Agent) : (s.passTurn a).v = s.v := rfl
@[simp] theorem State.passTurn_i (s : State) (a : Agent) : (s.passTurn a).i = s.i := rfl
@[simp] theorem State.passTurn_pc (s : State) (a : Agent) : (s.passTurn a).pc = s.pc := rfl
@[simp] theorem State.passTurn_stack (s : State) (a : Agent) : (s.passTurn a).stack = s.stack := rfl
@[simp] theorem State.passTurn_dt (s : State) (a : Agent) : (s.passTurn a).dt = s.dt := rfl
@[simp] theorem State.passTurn_st (s : State) (a : Agent) : (s.passTurn a).st = s.st := rfl
@[simp] theorem State.passTurn_dtRun (s : State) (a : Agent) : (s.passTurn a).dtRun = s.dtRun := rfl
@[simp] theorem State.passTurn_stRun (s : State) (a : Agent) : (s.passTurn a).stRun = s.stRun := rfl
@[simp] theorem State.passTurn_cpuWait (s : State) (a : Agent) : (s.passTurn a).cpuWait = s.cpuWait := rfl
@[simp] theorem State.passTurn_dtPhase (s : State) (a : Agent) : (s.passTurn a).dtPhase = s.dtPhase := rfl
@[simp] theorem State.passTurn_stPhase (s : State) (a : Agent) : (s.passTurn a).stPhase = s.stPhase := rfl
@[simp] theorem State.passTurn_keys (s : State) (a : Agent) : (s.passTurn a).keys = s.keys := rfl
@[simp] theorem State.passTurn_pending (s : State) (a : Agent) : (s.passTurn a).pending = s.pending := rfl
@[simp] theorem State.passTurn_status (s : State) (a : Agent) : (s.passTurn a).status = s.status := rfl
@[simp] theorem State.passTurn_fault (s : State) (a : Agent) : (s.passTurn a).fault = s.fault := rfl
@[simp] theorem State.passTurn_faultLog (s : State) (a : Agent) : (s.passTurn a).faultLog = s.faultLog := rfl
@[simp] theorem State.passTurn_mem (s : State) (a : Agent) : (s.passTurn a).mem = s.mem := rfl
@[simp] theorem State.passTurn_fb (s : State) (a : Agent) : (s.passTurn a).fb = s.fb := rfl
@[simp] theorem State.passTurn_trace (s : State) (a : Agent) : (s.passTurn a).trace = s.trace := rfl
@[simp] theorem State.passTurn_hostReplies (s : State) (a : Agent) : (s.passTurn a).hostReplies = s.hostReplies := rfl
@[simp] theorem State.passTurn_rngDraws (s : State) (a : Agent) : (s.passTurn a).rngDraws = s.rngDraws := rfl
@[simp] theorem State.passTurn_schedule (s : State) (a : Agent) : (s.passTurn a).schedule = s.schedule := rfl
@[simp] theorem State.passTurn_turn (s : State) (a : Agent) : (s.passTurn a).turn = a.next := rfl

/-! ### `State.setKey` -/

@[simp] theorem State.setKey_params (s : State) (k : Key) (down : Bool) : (s.setKey k down).params = s.params := rfl
@[simp] theorem State.setKey_v (s : State) (k : Key) (down : Bool) : (s.setKey k down).v = s.v := rfl
@[simp] theorem State.setKey_i (s : State) (k : Key) (down : Bool) : (s.setKey k down).i = s.i := rfl
@[simp] theorem State.setKey_pc (s : State) (k : Key) (down : Bool) : (s.setKey k down).pc = s.pc := rfl
@[simp] theorem State.setKey_stack (s : State) (k : Key) (down : Bool) : (s.setKey k down).stack = s.stack := rfl
@[simp] theorem State.setKey_dt (s : State) (k : Key) (down : Bool) : (s.setKey k down).dt = s.dt := rfl
@[simp] theorem State.setKey_st (s : State) (k : Key) (down : Bool) : (s.setKey k down).st = s.st := rfl
@[simp] theorem State.setKey_dtRun (s : State) (k : Key) (down : Bool) : (s.setKey k down).dtRun = s.dtRun := rfl
@[simp] theorem State.setKey_stRun (s : State) (k : Key) (down : Bool) : (s.setKey k down).stRun = s.stRun := rfl
@[simp] theorem State.setKey_cpuWait (s : State) (k : Key) (down : Bool) : (s.setKey k down).cpuWait = s.cpuWait := rfl
@[simp] theorem State.setKey_dtPhase (s : State) (k : Key) (down : Bool) : (s.setKey k down).dtPhase = s.dtPhase := rfl
@[simp] theorem State.setKey_stPhase (s : State) (k : Key) (down : Bool) : (s.setKey k down).stPhase = s.stPhase := rfl
@[simp] theorem State.setKey_pending (s : State) (k : Key) (down : Bool) : (s.setKey k down).pending = s.pending := rfl
@[simp] theorem State.setKey_status (s : State) (k : Key) (down : Bool) : (s.setKey k down).status = s.status := rfl
@[simp] theorem State.setKey_fault (s : State) (k : Key) (down : Bool) : (s.setKey k down).fault = s.fault := rfl
@[simp] theorem State.setKey_faultLog (s : State) (k : Key) (down : Bool) : (s.setKey k down).faultLog = s.faultLog := rfl
@[simp] theorem State.setKey_mem (s : State) (k : Key) (down : Bool) : (s.setKey k down).mem = s.mem := rfl
@[simp] theorem State.setKey_fb (s : State) (k : Key) (down : Bool) : (s.setKey k down).fb = s.fb := rfl
@[simp] theorem State.setKey_trace (s : State) (k : Key) (down : Bool) : (s.setKey k down).trace = s.trace := rfl
@[simp] theorem State.setKey_hostReplies (s : State) (k : Key) (down : Bool) : (s.setKey k down).hostReplies = s.hostReplies := rfl
@[simp] theorem State.setKey_rngDraws (s : State) (k : Key) (down : Bool) : (s.setKey k down).rngDraws = s.rngDraws := rfl
@[simp] theorem State.setKey_schedule (s : State) (k : Key) (down : Bool) : (s.setKey k down).schedule = s.schedule := rfl
@[simp] theorem State.setKey_turn (s : State) (k : Key) (down : Bool) : (s.setKey k down).turn = s.turn := rfl

/-! ### `State.advanceTo` -/

/-- `State.advanceTo` touches no other field. -/
theorem State.advanceTo_frame (s : State) (p : Nat) :
    (s.advanceTo p) = { s with pc := (s.advanceTo p).pc, status := (s.advanceTo p).status, dtRun := (s.advanceTo p).dtRun, stRun := (s.advanceTo p).stRun } := by
  unfold State.advanceTo; split <;> rfl

@[simp] theorem State.advanceTo_params (s : State) (p : Nat) : (s.advanceTo p).params = s.params :=
  (congrArg State.params (State.advanceTo_frame s p) :)
@[simp] theorem State.advanceTo_v (s : State) (p : Nat) : (s.advanceTo p).v = s.v :=
  (congrArg State.v (State.advanceTo_frame s p) :)
@[simp] theorem State.advanceTo_i (s : State) (p : Nat) : (s.advanceTo p).i = s.i :=
  (congrArg State.i (State.advanceTo_frame s p) :)
@[simp] theorem State.advanceTo_stack (s : State) (p : Nat) : (s.advanceTo p).stack = s.stack :=
  (congrArg State.stack (State.advanceTo_frame s p) :)
@[simp] theorem State.advanceTo_dt (s : State) (p : Nat) : (s.advanceTo p).dt = s.dt :=
  (congrArg State.dt (State.advanceTo_frame s p) :)
@[simp] theorem State.advanceTo_st (s : State) (p : Nat) : (s.advanceTo p).st = s.st :=
  (congrArg State.st (State.advanceTo_frame s p) :)
@[simp] theorem State.advanceTo_cpuWait (s : State) (p : Nat) : (s.advanceTo p).cpuWait = s.cpuWait :=
  (congrArg State.cpuWait (State.advanceTo_frame s p) :)
@[simp] theorem State.advanceTo_dtPhase (s : State) (p : Nat) : (s.advanceTo p).dtPhase = s.dtPhase :=
  (congrArg State.dtPhase (State.advanceTo_frame s p) :)
@[simp] theorem State.advanceTo_stPhase (s : State) (p : Nat) : (s.advanceTo p).stPhase = s.stPhase :=
  (congrArg State.stPhase (State.advanceTo_frame s p) :)
@[simp] theorem State.advanceTo_keys (s : State) (p : Nat) : (s.advanceTo p).keys = s.keys :=
  (congrArg State.keys (State.advanceTo_frame s p) :)
@[simp] theorem State.advanceTo_pending (s : State) (p : Nat) : (s.advanceTo p).pending = s.pending :=
  (congrArg State.pending (State.advanceTo_frame s p) :)
@[simp] theorem State.advanceTo_fault (s : State) (p : Nat) : (s.advanceTo p).fault = s.fault :=
  (congrArg State.fault (State.advanceTo_frame s p) :)
@[simp] theorem State.advanceTo_faultLog (s : State) (p : Nat) : (s.advanceTo p).faultLog = s.faultLog :=
  (congrArg State.faultLog (State.advanceTo_frame s p) :)
@[simp] theorem State.advanceTo_mem (s : State) (p : Nat) : (s.advanceTo p).mem = s.mem :=
  (congrArg State.mem (State.advanceTo_frame s p) :)
@[simp] theorem State.advanceTo_fb (s : State) (p : Nat) : (s.advanceTo p).fb = s.fb :=
  (congrArg State.fb (State.advanceTo_frame s p) :)
@[simp] theorem State.advanceTo_trace (s : State) (p : Nat) : (s.advanceTo p).trace = s.trace :=
  (congrArg State.trace (State.advanceTo_frame s p) :)
@[simp] theorem State.advanceTo_hostReplies (s : State) (p : Nat) : (s.advanceTo p).hostReplies = s.hostReplies :=
  (congrArg State.hostReplies (State.advanceTo_frame s p) :)
@[simp] theorem State.advanceTo_rngDraws (s : State) (p : Nat) : (s.advanceTo p).rngDraws = s.rngDraws :=
  (congrArg State.rngDraws (State.advanceTo_frame s p) :)
@[simp] theorem State.advanceTo_schedule (s : State) (p : Nat) : (s.advanceTo p).schedule = s.schedule :=
  (congrArg State.schedule (State.advanceTo_frame s p) :)
@[simp] theorem State.advanceTo_turn (s : State) (p : Nat) : (s.advanceTo p).turn = s.turn :=
  (congrArg State.turn (State.advanceTo_frame s p) :)

/-! ### `State.setDelay` -/

/-- `State.setDelay` touches no other field. -/
theorem State.setDelay_frame (s : State) (b : Byte) :
    (s.setDelay b) = { s with dt := (s.setDelay b).dt, dtRun := (s.setDelay b).dtRun, dtPhase := (s.setDelay b).dtPhase } := by
  unfold State.setDelay; split <;> rfl

@[simp] theorem State.setDelay_params (s : State) (b : Byte) : (s.setDelay b).params = s.params :=
  (congrArg State.params (State.setDelay_frame s b) :)
@[simp] theorem State.setDelay_v (s : State) (b : Byte) : (s.setDelay b).v = s.v :=
  (congrArg State.v (State.setDelay_frame s b) :)
@[simp] theorem State.setDelay_i (s : State) (b : Byte) : (s.setDelay b).i = s.i :=
  (congrArg State.i (State.setDelay_frame s b) :)
@[simp] theorem State.setDelay_pc (s : State) (b : Byte) : (s.setDelay b).pc = s.pc :=
  (congrArg State.pc (State.setDelay_frame s b) :)
@[simp] theorem State.setDelay_stack (s : State) (b : Byte) : (s.setDelay b).stack = s.stack :=
  (congrArg State.stack (State.setDelay_frame s b) :)
@[simp] theorem State.setDelay_st (s : State) (b : Byte) : (s.setDelay b).st = s.st :=
  (congrArg State.st (State.setDelay_frame s b) :)
@[simp] theorem State.setDelay_stRun (s : State) (b : Byte) : (s.setDelay b).stRun = s.stRun :=
  (congrArg State.stRun (State.setDelay_frame s b) :)
@[simp] theorem State.setDelay_cpuWait (s : State) (b : Byte) : (s.setDelay b).cpuWait = s.cpuWait :=
  (congrArg State.cpuWait (State.setDelay_frame s b) :)
@[simp] theorem State.setDelay_stPhase (s : State) (b : Byte) : (s.setDelay b).stPhase = s.stPhase :=
  (congrArg State.stPhase (State.setDelay_frame s b) :)
@[simp] theorem State.setDelay_keys (s : State) (b : Byte) : (s.setDelay b).keys = s.keys :=
  (congrArg State.keys (State.setDelay_frame s b) :)
@[simp] theorem State.setDelay_pending (s : State) (b : Byte) : (s.setDelay b).pending = s.pending :=
  (congrArg State.pending (State.setDelay_frame s b) :)
@[simp] theorem State.setDelay_status (s : State) (b : Byte) : (s.setDelay b).status = s.status :=
  (congrArg State.status (State.setDelay_frame s b) :)
@[simp] theorem State.setDelay_fault (s : State) (b : Byte) : (s.setDelay b).fault = s.fault :=
  (congrArg State.fault (State.setDelay_frame s b) :)
@[simp] theorem State.setDelay_faultLog (s : State) (b : Byte) : (s.setDelay b).faultLog = s.faultLog :=
  (congrArg State.faultLog (State.setDelay_frame s b) :)
@[simp] theorem State.setDelay_mem (s : State) (b : Byte) : (s.setDelay b).mem = s.mem :=
  (congrArg State.mem (State.setDelay_frame s b) :)
@[simp] theorem State.setDelay_fb (s : State) (b : Byte) : (s.setDelay b).fb = s.fb :=
  (congrArg State.fb (State.setDelay_frame s b) :)
@[simp] theorem State.setDelay_trace (s : State) (b : Byte) : (s.setDelay b).trace = s.trace :=
  (congrArg State.trace (State.setDelay_frame s b) :)
@[simp] theorem State.setDelay_hostReplies (s : State) (b : Byte) : (s.setDelay b).hostReplies = s.hostReplies :=
  (congrArg State.hostReplies (State.setDelay_frame s b) :)
@[simp] theorem State.setDelay_rngDraws (s : State) (b : Byte) : (s.setDelay b).rngDraws = s.rngDraws :=
  (congrArg State.rngDraws (State.setDelay_frame s b) :)
@[simp] theorem State.setDelay_schedule (s : State) (b : Byte) : (s.setDelay b).schedule = s.schedule :=
  (congrArg State.schedule (State.setDelay_frame s b) :)
@[simp] theorem State.setDelay_turn (s : State) (b : Byte) : (s.setDelay b).turn = s.turn :=
  (congrArg State.turn (State.setDelay_frame s b) :)

/-! ### `State.setSound` -/

/-- `State.setSound` touches no other field. -/
theorem State.setSound_frame (s : State) (b : Byte) :
    (s.setSound b) = { s with st := (s.setSound b).st, stRun := (s.setSound b).stRun, stPhase := (s.setSound b).stPhase } := by
  unfold State.setSound; split <;> rfl

@[simp] theorem State.setSound_params (s : State) (b : Byte) : (s.setSound b).params = s.params :=
  (congrArg State.params (State.setSound_frame s b) :)
@[simp] theorem State.setSound_v (s : State) (b : Byte) : (s.setSound b).v = s.v :=
  (congrArg State.v (State.setSound_frame s b) :)
@[simp] theorem State.setSound_i (s : State) (b : Byte) : (s.setSound b).i = s.i :=
  (congrArg State.i (State.setSound_frame s b) :)
@[simp] theorem State.setSound_pc (s : State) (b : Byte) : (s.setSound b).pc = s.pc :=
  (congrArg State.pc (State.setSound_frame s b) :)
@[simp] theorem State.setSound_stack (s : State) (b : Byte) : (s.setSound b).stack = s.stack :=
  (congrArg State.stack (State.setSound_frame s b) :)
@[simp] theorem State.setSound_dt (s : State) (b : Byte) : (s.setSound b).dt = s.dt :=
  (congrArg State.dt (State.setSound_frame s b) :)
@[simp] theorem State.setSound_dtRun (s : State) (b : Byte) : (s.setSound b).dtRun = s.dtRun :=
  (congrArg State.dtRun (State.setSound_frame s b) :)
@[simp] theorem State.setSound_cpuWait (s : State) (b : Byte) : (s.setSound b).cpuWait = s.cpuWait :=
  (congrArg State.cpuWait (State.setSound_frame s b) :)
@[simp] theorem State.setSound_dtPhase (s : State) (b : Byte) : (s.setSound b).dtPhase = s.dtPhase :=
  (congrArg State.dtPhase (State.setSound_frame s b) :)
@[simp] theorem State.setSound_keys (s : State) (b : Byte) : (s.setSound b).keys = s.keys :=
  (congrArg State.keys (State.setSound_frame s b) :)
@[simp] theorem State.setSound_pending (s : State) (b : Byte) : (s.setSound b).pending = s.pending :=
  (congrArg State.pending (State.setSound_frame s b) :)
@[simp] theorem State.setSound_status (s : State) (b : Byte) : (s.setSound b).status = s.status :=
  (congrArg State.status (State.setSound_frame s b) :)
@[simp] theorem State.setSound_fault (s : State) (b : Byte) : (s.setSound b).fault = s.fault :=
  (congrArg State.fault (State.setSound_frame s b) :)
@[simp] theorem State.setSound_faultLog (s : State) (b : Byte) : (s.setSound b).faultLog = s.faultLog :=
  (congrArg State.faultLog (State.setSound_frame s b) :)
@[simp] theorem State.setSound_mem (s : State) (b : Byte) : (s.setSound b).mem = s.mem :=
  (congrArg State.mem (State.setSound_frame s b) :)
@[simp] theorem State.setSound_fb (s : State) (b : Byte) : (s.setSound b).fb = s.fb :=
  (congrArg State.fb (State.setSound_frame s b) :)
@[simp] theorem State.setSound_trace (s : State) (b : Byte) : (s.setSound b).trace = s.trace :=
  (congrArg State.trace (State.setSound_frame s b) :)
@[simp] theorem State.setSound_hostReplies (s : State) (b : Byte) : (s.setSound b).hostReplies = s.hostReplies :=
  (congrArg State.hostReplies (State.setSound_frame s b) :)
@[simp] theorem State.setSound_rngDraws (s : State) (b : Byte) : (s.setSound b).rngDraws = s.rngDraws :=
  (congrArg State.rngDraws (State.setSound_frame s b) :)
@[simp] theorem State.setSound_schedule (s : State) (b : Byte) : (s.setSound b).schedule = s.schedule :=
  (congrArg State.schedule (State.setSound_frame s b) :)
@[simp] theorem State.setSound_turn (s : State) (b : Byte) : (s.setSound b).turn = s.turn :=
  (congrArg State.turn (State.setSound_frame s b) :)

/-! ### `State.setCpuWait` -/

/-- `State.setCpuWait` touches no other field. -/
theorem State.setCpuWait_frame (s : State) (ms : Nat) :
    (s.setCpuWait ms) = { s with cpuWait := (s.setCpuWait ms).cpuWait } := by
  unfold State.setCpuWait; split <;> rfl

@[simp] theorem State.setCpuWait_params (s : State) (ms : Nat) : (s.setCpuWait ms).params = s.params :=
  (congrArg State.params (State.setCpuWait_frame s ms) :)
@[simp] theorem State.setCpuWait_v (s : State) (ms : Nat) : (s.setCpuWait ms).v = s.v :=
  (congrArg State.v (State.setCpuWait_frame s ms) :)
@[simp] theorem State.setCpuWait_i (s : State) (ms : Nat) : (s.setCpuWait ms).i = s.i :=
  (congrArg State.i (State.setCpuWait_frame s ms) :)
@[simp] theorem State.setCpuWait_pc (s : State) (ms : Nat) : (s.setCpuWait ms).pc = s.pc :=
  (congrArg State.pc (State.setCpuWait_frame s ms) :)
@[simp] theorem State.setCpuWait_stack (s : State) (ms : Nat) : (s.setCpuWait ms).stack = s.stack :=
  (congrArg State.stack (State.setCpuWait_frame s ms) :)
@[simp] theorem State.setCpuWait_dt (s : State) (ms : Nat) : (s.setCpuWait ms).dt = s.dt :=
  (congrArg State.dt (State.setCpuWait_frame s ms) :)
@[simp] theorem State.setCpuWait_st (s : State) (ms : Nat) : (s.setCpuWait ms).st = s.st :=
  (congrArg State.st (State.setCpuWait_frame s ms) :)
@[simp] theorem State.setCpuWait_dtRun (s : State) (ms : Nat) : (s.setCpuWait ms).dtRun = s.dtRun :=
  (congrArg State.dtRun (State.setCpuWait_frame s ms) :)
@[simp] theorem State.setCpuWait_stRun (s : State) (ms : Nat) : (s.setCpuWait ms).stRun = s.stRun :=
  (congrArg State.stRun (State.setCpuWait_frame s ms) :)
@[simp] theorem State.setCpuWait_dtPhase (s : State) (ms : Nat) : (s.setCpuWait ms).dtPhase = s.dtPhase :=
  (congrArg State.dtPhase (State.setCpuWait_frame s ms) :)
@[simp] theorem State.setCpuWait_stPhase (s : State) (ms : Nat) : (s.setCpuWait ms).stPhase = s.stPhase :=
  (congrArg State.stPhase (State.setCpuWait_frame s ms) :)
@[simp] theorem State.setCpuWait_keys (s : State) (ms : Nat) : (s.setCpuWait ms).keys = s.keys :=
  (congrArg State.keys (State.setCpuWait_frame s ms) :)
@[simp] theorem State.setCpuWait_pending (s : State) (ms : Nat) : (s.setCpuWait ms).pending = s.pending :=
  (congrArg State.pending (State.setCpuWait_frame s ms) :)
@[simp] theorem State.setCpuWait_status (s : State) (ms : Nat) : (s.setCpuWait ms).status = s.status :=
  (congrArg State.status (State.setCpuWait_frame s ms) :)
@[simp] theorem State.setCpuWait_fault (s : State) (ms : Nat) : (s.setCpuWait ms).fault = s.fault :=
  (congrArg State.fault (State.setCpuWait_frame s ms) :)
@[simp] theorem State.setCpuWait_faultLog (s : State) (ms : Nat) : (s.setCpuWait ms).faultLog = s.faultLog :=
  (congrArg State.faultLog (State.setCpuWait_frame s ms) :)
@[simp] theorem State.setCpuWait_mem (s : State) (ms : Nat) : (s.setCpuWait ms).mem = s.mem :=
  (congrArg State.mem (State.setCpuWait_frame s ms) :)
@[simp] theorem State.setCpuWait_fb (s : State) (ms : Nat) : (s.setCpuWait ms).fb = s.fb :=
  (congrArg State.fb (State.setCpuWait_frame s ms) :)
@[simp] theorem State.setCpuWait_trace (s : State) (ms : Nat) : (s.setCpuWait ms).trace = s.trace :=
  (congrArg State.trace (State.setCpuWait_frame s ms) :)
@[simp] theorem State.setCpuWait_hostReplies (s : State) (ms : Nat) : (s.setCpuWait ms).hostReplies = s.hostReplies :=
  (congrArg State.hostReplies (State.setCpuWait_frame s ms) :)
@[simp] theorem State.setCpuWait_rngDraws (s : State) (ms : Nat) : (s.setCpuWait ms).rngDraws = s.rngDraws :=
  (congrArg State.rngDraws (State.setCpuWait_frame s ms) :)
@[simp] theorem State.setCpuWait_schedule (s : State) (ms : Nat) : (s.setCpuWait ms).schedule = s.schedule :=
  (congrArg State.schedule (State.setCpuWait_frame s ms) :)
@[simp] theorem State.setCpuWait_turn (s : State) (ms : Nat) : (s.setCpuWait ms).turn = s.turn :=
  (congrArg State.turn (State.setCpuWait_frame s ms) :)

/-! ### `State.clearCounters` -/

/-- `State.clearCounters` touches no other field. -/
theorem State.clearCounters_frame (s : State) :
    s.clearCounters = { s with cpuWait := s.clearCounters.cpuWait, dtPhase := s.clearCounters.dtPhase, stPhase := s.clearCounters.stPhase } := by
  unfold State.clearCounters; split <;> rfl

@[simp] theorem State.clearCounters_params (s : State) : s.clearCounters.params = s.params :=
  (congrArg State.params (State.clearCounters_frame s) :)
@[simp] theorem State.clearCounters_v (s : State) : s.clearCounters.v = s.v :=
  (congrArg State.v (State.clearCounters_frame s) :)
@[simp] theorem State.clearCounters_i (s : State) : s.clearCounters.i = s.i :=
  (congrArg State.i (State.clearCounters_frame s) :)
@[simp] theorem State.clearCounters_pc (s : State) : s.clearCounters.pc = s.pc :=
  (congrArg State.pc (State.clearCounters_frame s) :)
@[simp] theorem State.clearCounters_stack (s : State) : s.clearCounters.stack = s.stack :=
  (congrArg State.stack (State.clearCounters_frame s) :)
@[simp] theorem State.clearCounters_dt (s : State) : s.clearCounters.dt = s.dt :=
  (congrArg State.dt (State.clearCounters_frame s) :)
@[simp] theorem State.clearCounters_st (s : State) : s.clearCounters.st = s.st :=
  (congrArg State.st (State.clearCounters_frame s) :)
@[simp] theorem State.clearCounters_dtRun (s : State) : s.clearCounters.dtRun = s.dtRun :=
  (congrArg State.dtRun (State.clearCounters_frame s) :)
@[simp] theorem State.clearCounters_stRun (s : State) : s.clearCounters.stRun = s.stRun :=
  (congrArg State.stRun (State.clearCounters_frame s) :)
@[simp] theorem State.clearCounters_keys (s : State) : s.clearCounters.keys = s.keys :=
  (congrArg State.keys (State.clearCounters_frame s) :)
@[simp] theorem State.clearCounters_pending (s : State) : s.clearCounters.pending = s.pending :=
  (congrArg State.pending (State.clearCounters_frame s) :)
@[simp] theorem State.clearCounters_status (s : State) : s.clearCounters.status = s.status :=
  (congrArg State.status (State.clearCounters_frame s) :)
@[simp] theorem State.clearCounters_fault (s : State) : s.clearCounters.fault = s.fault :=
  (congrArg State.fault (State.clearCounters_frame s) :)
@[simp] theorem State.clearCounters_faultLog (s : State) : s.clearCounters.faultLog = s.faultLog :=
  (congrArg State.faultLog (State.clearCounters_frame s) :)
@[simp] theorem State.clearCounters_mem (s : State) : s.clearCounters.mem = s.mem :=
  (congrArg State.mem (State.clearCounters_frame s) :)
@[simp] theorem State.clearCounters_fb (s : State) : s.clearCounters.fb = s.fb :=
  (congrArg State.fb (State.clearCounters_frame s) :)
@[simp] theorem State.clearCounters_trace (s : State) : s.clearCounters.trace = s.trace :=
  (congrArg State.trace (State.clearCounters_frame s) :)
@[simp] theorem State.clearCounters_hostReplies (s : State) : s.clearCounters.hostReplies = s.hostReplies :=
  (congrArg State.hostReplies (State.clearCounters_frame s) :)
@[simp] theorem State.clearCounters_rngDraws (s : State) : s.clearCounters.rngDraws = s.rngDraws :=
  (congrArg State.rngDraws (State.clearCounters_frame s) :)
@[simp] theorem State.clearCounters_schedule (s : State) : s.clearCounters.schedule = s.schedule :=
  (congrArg State.schedule (State.clearCounters_frame s) :)
@[simp] theorem State.clearCounters_turn (s : State) : s.clearCounters.turn = s.turn :=
  (congrArg State.turn (State.clearCounters_frame s) :)

/-! ### `State.delayTick` -/

/-- `State.delayTick` touches no other field. -/
theorem State.delayTick_frame (s : State) :
    s.delayTick = { s with dt := s.delayTick.dt, dtRun := s.delayTick.dtRun, dtPhase := s.delayTick.dtPhase } := by
  unfold State.delayTick; split
  · rfl
  · split <;> rfl

@[simp] theorem State.delayTick_params (s : State) : s.delayTick.params = s.params :=
  (congrArg State.params (State.delayTick_frame s) :)
@[simp] theorem State.delayTick_v (s : State) : s.delayTick.v = s.v :=
  (congrArg State.v (State.delayTick_frame s) :)
@[simp] theorem State.delayTick_i (s : State) : s.delayTick.i = s.i :=
  (congrArg State.i (State.delayTick_frame s) :)
@[simp] theorem State.delayTick_pc (s : State) : s.delayTick.pc = s.pc :=
  (congrArg State.pc (State.delayTick_frame s) :)
@[simp] theorem State.delayTick_stack (s : State) : s.delayTick.stack = s.stack :=
  (congrArg State.stack (State.delayTick_frame s) :)
@[simp] theorem State.delayTick_st (s : State) : s.delayTick.st = s.st :=
  (congrArg State.st (State.delayTick_frame s) :)
@[simp] theorem State.delayTick_stRun (s : State) : s.delayTick.stRun = s.stRun :=
  (congrArg State.stRun (State.delayTick_frame s) :)
@[simp] theorem State.delayTick_cpuWait (s : State) : s.delayTick.cpuWait = s.cpuWait :=
  (congrArg State.cpuWait (State.delayTick_frame s) :)
@[simp] theorem State.delayTick_stPhase (s : State) : s.delayTick.stPhase = s.stPhase :=
  (congrArg State.stPhase (State.delayTick_frame s) :)
@[simp] theorem State.delayTick_keys (s : State) : s.delayTick.keys = s.keys :=
  (congrArg State.keys (State.delayTick_frame s) :)
@[simp] theorem State.delayTick_pending (s : State) : s.delayTick.pending = s.pending :=
  (congrArg State.pending (State.delayTick_frame s) :)
@[simp] theorem State.delayTick_status (s : State) : s.delayTick.status = s.status :=
  (congrArg State.status (State.delayTick_frame s) :)
@[simp] theorem State.delayTick_fault (s : State) : s.delayTick.fault = s.fault :=
  (congrArg State.fault (State.delayTick_frame s) :)
@[simp] theorem State.delayTick_faultLog (s : State) : s.delayTick.faultLog = s.faultLog :=
  (congrArg State.faultLog (State.delayTick_frame s) :)
@[simp] theorem State.delayTick_mem (s : State) : s.delayTick.mem = s.mem :=
  (congrArg State.mem (State.delayTick_frame s) :)
@[simp] theorem State.delayTick_fb (s : State) : s.delayTick.fb = s.fb :=
  (congrArg State.fb (State.delayTick_frame s) :)
@[simp] theorem State.delayTick_trace (s : State) : s.delayTick.trace = s.trace :=
  (congrArg State.trace (State.delayTick_frame s) :)
@[simp] theorem State.delayTick_hostReplies (s : State) : s.delayTick.hostReplies = s.hostReplies :=
  (congrArg State.hostReplies (State.delayTick_frame s) :)
@[simp] theorem State.delayTick_rngDraws (s : State) : s.delayTick.rngDraws = s.rngDraws :=
  (congrArg State.rngDraws (State.delayTick_frame s) :)
@[simp] theorem State.delayTick_schedule (s : State) : s.delayTick.schedule = s.schedule :=
  (congrArg State.schedule (State.delayTick_frame s) :)
@[simp] theorem State.delayTick_turn (s : State) : s.delayTick.turn = s.turn :=
  (congrArg State.turn (State.delayTick_frame s) :)

/-! ### `State.soundTick` -/

/-- `State.soundTick` touches no other field. -/
theorem State.soundTick_frame (s : State) :
    s.soundTick = { s with st := s.soundTick.st, stRun := s.soundTick.stRun, stPhase := s.soundTick.stPhase, trace := s.soundTick.trace } := by
  unfold State.soundTick; split
  · rfl
  · split <;> rfl

@[simp] theorem State.soundTick_params (s : State) : s.soundTick.params = s.params :=
  (congrArg State.params (State.soundTick_frame s) :)
@[simp] theorem State.soundTick_v (s : State) : s.soundTick.v = s.v :=
  (congrArg State.v (State.soundTick_frame s) :)
@[simp] theorem State.soundTick_i (s : State) : s.soundTick.i = s.i :=
  (congrArg State.i (State.soundTick_frame s) :)
@[simp] theorem State.soundTick_pc (s : State) : s.soundTick.pc = s.pc :=
  (congrArg State.pc (State.soundTick_frame s) :)
@[simp] theorem State.soundTick_stack (s : State) : s.soundTick.stack = s.stack :=
  (congrArg State.stack (State.soundTick_frame s) :)
@[simp] theorem State.soundTick_dt (s : State) : s.soundTick.dt = s.dt :=
  (congrArg State.dt (State.soundTick_frame s) :)
@[simp] theorem State.soundTick_dtRun (s : State) : s.soundTick.dtRun = s.dtRun :=
  (congrArg State.dtRun (State.soundTick_frame s) :)
@[simp] theorem State.soundTick_cpuWait (s : State) : s.soundTick.cpuWait = s.cpuWait :=
  (congrArg State.cpuWait (State.soundTick_frame s) :)
@[simp] theorem State.soundTick_dtPhase (s : State) : s.soundTick.dtPhase = s.dtPhase :=
  (congrArg State.dtPhase (State.soundTick_frame s) :)
@[simp] theorem State.soundTick_keys (s : State) : s.soundTick.keys = s.keys :=
  (congrArg State.keys (State.soundTick_frame s) :)
@[simp] theorem State.soundTick_pending (s : State) : s.soundTick.pending = s.pending :=
  (congrArg State.pending (State.soundTick_frame s) :)
@[simp] theorem State.soundTick_status (s : State) : s.soundTick.status = s.status :=
  (congrArg State.status (State.soundTick_frame s) :)
@[simp] theorem State.soundTick_fault (s : State) : s.soundTick.fault = s.fault :=
  (congrArg State.fault (State.soundTick_frame s) :)
@[simp] theorem State.soundTick_faultLog (s : State) : s.soundTick.faultLog = s.faultLog :=
  (congrArg State.faultLog (State.soundTick_frame s) :)
@[simp] theorem State.soundTick_mem (s : State) : s.soundTick.mem = s.mem :=
  (congrArg State.mem (State.soundTick_frame s) :)
@[simp] theorem State.soundTick_fb (s : State) : s.soundTick.fb = s.fb :=
  (congrArg State.fb (State.soundTick_frame s) :)
@[simp] theorem State.soundTick_hostReplies (s : State) : s.soundTick.hostReplies = s.hostReplies :=
  (congrArg State.hostReplies (State.soundTick_frame s) :)
@[simp] theorem State.soundTick_rngDraws (s : State) : s.soundTick.rngDraws = s.rngDraws :=
  (congrArg State.rngDraws (State.soundTick_frame s) :)
@[simp] theorem State.soundTick_schedule (s : State) : s.soundTick.schedule = s.schedule :=
  (congrArg State.schedule (State.soundTick_frame s) :)
@[simp] theorem State.soundTick_turn (s : State) : s.soundTick.turn = s.turn :=
  (congrArg State.turn (State.soundTick_frame s) :)

/-! ### `State.writeBytes` -/

/-- `State.writeBytes` touches no other field. -/
theorem State.writeBytes_frame (s : State) (a : Nat) (xs : List Byte) :
    (s.writeBytes a xs) = { s with mem := (s.writeBytes a xs).mem } := by
  induction xs generalizing s a with
  | nil => rfl
  | cons x xs ih => exact ih (s.writeByte a x) (a + 1)

@[simp] theorem State.writeBytes_params (s : State) (a : Nat) (xs : List Byte) : (s.writeBytes a xs).params = s.params :=
  (congrArg State.params (State.writeBytes_frame s a xs) :)
@[simp] theorem State.writeBytes_v (s : State) (a : Nat) (xs : List Byte) : (s.writeBytes a xs).v = s.v :=
  (congrArg State.v (State.writeBytes_frame s a xs) :)
@[simp] theorem State.writeBytes_i (s : State) (a : Nat) (xs : List Byte) : (s.writeBytes a xs).i = s.i :=
  (congrArg State.i (State.writeBytes_frame s a xs) :)
@[simp] theorem State.writeBytes_pc (s : State) (a : Nat) (xs : List Byte) : (s.writeBytes a xs).pc = s.pc :=
  (congrArg State.pc (State.writeBytes_frame s a xs) :)
@[simp] theorem State.writeBytes_stack (s : State) (a : Nat) (xs : List Byte) : (s.writeBytes a xs).stack = s.stack :=
  (congrArg State.stack (State.writeBytes_frame s a xs) :)
@[simp] theorem State.writeBytes_dt (s : State) (a : Nat) (xs : List Byte) : (s.writeBytes a xs).dt = s.dt :=
  (congrArg State.dt (State.writeBytes_frame s a xs) :)
@[simp] theorem State.writeBytes_st (s : State) (a : Nat) (xs : List Byte) : (s.writeBytes a xs).st = s.st :=
  (congrArg State.st (State.writeBytes_frame s a xs) :)
@[simp] theorem State.writeBytes_dtRun (s : State) (a : Nat) (xs : List Byte) : (s.writeBytes a xs).dtRun = s.dtRun :=
  (congrArg State.dtRun (State.writeBytes_frame s a xs) :)
@[simp] theorem State.writeBytes_stRun (s : State) (a : Nat) (xs : List Byte) : (s.writeBytes a xs).stRun = s.stRun :=
  (congrArg State.stRun (State.writeBytes_frame s a xs) :)
@[simp] theorem State.writeBytes_cpuWait (s : State) (a : Nat) (xs : List Byte) : (s.writeBytes a xs).cpuWait = s.cpuWait :=
  (congrArg State.cpuWait (State.writeBytes_frame s a xs) :)
@[simp] theorem State.writeBytes_dtPhase (s : State) (a : Nat) (xs : List Byte) : (s.writeBytes a xs).dtPhase = s.dtPhase :=
  (congrArg State.dtPhase (State.writeBytes_frame s a xs) :)
@[simp] theorem State.writeBytes_stPhase (s : State) (a : Nat) (xs : List Byte) : (s.writeBytes a xs).stPhase = s.stPhase :=
  (congrArg State.stPhase (State.writeBytes_frame s a xs) :)
@[simp] theorem State.writeBytes_keys (s : State) (a : Nat) (xs : List Byte) : (s.writeBytes a xs).keys = s.keys :=
  (congrArg State.keys (State.writeBytes_frame s a xs) :)
@[simp] theorem State.writeBytes_pending (s : State) (a : Nat) (xs : List Byte) : (s.writeBytes a xs).pending = s.pending :=
  (congrArg State.pending (State.writeBytes_frame s a xs) :)
@[simp] theorem State.writeBytes_status (s : State) (a : Nat) (xs : List Byte) : (s.writeBytes a xs).status = s.status :=
  (congrArg State.status (State.writeBytes_frame s a xs) :)
@[simp] theorem State.writeBytes_fault (s : State) (a : Nat) (xs : List Byte) : (s.writeBytes a xs).fault = s.fault :=
  (congrArg State.fault (State.writeBytes_frame s a xs) :)
@[simp] theorem State.writeBytes_faultLog (s : State) (a : Nat) (xs : List Byte) : (s.writeBytes a xs).faultLog = s.faultLog :=
  (congrArg State.faultLog (State.writeBytes_frame s a xs) :)
@[simp] theorem State.writeBytes_fb (s : State) (a : Nat) (xs : List Byte) : (s.writeBytes a xs).fb = s.fb :=
  (congrArg State.fb (State.writeBytes_frame s a xs) :)
@[simp] theorem State.writeBytes_trace (s : State) (a : Nat) (xs : List Byte) : (s.writeBytes a xs).trace = s.trace :=
  (congrArg State.trace (State.writeBytes_frame s a xs) :)
@[simp] theorem State.writeBytes_hostReplies (s : State) (a : Nat) (xs : List Byte) : (s.writeBytes a xs).hostReplies = s.hostReplies :=
  (congrArg State.hostReplies (State.writeBytes_frame s a xs) :)
@[simp] theorem State.writeBytes_rngDraws (s : State) (a : Nat) (xs : List Byte) : (s.writeBytes a xs).rngDraws = s.rngDraws :=
  (congrArg State.rngDraws (State.writeBytes_frame s a xs) :)
@[simp] theorem State.writeBytes_schedule (s : State) (a : Nat) (xs : List Byte) : (s.writeBytes a xs).schedule = s.schedule :=
  (congrArg State.schedule (State.writeBytes_frame s a xs) :)
@[simp] theorem State.writeBytes_turn (s : State) (a : Nat) (xs : List Byte) : (s.writeBytes a xs).turn = s.turn :=
  (congrArg State.turn (State.writeBytes_frame s a xs) :)

/-! ### `State.lightPixels` -/

/-- `State.lightPixels` touches no other field. -/
theorem State.lightPixels_frame (s : State) (ps : List (Fin 64 × Fin 32)) :
    (s.lightPixels ps).1 = { s with fb := (s.lightPixels ps).1.fb, trace := (s.lightPixels ps).1.trace } := by
  induction ps generalizing s with
  | nil => rfl
  | cons p ps ih => exact ih (s.lightPixel p.1 p.2)

@[simp] theorem State.lightPixels_params (s : State) (ps : List (Fin 64 × Fin 32)) : (s.lightPixels ps).1.params = s.params :=
  (congrArg State.params (State.lightPixels_frame s ps) :)
@[simp] theorem State.lightPixels_v (s : State) (ps : List (Fin 64 × Fin 32)) : (s.lightPixels ps).1.v = s.v :=
  (congrArg State.v (State.lightPixels_frame s ps) :)
@[simp] theorem State.lightPixels_i (s : State) (ps : List (Fin 64 × Fin 32)) : (s.lightPixels ps).1.i = s.i :=
  (congrArg State.i (State.lightPixels_frame s ps) :)
@[simp] theorem State.lightPixels_pc (s : State) (ps : List (Fin 64 × Fin 32)) : (s.lightPixels ps).1.pc = s.pc :=
  (congrArg State.pc (State.lightPixels_frame s ps) :)
@[simp] theorem State.lightPixels_stack (s : State) (ps : List (Fin 64 × Fin 32)) : (s.lightPixels ps).1.stack = s.stack :=
  (congrArg State.stack (State.lightPixels_frame s ps) :)
@[simp] theorem State.lightPixels_dt (s : State) (ps : List (Fin 64 × Fin 32)) : (s.lightPixels ps).1.dt = s.dt :=
  (congrArg State.dt (State.lightPixels_frame s ps) :)
@[simp] theorem State.lightPixels_st (s : State) (ps : List (Fin 64 × Fin 32)) : (s.lightPixels ps).1.st = s.st :=
  (congrArg State.st (State.lightPixels_frame s ps) :)
@[simp] theorem State.lightPixels_dtRun (s : State) (ps : List (Fin 64 × Fin 32)) : (s.lightPixels ps).1.dtRun = s.dtRun :=
  (congrArg State.dtRun (State.lightPixels_frame s ps) :)
@[simp] theorem State.lightPixels_stRun (s : State) (ps : List (Fin 64 × Fin 32)) : (s.lightPixels ps).1.stRun = s.stRun :=
  (congrArg State.stRun (State.lightPixels_frame s ps) :)
@[simp] theorem State.lightPixels_cpuWait (s : State) (ps : List (Fin 64 × Fin 32)) : (s.lightPixels ps).1.cpuWait = s.cpuWait :=
  (congrArg State.cpuWait (State.lightPixels_frame s ps) :)
@[simp] theorem State.lightPixels_dtPhase (s : State) (ps : List (Fin 64 × Fin 32)) : (s.lightPixels ps).1.dtPhase = s.dtPhase :=
  (congrArg State.dtPhase (State.lightPixels_frame s ps) :)
@[simp] theorem State.lightPixels_stPhase (s : State) (ps : List (Fin 64 × Fin 32)) : (s.lightPixels ps).1.stPhase = s.stPhase :=
  (congrArg State.stPhase (State.lightPixels_frame s ps) :)
@[simp] theorem State.lightPixels_keys (s : State) (ps : List (Fin 64 × Fin 32)) : (s.lightPixels ps).1.keys = s.keys :=
  (congrArg State.keys (State.lightPixels_frame s ps) :)
@[simp] theorem State.lightPixels_pending (s : State) (ps : List (Fin 64 × Fin 32)) : (s.lightPixels ps).1.pending = s.pending :=
  (congrArg State.pending (State.lightPixels_frame s ps) :)
@[simp] theorem State.lightPixels_status (s : State) (ps : List (Fin 64 × Fin 32)) : (s.lightPixels ps).1.status = s.status :=
  (congrArg State.status (State.lightPixels_frame s ps) :)
@[simp] theorem State.lightPixels_fault (s : State) (ps : List (Fin 64 × Fin 32)) : (s.lightPixels ps).1.fault = s.fault :=
  (congrArg State.fault (State.lightPixels_frame s ps) :)
@[simp] theorem State.lightPixels_faultLog (s : State) (ps : List (Fin 64 × Fin 32)) : (s.lightPixels ps).1.faultLog = s.faultLog :=
  (congrArg State.faultLog (State.lightPixels_frame s ps) :)
@[simp] theorem State.lightPixels_mem (s : State) (ps : List (Fin 64 × Fin 32)) : (s.lightPixels ps).1.mem = s.mem :=
  (congrArg State.mem (State.lightPixels_frame s ps) :)
@[simp] theorem State.lightPixels_hostReplies (s : State) (ps : List (Fin 64 × Fin 32)) : (s.lightPixels ps).1.hostReplies = s.hostReplies :=
  (congrArg State.hostReplies (State.lightPixels_frame s ps) :)
@[simp] theorem State.lightPixels_rngDraws (s : State) (ps : List (Fin 64 × Fin 32)) : (s.lightPixels ps).1.rngDraws = s.rngDraws :=
  (congrArg State.rngDraws (State.lightPixels_frame s ps) :)
@[simp] theorem State.lightPixels_schedule (s : State) (ps : List (Fin 64 × Fin 32)) : (s.lightPixels ps).1.schedule = s.schedule :=
  (congrArg State.schedule (State.lightPixels_frame s ps) :)
@[simp] theorem State.lightPixels_turn (s : State) (ps : List (Fin 64 × Fin 32)) : (s.lightPixels ps).1.turn = s.turn :=
  (congrArg State.turn (State.lightPixels_frame s ps) :)


end Sys2Proof.Machine
end

