-- ==== Sys2Proof/Laws/Memory.lean ====
section
/-!
SUPPORT. The laws of memory: a read after a write to the same address gives the byte written, a write leaves every
other address alone, and every memory operation keeps the canonical form.
-/

namespace Sys2Proof.Machine

/-! ### Lists of cells -/

theorem lookupCell_insertCell (m : List Host.Cell) (a : Nat) (x : Byte) (b : Nat) :
    lookupCell (insertCell m a x) b = if b = a then some x else lookupCell m b := by
  induction m with
  | nil => simp [insertCell, lookupCell]
  | cons c rest ih =>
    obtain ⟨d, y⟩ := c
    unfold insertCell
    split
    · simp [lookupCell]
    · split
      · simp only [lookupCell]; split <;> simp_all
      · next hne =>
        simp only [lookupCell, ih]
        by_cases hd : b = d
        · subst hd; simp [Ne.symm hne]
        · simp [hd]

theorem lookupCell_eraseCell (m : List Host.Cell) (a b : Nat) :
    lookupCell (eraseCell m a) b = if b = a then none else lookupCell m b := by
  induction m with
  | nil => simp [eraseCell, lookupCell]
  | cons c rest ih =>
    obtain ⟨d, y⟩ := c
    by_cases hd : d = a
    · subst hd
      have h : eraseCell ((d, y) :: rest) d = eraseCell rest d := by simp [eraseCell]
      rw [h, ih, lookupCell]
      split <;> simp_all
    · have h : eraseCell ((d, y) :: rest) a = (d, y) :: eraseCell rest a := by simp [eraseCell, hd]
      rw [h, lookupCell, lookupCell, ih]
      by_cases hb : b = d
      · subst hb; simp [hd]
      · simp [hb]

theorem mem_insertCell {m : List Host.Cell} {a : Nat} {x : Byte} {c : Host.Cell} (h : c ∈ insertCell m a x) :
    c = (a, x) ∨ c ∈ m := by
  induction m with
  | nil => simpa [insertCell] using h
  | cons d rest ih =>
    obtain ⟨e, y⟩ := d
    unfold insertCell at h
    split at h
    · simpa using h
    · split at h
      · rcases List.mem_cons.mp h with h | h
        · exact .inl h
        · exact .inr (List.mem_cons_of_mem _ h)
      · rcases List.mem_cons.mp h with h | h
        · exact .inr (h ▸ List.mem_cons_self)
        · exact (ih h).imp_right (List.mem_cons_of_mem _)

theorem pairwise_insertCell {m : List Host.Cell} (h : m.Pairwise fun c d => c.1 < d.1) (a : Nat) (x : Byte) :
    (insertCell m a x).Pairwise fun c d => c.1 < d.1 := by
  induction m with
  | nil => simp [insertCell]
  | cons d rest ih =>
    obtain ⟨e, y⟩ := d
    obtain ⟨hhead, htail⟩ := List.pairwise_cons.mp h
    unfold insertCell
    split
    · next hlt =>
      refine List.pairwise_cons.mpr ⟨fun c hc => ?_, h⟩
      rcases List.mem_cons.mp hc with rfl | hc
      · exact hlt
      · exact Nat.lt_trans hlt (hhead c hc)
    · split
      · next heq => exact List.pairwise_cons.mpr ⟨fun c hc => heq ▸ hhead c hc, htail⟩
      · next hnlt hne =>
        refine List.pairwise_cons.mpr ⟨fun c hc => ?_, ih htail⟩
        rcases mem_insertCell hc with rfl | hc
        · show e < a; omega
        · exact hhead c hc

/-! ### Memories -/

/-- Read after write (R67). -/
theorem Memory.read_write (font : Vector Byte 80) (m : List Host.Cell) (a : Nat) (x : Byte) (b : Nat) :
    Memory.read font (Memory.write font m a x) b = if b = a then x else Memory.read font m b := by
  unfold Memory.write Memory.read
  split
  · next h => rw [lookupCell_eraseCell]; split <;> simp_all
  · rw [lookupCell_insertCell]; split <;> rfl

theorem Memory.wf_nil (font : Vector Byte 80) : Memory.wf font [] := ⟨List.Pairwise.nil, fun _ h => nomatch h⟩

/-- A write inside the address space keeps the canonical form. -/
theorem Memory.wf_write {font : Vector Byte 80} {m : List Host.Cell} (h : Memory.wf font m) {a : Nat}
    (ha : a < memSize) (x : Byte) : Memory.wf font (Memory.write font m a x) := by
  unfold Memory.write
  split
  · exact ⟨h.1.filter _, fun c hc => h.2 c (List.mem_of_mem_filter hc)⟩
  · next hx =>
    refine ⟨pairwise_insertCell h.1 a x, fun c hc => ?_⟩
    rcases mem_insertCell hc with rfl | hc
    · exact ⟨ha, hx⟩
    · exact h.2 c hc

/-! ### The state's memory -/

theorem State.readByte_eq (s : State) (a : Nat) : s.readByte a = Memory.read s.params.font s.mem a := rfl

/-- Two states with the same parameters and memory read the same bytes. -/
theorem State.readByte_congr {s t : State} (hp : t.params = s.params) (hm : t.mem = s.mem) (a : Nat) :
    t.readByte a = s.readByte a := by simp [State.readByte_eq, hp, hm]

theorem State.fetchWord_congr {s t : State} (hp : t.params = s.params) (hm : t.mem = s.mem) (hpc : t.pc = s.pc) :
    t.fetchWord = s.fetchWord := by
  simp [State.fetchWord, State.readByte_eq, hp, hm, hpc]

@[simp] theorem State.readByte_writeByte (s : State) (a : Nat) (x : Byte) (b : Nat) :
    (s.writeByte a x).readByte b = if b = a then x else s.readByte b :=
  Memory.read_write s.params.font s.mem a x b

/-- What bytes written one after the other leave: each at its place, and everything outside them as it was. -/
theorem State.readByte_writeBytes (s : State) (a : Nat) (xs : List Byte) (b : Nat) :
    (s.writeBytes a xs).readByte b = if a ≤ b then xs.getD (b - a) (s.readByte b) else s.readByte b := by
  induction xs generalizing s a with
  | nil => simp [State.writeBytes]
  | cons x xs ih =>
    rw [State.writeBytes, ih, State.readByte_writeByte]
    by_cases h1 : b = a
    · subst h1; simp
    · by_cases h2 : a ≤ b
      · have h3 : a + 1 ≤ b := by omega
        obtain ⟨k, rfl⟩ : ∃ k, b = a + (k + 1) := ⟨b - a - 1, by omega⟩
        have h4 : a + (k + 1) - (a + 1) = k := by omega
        have h5 : a + (k + 1) - a = k + 1 := by omega
        simp [h4, h5, h3]
      · have h3 : ¬a + 1 ≤ b := by omega
        simp [h1, h2, h3]

theorem State.memWf_writeByte {s : State} (h : s.memWf) {a : Nat} (ha : a < memSize) (x : Byte) :
    (s.writeByte a x).memWf :=
  Memory.wf_write h ha x

theorem State.memWf_writeBytes {s : State} (h : s.memWf) (a : Nat) (xs : List Byte)
    (ha : a + xs.length ≤ memSize) : (s.writeBytes a xs).memWf := by
  induction xs generalizing s a with
  | nil => exact h
  | cons x xs ih =>
    rw [List.length_cons] at ha
    exact ih (State.memWf_writeByte h (by omega) x) (a + 1) (by omega)

theorem State.readBytes_getElem? (s : State) (a n k : Nat) :
    (s.readBytes a n)[k]? = if k < n then some (s.readByte (a + k)) else none := by
  induction n generalizing a k with
  | zero => simp [State.readBytes]
  | succ n ih =>
    cases k with
    | zero => simp [State.readBytes]
    | succ k => simp [State.readBytes, ih, Nat.add_assoc, Nat.add_comm 1 k]

@[simp] theorem State.readBytes_length (s : State) (a n : Nat) : (s.readBytes a n).length = n := by
  induction n generalizing a with
  | zero => rfl
  | succ n ih => simp [State.readBytes, ih]

/-- The memory of the state after reset is canonical. -/
theorem State.reset_memWf : State.reset.memWf := Memory.wf_nil _

end Sys2Proof.Machine
end

