-- ==== Sys2Proof/Laws/Ops.lean ====
section
/-!
SUPPORT. What each shared operation does, said once: registers, pixels, the advance of pc, the checks, and the end of an
instruction that a check may forbid.
-/

namespace Sys2Proof.Machine

/-! ### Registers -/

theorem State.reg_eq (s : State) (r : Reg) : s.reg r = s.v[r.val] := rfl

theorem State.reg_congr {s t : State} (h : t.v = s.v) (r : Reg) : t.reg r = s.reg r := by simp [State.reg_eq, h]

@[simp] theorem State.reg_setReg (s : State) (r : Reg) (b : Byte) (q : Reg) :
    (s.setReg r b).reg q = if q = r then b else s.reg q := by
  simp only [State.reg_eq, State.setReg, Vector.getElem_set, Fin.ext_iff, eq_comm]

@[simp] theorem State.reg_setFlag (s : State) (b : Byte) (q : Reg) :
    (s.setFlag b).reg q = if q = 15 then b else s.reg q :=
  State.reg_setReg s 15 b q

@[simp] theorem State.reg_loadRegs (s : State) (x q : Reg) :
    (s.loadRegs x).reg q = if q ≤ x then s.readByte (s.base + q.val) else s.reg q := by
  rw [State.reg_eq, State.loadRegs, Vector.getElem_ofFn]
  rfl

@[simp] theorem State.reg_advanceTo (s : State) (p : Nat) (q : Reg) : (s.advanceTo p).reg q = s.reg q :=
  State.reg_congr (State.advanceTo_v s p) q

/-! ### Timers, keys and prescalers -/

@[simp] theorem State.setDelay_dt (s : State) (b : Byte) : (s.setDelay b).dt = b := by
  unfold State.setDelay; split <;> rfl

/-- A write of DT starts the cycle if the value is not 0, and never stops it (R215). -/
@[simp] theorem State.setDelay_dtRun (s : State) (b : Byte) : (s.setDelay b).dtRun = (s.dtRun || b != 0) := by
  unfold State.setDelay
  split
  · next h => simpa using .inr h.1
  · next h => cases hr : s.dtRun <;> simp_all

/-- A write of DT sets the phase only if it starts the cycle (R215). -/
theorem State.setDelay_dtPhase (s : State) (b : Byte) :
    (s.setDelay b).dtPhase = if b ≠ 0 ∧ s.dtRun = false then s.reload s.dtPhase else s.dtPhase := by
  unfold State.setDelay; split <;> rfl

@[simp] theorem State.setSound_st (s : State) (b : Byte) : (s.setSound b).st = b := by
  unfold State.setSound; split <;> rfl

/-- A write of ST starts the cycle if the value is not 0, and never stops it (R216). -/
@[simp] theorem State.setSound_stRun (s : State) (b : Byte) : (s.setSound b).stRun = (s.stRun || b != 0) := by
  unfold State.setSound
  split
  · next h => simpa using .inr h.1
  · next h => cases hr : s.stRun <;> simp_all

/-- A write of ST sets the phase only if it starts the cycle (R216). -/
theorem State.setSound_stPhase (s : State) (b : Byte) :
    (s.setSound b).stPhase = if b ≠ 0 ∧ s.stRun = false then s.reload s.stPhase else s.stPhase := by
  unfold State.setSound; split <;> rfl

theorem State.setCpuWait_cpuWait (s : State) (ms : Nat) :
    (s.setCpuWait ms).cpuWait = if s.timed then ms else s.cpuWait := by
  unfold State.setCpuWait; split <;> rfl

/-- A key event writes its own bit and no other (R30, R277). -/
theorem State.getLsbD_setKey (s : State) (k : Key) (down : Bool) {j : Nat} (hj : j < 16) :
    (s.setKey k down).keys.getLsbD j = if j = k.val then down else s.keys.getLsbD j := by
  cases down <;> by_cases h : j = k.val <;> simp [State.setKey, hj, h]

/-! ### Pixels -/

@[simp] theorem State.pixel_emit (s : State) (e : DeviceEvent) (x : Fin 64) (y : Fin 32) :
    (s.emit e).pixel x y = s.pixel x y := rfl

/-- A toggled pixel changes, and no other (R273). -/
theorem State.pixel_togglePixel (s : State) (x : Fin 64) (y : Fin 32) (x' : Fin 64) (y' : Fin 32) :
    (s.togglePixel x y).pixel x' y' = if x' = x ∧ y' = y then !s.pixel x' y' else s.pixel x' y' := by
  simp only [State.pixel, State.togglePixel, Vector.get_eq_getElem, Vector.getElem_set]
  by_cases hy : y.val = y'.val
  · have hy' : y' = y := Fin.ext hy.symm
    subst hy'
    by_cases hx : x.val = x'.val
    · have hx' : x' = x := Fin.ext hx.symm
      subst hx'; simp
    · have hx' : x' ≠ x := fun h => hx (by rw [h])
      simp [hx, hx']
  · have hy' : y' ≠ y := fun h => hy (by rw [h])
    simp [hy, hy']

theorem State.pixel_lightPixel (s : State) (x : Fin 64) (y : Fin 32) (x' : Fin 64) (y' : Fin 32) :
    (s.lightPixel x y).pixel x' y' = if x' = x ∧ y' = y then !s.pixel x' y' else s.pixel x' y' :=
  State.pixel_togglePixel s x y x' y'

/-- Every pixel is unlit after `clear()` (R271). -/
@[simp] theorem State.pixel_clearDisplay (s : State) (x : Fin 64) (y : Fin 32) : s.clearDisplay.pixel x y = false := by
  simp [State.clearDisplay, State.emit, State.pixel, Vector.get_eq_getElem]

/-- What `lightPixels` does on pixels without a repeat: each of them changes and no other, the flag says whether one
was lit, and the events follow one another in order, each with what its pixel was (R132, R273). -/
theorem State.lightPixels_spec (s : State) (ps : List (Fin 64 × Fin 32)) (h : ps.Nodup) :
    (∀ x y, (s.lightPixels ps).1.pixel x y = if (x, y) ∈ ps then !s.pixel x y else s.pixel x y) ∧
      (s.lightPixels ps).2 = ps.any (fun p => s.pixel p.1 p.2) ∧
      (s.lightPixels ps).1.trace = s.trace ++ ps.map fun p => .lightPixel p.1 p.2 (s.pixel p.1 p.2) := by
  induction ps generalizing s with
  | nil => simp [State.lightPixels]
  | cons p ps ih =>
    obtain ⟨px, py⟩ := p
    obtain ⟨hp, hps⟩ := List.nodup_cons.mp h
    obtain ⟨h1, h2, h3⟩ := ih (s.lightPixel px py) hps
    have hkeep : ∀ q ∈ ps, (s.lightPixel px py).pixel q.1 q.2 = s.pixel q.1 q.2 := by
      intro q hq
      rw [State.pixel_lightPixel, if_neg]
      rintro ⟨hx, hy⟩
      exact hp (by rw [← hx, ← hy]; exact hq)
    refine ⟨fun x y => ?_, ?_, ?_⟩
    · simp only [State.lightPixels, h1, State.pixel_lightPixel, List.mem_cons, Prod.mk.injEq]
      by_cases hxy : x = px ∧ y = py
      · obtain ⟨rfl, rfl⟩ := hxy; simp [hp]
      · simp [hxy]
    · simp only [State.lightPixels, h2, List.any_cons]
      congr 1
      rw [Bool.eq_iff_iff, List.any_eq_true, List.any_eq_true]
      exact exists_congr fun q => and_congr_right fun hq => by rw [hkeep q hq]
    · have htrace : (s.lightPixel px py).trace = s.trace ++ [.lightPixel px py (s.pixel px py)] := rfl
      have hmap : (ps.map fun q => DeviceEvent.lightPixel q.1 q.2 ((s.lightPixel px py).pixel q.1 q.2)) =
          ps.map fun q => .lightPixel q.1 q.2 (s.pixel q.1 q.2) :=
        List.map_congr_left fun q hq => by rw [hkeep q hq]
      simp only [State.lightPixels, h3, htrace, hmap, List.map_cons, List.append_assoc, List.singleton_append]

/-! ### The advance -/

/-- An advance that stays inside the address space only writes pc (R114). -/
theorem State.advanceTo_inside (s : State) {p : Nat} (h : p ≤ 0xFFF) :
    s.advanceTo p = { s with pc := BitVec.ofNat 16 p } := by simp [State.advanceTo, h]

/-- An advance past it makes the machine Finished and cancels both cycles (R114). -/
theorem State.advanceTo_past (s : State) {p : Nat} (h : 0xFFF < p) :
    s.advanceTo p = { s with pc := BitVec.ofNat 16 p, status := .finished, dtRun := false, stRun := false } := by
  simp [State.advanceTo, Nat.not_le.mpr h]

@[simp] theorem State.advanceTo_pc (s : State) (p : Nat) : (s.advanceTo p).pc = BitVec.ofNat 16 p := by
  unfold State.advanceTo; split <;> rfl

theorem State.advanceTo_status (s : State) (p : Nat) :
    (s.advanceTo p).status = if p ≤ 0xFFF then s.status else .finished := by
  unfold State.advanceTo; split <;> rfl

theorem State.advanceTo_dtRun (s : State) (p : Nat) :
    (s.advanceTo p).dtRun = if p ≤ 0xFFF then s.dtRun else false := by
  unfold State.advanceTo; split <;> rfl

theorem State.advanceTo_stRun (s : State) (p : Nat) :
    (s.advanceTo p).stRun = if p ≤ 0xFFF then s.stRun else false := by
  unfold State.advanceTo; split <;> rfl

/-- The conditional skip is an advance by 4 or by 2 (R111). -/
theorem State.skipIf_eq (s : State) (c : Bool) : s.skipIf c = s.advanceTo (s.pc.toNat + if c then 4 else 2) := by
  cases c <;> rfl

/-! ### Checks -/

theorem State.base_eq (s : State) : s.base = s.i.toNat % 4096 := by simp [State.base]

theorem State.base_lt (s : State) : s.base < 4096 := by rw [State.base_eq]; omega

/-- The first offending address, if there is one, is 0x1000, since the base is below it (R64). -/
theorem firstOutside_eq {base : Nat} (hb : base < 4096) (n : Nat) :
    firstOutside base n = if base + n ≤ 4096 then none else some 4096 := by
  unfold firstOutside
  split
  · next h =>
    rw [List.find?_eq_none]
    intro a ha
    obtain ⟨k, hk, rfl⟩ := List.mem_map.mp ha
    have := List.mem_range.mp hk
    simp; omega
  · next h =>
    obtain ⟨k, rfl⟩ : ∃ k, n = (4096 - base) + (k + 1) := ⟨n - (4096 - base) - 1, by omega⟩
    rw [List.range_add, List.map_append, List.find?_append]
    have hnone : (List.map (base + ·) (List.range (4096 - base))).find? (fun a => decide (0xFFF < a)) = none := by
      rw [List.find?_eq_none]
      intro a ha
      obtain ⟨j, hj, rfl⟩ := List.mem_map.mp ha
      have := List.mem_range.mp hj
      simp; omega
    rw [hnone, List.range_succ_eq_map]
    have h0 : base + (4096 - base) = 4096 := by omega
    simp [h0]

/-- The address check of an instruction that accesses n bytes through I (R64). -/
theorem State.checkAddresses_eq (s : State) (n : Nat) :
    s.checkAddresses n = if s.base + n ≤ 4096 then none else some (.addressOutOfRange 4096) := by
  rw [State.checkAddresses, firstOutside_eq s.base_lt]; split <;> rfl

/-- A target inside the address space and even passes (R140). -/
theorem checkTarget_eq_none {t : Nat} (h1 : t ≤ 0xFFF) (h2 : t % 2 = 0) : checkTarget t = none := by
  simp [checkTarget, Nat.not_lt.mpr h1, h2]

theorem checkTarget_none {t : Nat} (h : checkTarget t = none) : t ≤ 0xFFF ∧ t % 2 = 0 := by
  unfold checkTarget at h
  split at h
  · exact absurd h (by simp)
  · split at h
    · exact absurd h (by simp)
    · omega

/-- The fault that a target raises, by the range first (R140, R233). -/
theorem checkTarget_some {t : Nat} {c : FaultCause} (h : checkTarget t = some c) :
    (0xFFF < t ∧ c = .pcOutOfRange t) ∨ (t ≤ 0xFFF ∧ t % 2 = 1 ∧ c = .pcMisaligned t) := by
  unfold checkTarget at h
  split at h
  · next h1 => cases h; exact .inl ⟨h1, rfl⟩
  · next h1 =>
    split at h
    · next h2 => cases h; exact .inr ⟨Nat.le_of_not_lt h1, h2, rfl⟩
    · cases h

/-- The end of an instruction under a check: the fault it names, or the effect (R231). -/
theorem State.unlessFault_cases (s effect : State) (check : Option FaultCause) :
    (∃ c, check = some c ∧ s.unlessFault check effect = s.raise c) ∨
      (check = none ∧ s.unlessFault check effect = effect) := by
  cases check with
  | none => exact .inr ⟨rfl, rfl⟩
  | some c => exact .inl ⟨c, rfl, rfl⟩

end Sys2Proof.Machine
end

