-- ==== Sys2Proof/Laws/Display.lean ====
section
/-!
SUPPORT. Sprites (R131): which pixels a sprite covers, that none is covered twice, and what a whole draw does.
-/

namespace Sys2Proof.Machine

theorem spritePixel_eq_iff (X Y r c : Nat) (px : Fin 64) (py : Fin 32) :
    spritePixel X Y r c = (px, py) ↔ px.val = (X + c) % 64 ∧ py.val = (Y + r) % 32 := by
  simp only [spritePixel, Prod.mk.injEq, Fin.ext_iff, Fin.val_ofNat]
  constructor <;> rintro ⟨h1, h2⟩ <;> exact ⟨h1.symm, h2.symm⟩

theorem mem_rowPixels (X Y r : Nat) (b : Byte) (px : Fin 64) (py : Fin 32) :
    (px, py) ∈ rowPixels X Y r b ↔
      ∃ c, c < 8 ∧ b.getLsbD (7 - c) = true ∧ px.val = (X + c) % 64 ∧ py.val = (Y + r) % 32 := by
  simp only [rowPixels, List.mem_map, List.mem_filter, List.mem_range, spritePixel_eq_iff, and_assoc]

/-- The pixels that a sprite covers: those of its set bits, wrapping (R131). -/
theorem mem_spritePixels (X Y r : Nat) (rows : List Byte) (px : Fin 64) (py : Fin 32) :
    (px, py) ∈ spritePixels X Y r rows ↔
      ∃ k c, k < rows.length ∧ c < 8 ∧ (rows.getD k 0).getLsbD (7 - c) = true ∧ px.val = (X + c) % 64 ∧
        py.val = (Y + (r + k)) % 32 := by
  induction rows generalizing r with
  | nil => simp [spritePixels]
  | cons b rest ih =>
    rw [spritePixels, List.mem_append, mem_rowPixels, ih]
    constructor
    · rintro (⟨c, hc⟩ | ⟨k, c, hk, h⟩)
      · exact ⟨0, c, by simp, by simpa using hc⟩
      · exact ⟨k + 1, c, by simpa using hk, by simpa [Nat.add_assoc, Nat.add_comm 1 k] using h⟩
    · rintro ⟨k, c, hk, h⟩
      cases k with
      | zero => exact .inl ⟨c, by simpa using h⟩
      | succ k => exact .inr ⟨k, c, by simpa using hk, by simpa [Nat.add_assoc, Nat.add_comm 1 k] using h⟩

theorem nodup_rowPixels (X Y r : Nat) (b : Byte) : (rowPixels X Y r b).Nodup := by
  refine (List.nodup_range.filter _).map_on fun c hc d hd h => ?_
  have hc' := List.mem_range.mp (List.mem_of_mem_filter hc)
  have hd' := List.mem_range.mp (List.mem_of_mem_filter hd)
  have := (spritePixel_eq_iff X Y r c (spritePixel X Y r d).1 (spritePixel X Y r d).2).mp h
  have := (spritePixel_eq_iff X Y r d (spritePixel X Y r d).1 (spritePixel X Y r d).2).mp rfl
  omega

/-- No pixel is covered by two bits of one sprite of at most 32 rows (R131). -/
theorem nodup_spritePixels (X Y r : Nat) (rows : List Byte) (h : rows.length ≤ 32) :
    (spritePixels X Y r rows).Nodup := by
  induction rows generalizing r with
  | nil => simp [spritePixels]
  | cons b rest ih =>
    rw [List.length_cons] at h
    rw [spritePixels]
    refine List.Nodup.append (nodup_rowPixels X Y r b) (ih (r + 1) (by omega)) ?_
    rintro ⟨px, py⟩ h1 h2
    obtain ⟨c, -, -, -, hy1⟩ := (mem_rowPixels X Y r b px py).mp h1
    obtain ⟨k, d, hk, -, -, -, hy2⟩ := (mem_spritePixels X Y (r + 1) rest px py).mp h2
    omega

/-- A draw touches VF, the frame buffer and the output trace, and no other field. -/
theorem State.draw_frame (s : State) (x y : Reg) (n : Nat) :
    s.draw x y n = { s with v := (s.draw x y n).v, fb := (s.draw x y n).fb, trace := (s.draw x y n).trace } := by
  have h := State.lightPixels_frame (s.emit .startDrawBatch)
    (spritePixels (s.reg x).toNat (s.reg y).toNat 0 (s.readBytes s.base n))
  simp only [State.draw, State.setFlag, State.setReg, State.emit] at h ⊢
  rw [h]

/-- A draw leaves every register but VF. -/
theorem State.reg_draw (s : State) (x y : Reg) (n : Nat) {q : Reg} (hq : q ≠ 15) :
    (s.draw x y n).reg q = s.reg q := by
  simp only [State.draw, State.reg_setFlag, if_neg hq]
  exact State.reg_congr (by simp) q

/-- WHAT A DRAW OF AT MOST 32 ROWS DOES (R132): the pixels of its set bits change and no other, VF says whether one of
them was lit, and the batch with their events is appended to the trace. -/
theorem State.draw_spec (s : State) (x y : Reg) {n : Nat} (hn : n ≤ 32) {pixels : List (Fin 64 × Fin 32)}
    (hp : pixels = spritePixels (s.reg x).toNat (s.reg y).toNat 0 (s.readBytes s.base n)) :
    (∀ px py, (s.draw x y n).pixel px py = if (px, py) ∈ pixels then !s.pixel px py else s.pixel px py) ∧
      (s.draw x y n).reg 15 = (if pixels.any (fun p => s.pixel p.1 p.2) then 1 else 0) ∧
      (s.draw x y n).trace = s.trace ++
        (.startDrawBatch :: pixels.map (fun p => .lightPixel p.1 p.2 (s.pixel p.1 p.2)) ++ [.finishDrawBatch]) := by
  obtain ⟨h1, h2, h3⟩ := State.lightPixels_spec (s.emit .startDrawBatch) pixels
    (by rw [hp]; exact nodup_spritePixels _ _ _ _ (by simpa using hn))
  simp only [State.pixel_emit] at h1 h2 h3
  refine ⟨fun px py => ?_, ?_, ?_⟩
  · rw [← h1, hp]; rfl
  · rw [← h2, hp]; simp [State.draw]
  · have ht : (s.draw x y n).trace =
        ((s.emit .startDrawBatch).lightPixels pixels).1.trace ++ [.finishDrawBatch] := by rw [hp]; rfl
    rw [ht, h3]; simp [State.emit]

end Sys2Proof.Machine
end

