-- ==== Sys2Proof/Laws/Exec.lean ====
section
/-!
SUPPORT. What an instruction can do, said once: it takes a fault, or it advances, or it jumps, or it suspends (R111), and
the state it does so from keeps the machine's control state. Proofs over all instructions cite `exec_cases` and never
unfold the meanings.
-/

namespace Sys2Proof.Machine

/-- What every instruction's effect keeps before its outcome is applied: everything that no instruction writes but
through its outcome, and the canonical form of memory. -/
structure KeepsControl (s u : State) : Prop where
  params : u.params = s.params
  pc : u.pc = s.pc
  status : u.status = s.status
  pending : u.pending = s.pending
  keys : u.keys = s.keys
  fault : u.fault = s.fault
  faultLog : u.faultLog = s.faultLog
  hostReplies : u.hostReplies = s.hostReplies
  schedule : u.schedule = s.schedule
  turn : u.turn = s.turn
  cpuWait : u.cpuWait = s.cpuWait
  dtPhase : u.dtPhase = s.dtPhase ∨ u.dtPhase = s.reload s.dtPhase
  stPhase : u.stPhase = s.stPhase ∨ u.stPhase = s.reload s.stPhase
  trace : s.trace <+: u.trace
  memWf : s.memWf → u.memWf

/-- The four ends of an instruction (R111). -/
inductive ExecEnd (i : Instr) (s t : State) : Prop where
  /-- Outcome Fault: the fault taken from the state before the instruction (R231). -/
  | fault (c : FaultCause) (h : t = s.raise c)
  /-- Outcomes Next and Skip: a sequential advance by 2 or 4 (R112). -/
  | advance (u : State) (p : Nat) (keeps : KeepsControl s u) (stack : u.stack = s.stack)
      (distance : p = s.pc.toNat + 2 ∨ p = s.pc.toNat + 4) (h : t = u.advanceTo p)
  /-- Outcome Return: the top of the stack popped, and the advance from it (R112, R141). -/
  | returned (u : State) (r : Word) (keeps : KeepsControl s u) (stack : s.stack = r :: u.stack)
      (h : t = u.advanceTo (r.toNat + 2))
  /-- Outcome Jump: a checked target, the stack kept or the CALL's own address pushed (R140, R143). -/
  | jumped (u : State) (p : Nat) (keeps : KeepsControl s u)
      (stack : u.stack = s.stack ∨ (u.stack = s.pc :: s.stack ∧ s.stack.length < 16))
      (inside : p ≤ 0xFFF) (even : p % 2 = 0) (h : t = u.jump p)
  /-- Outcome Suspend: the wait for a key, with pc kept (R214). -/
  | suspended (x : Reg) (hi : i = .ldVxK x) (h : t = { s with pending := some x })

theorem KeepsControl.refl (s : State) : KeepsControl s s where
  params := rfl
  pc := rfl
  status := rfl
  pending := rfl
  keys := rfl
  fault := rfl
  faultLog := rfl
  hostReplies := rfl
  schedule := rfl
  turn := rfl
  cpuWait := rfl
  dtPhase := .inl rfl
  stPhase := .inl rfl
  trace := List.prefix_rfl
  memWf := id

/-- A write of registers, of I, of the stack or of the count of draws keeps the control state. -/
theorem KeepsControl.of_registers (s : State) (v : Vector Byte 16) (i : Word) (stack : List Word) (n : Nat) :
    KeepsControl s { s with v := v, i := i, stack := stack, rngDraws := n } where
  params := rfl
  pc := rfl
  status := rfl
  pending := rfl
  keys := rfl
  fault := rfl
  faultLog := rfl
  hostReplies := rfl
  schedule := rfl
  turn := rfl
  cpuWait := rfl
  dtPhase := .inl rfl
  stPhase := .inl rfl
  trace := List.prefix_rfl
  memWf := id

/-- Bytes written where the address check passed keep the control state. -/
theorem KeepsControl.of_writeBytes (s : State) (a : Nat) (xs : List Byte) (h : a + xs.length ≤ memSize) :
    KeepsControl s (s.writeBytes a xs) where
  params := by simp
  pc := by simp
  status := by simp
  pending := by simp
  keys := by simp
  fault := by simp
  faultLog := by simp
  hostReplies := by simp
  schedule := by simp
  turn := by simp
  cpuWait := by simp
  dtPhase := .inl (by simp)
  stPhase := .inl (by simp)
  trace := by simp
  memWf := fun hw => State.memWf_writeBytes hw a xs h

theorem State.lightPixels_trace_prefix (s : State) (ps : List (Fin 64 × Fin 32)) :
    s.trace <+: (s.lightPixels ps).1.trace := by
  induction ps generalizing s with
  | nil => exact List.prefix_rfl
  | cons p ps ih =>
    exact (List.prefix_append s.trace [.lightPixel p.1 p.2 (s.pixel p.1 p.2)]).trans (ih (s.lightPixel p.1 p.2))

theorem State.draw_trace_prefix (s : State) (x y : Reg) (n : Nat) : s.trace <+: (s.draw x y n).trace :=
  ((List.prefix_append s.trace [.startDrawBatch]).trans
    (State.lightPixels_trace_prefix (s.emit .startDrawBatch) _)).trans
    (List.prefix_append _ [DeviceEvent.finishDrawBatch])

theorem KeepsControl.of_draw (s : State) (x y : Reg) (n : Nat) : KeepsControl s (s.draw x y n) := by
  have ht := State.draw_trace_prefix s x y n
  rw [State.draw_frame]
  exact {
    params := rfl, pc := rfl, status := rfl, pending := rfl, keys := rfl, fault := rfl, faultLog := rfl
    hostReplies := rfl, schedule := rfl, turn := rfl, cpuWait := rfl, dtPhase := .inl rfl, stPhase := .inl rfl, trace := ht
    memWf := id }

theorem KeepsControl.of_setDelay (s : State) (b : Byte) : KeepsControl s (s.setDelay b) where
  params := by simp
  pc := by simp
  status := by simp
  pending := by simp
  keys := by simp
  fault := by simp
  faultLog := by simp
  hostReplies := by simp
  schedule := by simp
  turn := by simp
  cpuWait := by simp
  dtPhase := by unfold State.setDelay; split <;> simp
  stPhase := .inl (by simp)
  trace := by simp
  memWf := fun h => by simpa [State.memWf] using h

theorem KeepsControl.of_setSound (s : State) (b : Byte) : KeepsControl s (s.setSound b) where
  params := by simp
  pc := by simp
  status := by simp
  pending := by simp
  keys := by simp
  fault := by simp
  faultLog := by simp
  hostReplies := by simp
  schedule := by simp
  turn := by simp
  cpuWait := by simp
  dtPhase := .inl (by simp)
  stPhase := by unfold State.setSound; split <;> simp
  trace := by simp
  memWf := fun h => by simpa [State.memWf] using h

/-- An effect that keeps the control state and the stack, followed by outcome Next. -/
theorem ExecEnd.of_next {i : Instr} {s u : State} (h : KeepsControl s u) (hs : u.stack = s.stack) :
    ExecEnd i s u.next :=
  .advance u (s.pc.toNat + 2) h hs (.inl rfl) (by rw [State.next, h.pc])

theorem ExecEnd.of_skipIf {i : Instr} (s : State) (c : Bool) : ExecEnd i s (s.skipIf c) := by
  cases c
  · exact .advance s (s.pc.toNat + 2) (.refl s) rfl (.inl rfl) rfl
  · exact .advance s (s.pc.toNat + 4) (.refl s) rfl (.inr rfl) rfl

theorem ExecEnd.of_writeReg {i : Instr} {s t : State} {x : Reg} {b : Byte} (h : s.writeReg x b = .next t) :
    ExecEnd i s t := by
  cases h
  exact .of_next (.of_registers s (s.setReg x b).v s.i s.stack s.rngDraws) rfl

theorem ExecEnd.of_writeRegFlag {i : Instr} {s t : State} {x : Reg} {b f : Byte}
    (h : s.writeRegFlag x b f = .next t) : ExecEnd i s t := by
  cases h
  exact .of_next (.of_registers s ((s.setReg x b).setFlag f).v s.i s.stack s.rngDraws) rfl

/-- Under a check: the fault that it names, or the effect's own end. -/
theorem ExecEnd.of_unlessFault {i : Instr} {s : State} (check : Option FaultCause) {effect : State}
    (h : check = none → ExecEnd i s effect) : ExecEnd i s (s.unlessFault check effect) := by
  rcases State.unlessFault_cases s effect check with ⟨c, -, hc⟩ | ⟨hn, he⟩
  · exact .fault c hc
  · rw [he]; exact h hn

/-- The address check of n bytes through I passes only where all of them lie in memory (R64). -/
theorem State.checkAddresses_none {s : State} {n : Nat} (h : s.checkAddresses n = none) : s.base + n ≤ memSize := by
  rw [State.checkAddresses_eq] at h
  split at h
  · assumption
  · exact absurd h (by simp)

/-- WHAT AN INSTRUCTION CAN DO: if `exec` answers a next state, it is one of the four ends of R111. -/
theorem exec_cases {i : Instr} {s t : State} (h : exec i s = .next t) : ExecEnd i s t := by
  cases i <;> simp only [exec] at h
  case cls =>
    cases h
    refine .of_next (u := s.clearDisplay) ?_ rfl
    exact {
      params := rfl, pc := rfl, status := rfl, pending := rfl, keys := rfl, fault := rfl, faultLog := rfl
      hostReplies := rfl, schedule := rfl, turn := rfl, cpuWait := rfl, dtPhase := .inl rfl, stPhase := .inl rfl
      trace := List.prefix_append _ _, memWf := id }
  case ret =>
    unfold execRet at h
    split at h
    · cases h; exact .fault _ rfl
    · next r rest hst =>
      cases h
      exact .returned { s with stack := rest } r (.of_registers s s.v s.i rest s.rngDraws) hst rfl
  case jp nnn =>
    cases h
    exact .of_unlessFault _ fun hc =>
      .jumped s nnn.toNat (.refl s) (.inl rfl) (checkTarget_none hc).1 (checkTarget_none hc).2 rfl
  case call nnn =>
    unfold execCall at h
    split at h
    · cases h; exact .fault _ rfl
    · next hlen =>
      cases h
      exact .of_unlessFault _ fun hc =>
        .jumped { s with stack := s.pc :: s.stack } nnn.toNat (.of_registers s s.v s.i (s.pc :: s.stack) s.rngDraws)
          (.inr ⟨rfl, by omega⟩) (checkTarget_none hc).1 (checkTarget_none hc).2 rfl
  case jpV0Nnn nnn =>
    cases h
    exact .of_unlessFault _ fun hc =>
      .jumped s _ (.refl s) (.inl rfl) (checkTarget_none hc).1 (checkTarget_none hc).2 rfl
  case seVxKk x kk => cases h; exact .of_skipIf s _
  case sneVxKk x kk => cases h; exact .of_skipIf s _
  case seVxVy x y => cases h; exact .of_skipIf s _
  case sneVxVy x y => cases h; exact .of_skipIf s _
  case ldVxKk x kk => exact .of_writeReg h
  case addVxKk x kk => exact .of_writeReg h
  case ldVxVy x y => exact .of_writeReg h
  case orVxVy x y => exact .of_writeReg h
  case andVxVy x y => exact .of_writeReg h
  case xorVxVy x y => exact .of_writeReg h
  case addVxVy x y => exact .of_writeRegFlag h
  case shrVxVy x y => exact .of_writeRegFlag h
  case subVxVy x y => exact .of_writeRegFlag h
  case shlVxVy x y => exact .of_writeRegFlag h
  case subnVxVy x y => exact .of_writeRegFlag h
  case rndVxKk x kk =>
    cases h
    exact .of_next (.of_registers s (s.setReg x _).v s.i s.stack (s.rngDraws + 1)) rfl
  case ldINnn nnn => cases h; exact .of_next (.of_registers s s.v _ s.stack s.rngDraws) rfl
  case addIVx x => cases h; exact .of_next (.of_registers s s.v _ s.stack s.rngDraws) rfl
  case ldFVx x =>
    cases h
    exact .of_unlessFault _ fun _ => .of_next (.of_registers s s.v _ s.stack s.rngDraws) rfl
  case ldBVx x =>
    cases h
    refine .of_unlessFault _ fun hc => .of_next (.of_writeBytes s _ _ ?_) (by simp)
    exact State.checkAddresses_none hc
  case ldMemVx x =>
    cases h
    refine .of_unlessFault _ fun hc => .of_next ?_ (by simp)
    have hk := KeepsControl.of_writeBytes s s.base (s.v.toList.take (x.val + 1)) (by
      have := State.checkAddresses_none hc
      have := x.isLt
      simp; omega)
    exact {
      params := hk.params, pc := hk.pc, status := hk.status, pending := hk.pending, keys := hk.keys
      fault := hk.fault, faultLog := hk.faultLog, hostReplies := hk.hostReplies, schedule := hk.schedule
      turn := hk.turn
      cpuWait := hk.cpuWait, dtPhase := hk.dtPhase, stPhase := hk.stPhase, trace := hk.trace, memWf := hk.memWf }
  case ldVxMem x =>
    cases h
    exact .of_unlessFault _ fun _ =>
      .of_next (.of_registers s (s.loadRegs x).v (BitVec.ofNat 16 (s.i.toNat + x.val + 1)) s.stack s.rngDraws) rfl
  case drwVxVyN x y n =>
    cases h
    exact .of_unlessFault _ fun _ => .of_next (.of_draw s x y n.val) (by rw [State.draw_frame])
  case skpVx x => cases h; exact .of_unlessFault _ fun _ => .of_skipIf s _
  case sknpVx x => cases h; exact .of_unlessFault _ fun _ => .of_skipIf s _
  case ldVxDt x => cases h; exact .of_next (.of_registers s (s.setReg x s.dt).v s.i s.stack s.rngDraws) rfl
  case ldVxK x => cases h; exact .suspended x rfl rfl
  case ldDtVx x => cases h; exact .of_next (.of_setDelay s _) (by simp)
  case ldStVx x => cases h; exact .of_next (.of_setSound s _) (by simp)

end Sys2Proof.Machine
end

