-- ==== Sys2Proof/Laws/PerInstr.lean ====
section
/-!
SUPPORT. Laws about every instruction as syntax, one lemma for each constructor. EncodeDecode: each word that decodes to
the instruction is the instruction's own word, so no word has a second meaning and no instruction a second word.
-/

namespace Sys2Proof.Laws.EncodeDecode

/-- In each layout, the only word that decodes to the instruction is its encoding (R94, R97). -/
def Statement (i : Instr) : Prop := ∀ (layout : AluLayout) (w : Word), decode layout w = .ok i → encode layout i = w

theorem cls : Statement (.cls) := fun _ _ => encode_of_decode

theorem ret : Statement (.ret) := fun _ _ => encode_of_decode

theorem jp (nnn : Addr) : Statement (.jp nnn) := fun _ _ => encode_of_decode

theorem call (nnn : Addr) : Statement (.call nnn) := fun _ _ => encode_of_decode

theorem seVxKk (x : Reg) (kk : Byte) : Statement (.seVxKk x kk) := fun _ _ => encode_of_decode

theorem sneVxKk (x : Reg) (kk : Byte) : Statement (.sneVxKk x kk) := fun _ _ => encode_of_decode

theorem seVxVy (x y : Reg) : Statement (.seVxVy x y) := fun _ _ => encode_of_decode

theorem ldVxKk (x : Reg) (kk : Byte) : Statement (.ldVxKk x kk) := fun _ _ => encode_of_decode

theorem addVxKk (x : Reg) (kk : Byte) : Statement (.addVxKk x kk) := fun _ _ => encode_of_decode

theorem ldVxVy (x y : Reg) : Statement (.ldVxVy x y) := fun _ _ => encode_of_decode

theorem orVxVy (x y : Reg) : Statement (.orVxVy x y) := fun _ _ => encode_of_decode

theorem andVxVy (x y : Reg) : Statement (.andVxVy x y) := fun _ _ => encode_of_decode

theorem xorVxVy (x y : Reg) : Statement (.xorVxVy x y) := fun _ _ => encode_of_decode

theorem addVxVy (x y : Reg) : Statement (.addVxVy x y) := fun _ _ => encode_of_decode

theorem shrVxVy (x y : Reg) : Statement (.shrVxVy x y) := fun _ _ => encode_of_decode

theorem subVxVy (x y : Reg) : Statement (.subVxVy x y) := fun _ _ => encode_of_decode

theorem shlVxVy (x y : Reg) : Statement (.shlVxVy x y) := fun _ _ => encode_of_decode

theorem subnVxVy (x y : Reg) : Statement (.subnVxVy x y) := fun _ _ => encode_of_decode

theorem sneVxVy (x y : Reg) : Statement (.sneVxVy x y) := fun _ _ => encode_of_decode

theorem ldINnn (nnn : Addr) : Statement (.ldINnn nnn) := fun _ _ => encode_of_decode

theorem jpV0Nnn (nnn : Addr) : Statement (.jpV0Nnn nnn) := fun _ _ => encode_of_decode

theorem rndVxKk (x : Reg) (kk : Byte) : Statement (.rndVxKk x kk) := fun _ _ => encode_of_decode

theorem drwVxVyN (x y : Reg) (n : Fin 16) : Statement (.drwVxVyN x y n) := fun _ _ => encode_of_decode

theorem skpVx (x : Reg) : Statement (.skpVx x) := fun _ _ => encode_of_decode

theorem sknpVx (x : Reg) : Statement (.sknpVx x) := fun _ _ => encode_of_decode

theorem ldVxDt (x : Reg) : Statement (.ldVxDt x) := fun _ _ => encode_of_decode

theorem ldVxK (x : Reg) : Statement (.ldVxK x) := fun _ _ => encode_of_decode

theorem ldDtVx (x : Reg) : Statement (.ldDtVx x) := fun _ _ => encode_of_decode

theorem ldStVx (x : Reg) : Statement (.ldStVx x) := fun _ _ => encode_of_decode

theorem addIVx (x : Reg) : Statement (.addIVx x) := fun _ _ => encode_of_decode

theorem ldFVx (x : Reg) : Statement (.ldFVx x) := fun _ _ => encode_of_decode

theorem ldBVx (x : Reg) : Statement (.ldBVx x) := fun _ _ => encode_of_decode

theorem ldMemVx (x : Reg) : Statement (.ldMemVx x) := fun _ _ => encode_of_decode

theorem ldVxMem (x : Reg) : Statement (.ldVxMem x) := fun _ _ => encode_of_decode

end Sys2Proof.Laws.EncodeDecode
end

