-- ==== Sys2Proof/Laws/Step.lean ====
section
/-!
SUPPORT. What a step can do, said once: it is one agent's step from the state with or without the schedule's head taken
off, and the CPU's step is an instruction's end, the fault of an invalid word, or nothing.
-/

namespace Sys2Proof.Machine

/-! ### When an agent has a step -/

theorem State.cpuEnabled_iff (s : State) : s.cpuEnabled = true ↔ CpuReady s := by
  unfold State.cpuEnabled CpuReady State.timed
  cases s.status <;> cases s.pending <;> cases s.params.timing <;> simp

theorem State.timersEnabled_iff (s : State) : s.timersEnabled = true ↔ TimersOn s := by
  unfold State.timersEnabled TimersOn
  cases s.status <;> cases s.pending <;> cases s.params.waitFreezesTimers <;> simp

theorem State.delayEnabled_iff (s : State) : s.delayEnabled = true ↔ DelayReady s := by
  unfold State.delayEnabled DelayReady State.timed
  rw [← s.timersEnabled_iff]
  cases s.dtRun <;> cases s.timersEnabled <;> cases s.params.timing <;> simp

theorem State.soundEnabled_iff (s : State) : s.soundEnabled = true ↔ SoundReady s := by
  unfold State.soundEnabled SoundReady State.timed
  rw [← s.timersEnabled_iff]
  cases s.stRun <;> cases s.timersEnabled <;> cases s.params.timing <;> simp

theorem State.clockEnabled_iff (s : State) :
    s.clockEnabled = true ↔ s.params.timing = .timed ∧ ¬CpuReady s ∧ ¬DelayReady s ∧ ¬SoundReady s := by
  rw [← s.cpuEnabled_iff, ← s.delayEnabled_iff, ← s.soundEnabled_iff]
  unfold State.clockEnabled State.timed
  cases s.params.timing <;> simp [and_assoc]

theorem State.fetchable_iff (s : State) : s.fetchable = true ↔ PcOk s := by
  simp [State.fetchable, PcOk, memSize]; omega

/-- The advance of an effect that keeps the run's state is the sequential advance of R112 with the policy of R114. -/
theorem State.advanced_advanceTo {s u : State} (p : Nat) (status : u.status = s.status) (dtRun : u.dtRun = s.dtRun)
    (stRun : u.stRun = s.stRun) : Advanced s (u.advanceTo p) p := by
  refine ⟨by simp, ?_⟩
  split
  · next h => simp [State.advanceTo_inside _ h, status, dtRun, stRun]
  · next h => simp [State.advanceTo_past _ (Nat.lt_of_not_le h)]

/-! ### What a step can do -/

/-- WHAT THE CPU'S CYCLE CAN DO (R110): an instruction of the decoded word, with the prescaler after it, or the fault
InvalidOpcode; and the fetch was inside memory. -/
theorem cpuStep_cases {s t : State} (h : cpuStep s = .next t) :
    s.fetchable = true ∧
      ((∃ i u, decode s.params.aluLayout s.fetchWord = .ok i ∧ exec i s = .next u ∧ t = u.bill i) ∨
        ((∃ e, decode s.params.aluLayout s.fetchWord = .error e) ∧
          t = s.raise (.invalidOpcode (hiByte s.fetchWord) (loByte s.fetchWord)))) := by
  unfold cpuStep at h
  split at h
  · next hf =>
    refine ⟨hf, ?_⟩
    split at h
    · next i hd =>
      cases hx : exec i s with
      | next u => rw [hx] at h; cases h; exact .inl ⟨i, u, hd, hx, rfl⟩
      | fault r => rw [hx] at h; cases h
      | refused r => rw [hx] at h; cases h
    · next e hd => cases h; exact .inr ⟨⟨e, hd⟩, rfl⟩
  · cases h

theorem State.agentEnabled_eq_hasStep (s : State) (a : Agent) : s.agentEnabled a = s.hasStep a.event := by
  cases a <;> rfl

@[simp] theorem State.passTurn_hasStep (s : State) (a : Agent) (e : Event) : (s.passTurn a).hasStep e = s.hasStep e := by
  cases e <;> rfl

/-- The agent that moves has a step, and none that is asked before it has one. -/
theorem State.idleAgent_some {s : State} {a : Agent} (h : s.idleAgent = some a) :
    s.hasStep a.event = true ∧
      ∃ pre post, s.turn.order = pre ++ a :: post ∧ ∀ b ∈ pre, s.hasStep b.event = false := by
  obtain ⟨ha, pre, post, ho, hpre⟩ := List.find?_eq_some_iff_append.mp h
  exact ⟨by rw [← s.agentEnabled_eq_hasStep]; exact ha, pre, post, ho, fun b hb => by
    rw [← s.agentEnabled_eq_hasStep]; simpa using hpre b hb⟩

/-- No agent moves only if none of the three has a step. -/
theorem State.idleAgent_none {s : State} (h : s.idleAgent = none) (a : Agent) : s.hasStep a.event = false := by
  rw [← s.agentEnabled_eq_hasStep]
  have hall := List.find?_eq_none.mp h
  have hmem : a ∈ s.turn.order := by cases s.turn <;> cases a <;> decide
  simpa using hall a hmem

/-- With an event at the head of the schedule the step is its agent's, and the event is used up. -/
theorem step_of_schedule {s : State} {e : Event} {rest : List Event} (h : s.schedule = e :: rest) :
    step s = agentStep e { s with schedule := rest } := by
  simp [step, h, scheduledStep]

/-- With an empty schedule the step is the agent's that the turns give, and the turn is passed on. -/
theorem step_of_idleAgent {s : State} {a : Agent} (h : s.schedule = []) (ha : s.idleAgent = some a) :
    step s = agentStep a.event (s.passTurn a) := by
  simp [step, h, idleStep, ha]

/-- No agent's step touches the schedule or the turn. -/
theorem agentStep_keeps_order {e : Event} {s t : State} (h : agentStep e s = .next t) :
    t.schedule = s.schedule ∧ t.turn = s.turn := by
  cases e with
  | cpu =>
    simp only [agentStep] at h
    split at h
    · obtain ⟨-, ⟨i, u, -, hx, rfl⟩ | ⟨-, rfl⟩⟩ := cpuStep_cases h
      · have hu : u.schedule = s.schedule ∧ u.turn = s.turn := by
          cases exec_cases hx with
          | fault c h => rw [h]; exact ⟨rfl, rfl⟩
          | advance u p keeps _ _ h => rw [h]; simp [keeps.schedule, keeps.turn]
          | returned u r keeps _ h => rw [h]; simp [keeps.schedule, keeps.turn]
          | jumped u p keeps _ _ _ h => rw [h]; simp [keeps.schedule, keeps.turn]
          | suspended x _ h => rw [h]; exact ⟨rfl, rfl⟩
        unfold State.bill; split
        · exact hu
        · simpa using hu
      · exact ⟨rfl, rfl⟩
    · cases h; exact ⟨rfl, rfl⟩
  | delayTick => cases h; split <;> simp
  | soundTick => cases h; split <;> simp
  | clock => cases h; split <;> exact ⟨rfl, rfl⟩
  | keyDown k =>
    cases h; unfold State.keyDown State.pressKey State.resolveWait State.next
    split <;> [split; skip] <;> simp
  | keyUp k => cases h; unfold State.keyUp State.releaseKey; split <;> simp
  | keyDownMalformed | keyUpMalformed => cases h; exact ⟨rfl, rfl⟩
  | host c =>
    cases h
    cases c <;>
      simp only [State.command, State.hostLoad, State.hostPause, State.hostResume, State.hostStop, State.load,
        State.teardown]
    case load P => split <;> [skip; split] <;> simp
    case loadMalformed => exact ⟨rfl, rfl⟩
    all_goals split <;> simp

/-- WHAT A STEP CAN DO: the step of one agent, on the state with its turn passed on, on the state itself (the clock), or on
the state with the head of the schedule used up. -/
theorem step_cases {s t : State} (h : step s = .next t) :
    ∃ e s0, (s0 = s ∨ (∃ a, s0 = s.passTurn a) ∨ ∃ rest, s.schedule = e :: rest ∧ s0 = { s with schedule := rest }) ∧
      agentStep e s0 = .next t := by
  unfold step at h
  split at h
  · unfold idleStep at h
    split at h
    · next a _ => exact ⟨a.event, s.passTurn a, .inr (.inl ⟨a, rfl⟩), h⟩
    · split at h
      · next he =>
        have hc : s.clockEnabled = true := (Bool.and_eq_true_iff.mp he).1
        exact ⟨.clock, s, .inl rfl, by simpa [agentStep, hc] using h⟩
      · cases h
  · next e rest hs => exact ⟨e, { s with schedule := rest }, .inr (.inr ⟨rest, hs, rfl⟩), h⟩

end Sys2Proof.Machine
end

