-- ==== Sys2Proof/Tests/Slice0.lean ====
section
/-!
SUPPORT. The model's own tests. Every expected value is one of the spec's: the vectors of 95_test_vectors.md, cited by
their ids, or a rule's own words. After the tests stand the witnesses: for each statement with hypotheses, concrete
states and operands that meet them, at the ends of the ranges that its clauses name.
-/

namespace Sys2Proof.Tests

open Sys2Proof.Machine

/-! ### Small states -/

/-- A state with some registers set. -/
def withV (s : State) (values : List (Reg × Byte)) : State := values.foldl (fun t p => t.setReg p.1 p.2) s

/-- The state after reset with some registers set. -/
def regs (values : List (Reg × Byte)) : State := withV State.reset values

/-- The same state under the CLASSIC layout. -/
def classic (s : State) : State := { s with params := { s.params with aluLayout := .classic } }

/-- The same state under SHIFT_SOURCE = X. -/
def shiftX (s : State) : State := { s with params := { s.params with shiftSource := .x } }

/-- The same state under the TIMED profile. -/
def timed (s : State) : State := { s with params := { s.params with timing := .timed } }

/-- The same state under WAIT_FREEZES_TIMERS = false. -/
def unfrozen (s : State) : State := { s with params := { s.params with waitFreezesTimers := false } }

/-- A check of the state that one step of the machine gives on a word placed at pc. -/
def runs (s : State) (w : Nat) (check : State → Bool) : Bool :=
  match step (s.withFetchWord 16 w) with
  | .next t => check t
  | .fault _ => false
  | .refused _ => false

/-- A check of the state that one step of an agent gives. -/
def moves (s : State) (e : Event) (check : State → Bool) : Bool :=
  match agentStep e s with
  | .next t => check t
  | .fault _ => false
  | .refused _ => false

/-- The state is Faulted with this cause, recorded with this pc, which pc still holds. -/
def faulted (t : State) (cause : FaultCause) (pc : Word) : Bool :=
  t.status == .faulted && t.fault == some ⟨cause, pc⟩ && t.pc == pc

/-! ### Well-formedness -/

theorem test_subn_is_ill_formed_in_doc : (Instr.subnVxVy 1 2).wellFormed .doc = false := by decide

theorem test_subn_is_well_formed_in_classic : (Instr.subnVxVy 1 2).wellFormed .classic = true := by decide

/-! ### Decoding: one word for each constructor, written out from its encoding -/

theorem test_decode_display :
    decode .doc 0x00E0 = .ok .cls ∧ decode .doc 0xD125 = .ok (.drwVxVyN 1 2 5) := by decide

theorem test_decode_control :
    decode .doc 0x00EE = .ok .ret ∧ decode .doc 0x1228 = .ok (.jp 0x228) ∧ decode .doc 0x2300 = .ok (.call 0x300) ∧
      decode .doc 0x3310 = .ok (.seVxKk 3 0x10) ∧ decode .doc 0x4310 = .ok (.sneVxKk 3 0x10) ∧
      decode .doc 0x5120 = .ok (.seVxVy 1 2) ∧ decode .doc 0x9120 = .ok (.sneVxVy 1 2) ∧
      decode .doc 0xB300 = .ok (.jpV0Nnn 0x300) := by decide

theorem test_decode_loads_and_logic :
    decode .doc 0x6AFF = .ok (.ldVxKk 10 0xFF) ∧ decode .doc 0x7220 = .ok (.addVxKk 2 0x20) ∧
      decode .doc 0x8120 = .ok (.ldVxVy 1 2) ∧ decode .doc 0x8121 = .ok (.orVxVy 1 2) ∧
      decode .doc 0x8122 = .ok (.andVxVy 1 2) ∧ decode .doc 0x8123 = .ok (.xorVxVy 1 2) ∧
      decode .doc 0x8124 = .ok (.addVxVy 1 2) ∧ decode .doc 0xC70F = .ok (.rndVxKk 7 0x0F) := by decide

theorem test_decode_alu_of_doc :
    decode .doc 0x8125 = .ok (.shrVxVy 1 2) ∧ decode .doc 0x8126 = .ok (.subVxVy 1 2) ∧
      decode .doc 0x8127 = .ok (.shlVxVy 1 2) ∧ decode .doc 0x812E = .error (.invalidOpcode 0x81 0x2E) := by decide

theorem test_decode_alu_of_classic :
    decode .classic 0x8125 = .ok (.subVxVy 1 2) ∧ decode .classic 0x8126 = .ok (.shrVxVy 1 2) ∧
      decode .classic 0x8127 = .ok (.subnVxVy 1 2) ∧ decode .classic 0x812E = .ok (.shlVxVy 1 2) := by decide

theorem test_decode_address_and_memory :
    decode .doc 0xA21E = .ok (.ldINnn 0x21E) ∧ decode .doc 0xF21E = .ok (.addIVx 2) ∧
      decode .doc 0xF329 = .ok (.ldFVx 3) ∧ decode .doc 0xF033 = .ok (.ldBVx 0) ∧
      decode .doc 0xF255 = .ok (.ldMemVx 2) ∧ decode .doc 0xF265 = .ok (.ldVxMem 2) := by decide

theorem test_decode_keys_and_timers :
    decode .doc 0xE59E = .ok (.skpVx 5) ∧ decode .doc 0xE5A1 = .ok (.sknpVx 5) ∧
      decode .doc 0xF307 = .ok (.ldVxDt 3) ∧ decode .doc 0xF40A = .ok (.ldVxK 4) ∧
      decode .doc 0xF115 = .ok (.ldDtVx 1) ∧ decode .doc 0xF218 = .ok (.ldStVx 2) := by decide

/-- The invalid words that R97, L2-0-2 and L2-E-4 name. -/
theorem test_invalid_words :
    ([0x0000, 0x0123, 0x01E0, 0x01EE, 0x00E1, 0x00FF, 0x5121, 0x901F, 0xE19F, 0xE09F, 0xE0A2, 0xF165, 0xF0FF] :
      List Word).map (fun w => (decode .doc w).isOk) =
    [false, false, false, false, false, false, false, false, false, false, false, true, false] := by decide

/-- R97 lists 0xF165 among the invalid words, but its own row (F x 65) accepts it: the row wins (log 29). -/
theorem test_the_row_accepts_f165 : decode .doc 0xF165 = .ok (.ldVxMem 1) := by decide

theorem test_encode_is_the_word :
    encode .doc (.shlVxVy 1 2) = 0x8127 ∧ encode .classic (.shlVxVy 1 2) = 0x812E ∧
      encode .doc (.drwVxVyN 1 2 5) = 0xD125 ∧ encode .doc (.ldVxMem 2) = 0xF265 := by decide

/-- 33 rows in DOC and 34 in CLASSIC (R95, R96, C1). -/
theorem test_row_counts : (opcodeRows .doc).length = 33 ∧ (opcodeRows .classic).length = 34 := by decide

theorem test_table_word : decodeTableWord 16 0x8126 = some (.subVxVy 1 2) ∧ decodeTableWord 16 0x801E = none := by
  decide

/-- The high byte lies at the lower address (R62). -/
theorem test_fetch_is_big_endian :
    (State.reset.withFetchWord 16 0x6005).readByte 0x200 = 0x60 ∧
      (State.reset.withFetchWord 16 0x6005).readByte 0x201 = 0x05 := by decide

/-- The default font stands at 0 (R45), and 0x050 and up is zero (R61). -/
theorem test_font_is_in_memory :
    State.reset.readByte 0 = 0xF0 ∧ State.reset.readByte 0x4F = 0x80 ∧ State.reset.readByte 0x50 = 0 := by decide

/-! ### Display -/

/-- L2-0-1. -/
theorem test_cls :
    runs ((regs [(15, 1)]).togglePixel 5 5 |>.togglePixel 63 31) 0x00E0 (fun t =>
      !t.pixel 5 5 && !t.pixel 63 31 && t.trace == [.clear] && t.pc == 0x202 && t.reg 15 == 1) = true := by decide

/-- L2-D1, the first draw. -/
theorem test_drw_glyph_zero :
    runs State.reset 0xD015 (fun t => t.reg 15 == 0 && t.pixel 0 0 && t.pixel 3 4 && !t.pixel 1 1 && t.pc == 0x202 &&
      t.trace == .startDrawBatch ::
        ([(0, 0), (1, 0), (2, 0), (3, 0), (0, 1), (3, 1), (0, 2), (3, 2), (0, 3), (3, 3), (0, 4), (1, 4), (2, 4),
          (3, 4)].map fun p => .lightPixel p.1 p.2 false) ++ [.finishDrawBatch]) = true := by
  decide

/-- L2-D6: three pixels turn on and one turns off. -/
theorem test_drw_collision :
    runs ((regs [(0, 1)]).togglePixel 4 0) 0xD011 (fun t =>
      t.pixel 1 0 && t.pixel 2 0 && t.pixel 3 0 && !t.pixel 4 0 && t.reg 15 == 1) = true := by decide

/-! ### Control flow -/

/-- L2-0-3. -/
theorem test_ret :
    runs { State.reset with stack := [0x204], pc := 0x30A } 0x00EE (fun t => t.stack == [] && t.pc == 0x206) = true := by
  decide

/-- L1-3, and L2-0-4: a return to the CALL at 0xFFE ends the run. -/
theorem test_ret_ends :
    runs State.reset 0x00EE (fun t => faulted t (.stackUnderflow 0x00EE) 0x200) = true ∧
      runs { State.reset with stack := [0xFFE], pc := 0x400, dtRun := true } 0x00EE (fun t =>
        t.stack == [] && t.pc == 0x1000 && t.status == .finished && !t.dtRun) = true := by decide

/-- L2-1-1 and L2-1-4. -/
theorem test_jp :
    runs State.reset 0x1208 (fun t => t.pc == 0x208) = true ∧
      runs State.reset 0x1FFE (fun t => t.pc == 0xFFE && t.status == .running) = true := by decide

/-- L2-1-3. -/
theorem test_jp_odd : runs State.reset 0x1201 (fun t => faulted t (.pcMisaligned 0x201) 0x200) = true := by decide

/-- L2-2-1 and L2-2-2. -/
theorem test_call :
    runs { State.reset with pc := 0x202 } 0x2300 (fun t => t.stack == [0x202] && t.pc == 0x300) = true ∧
      runs State.reset 0x2301 (fun t => faulted t (.pcMisaligned 0x301) 0x200 && t.stack == []) = true := by decide

/-- L2-2-3 and L2-2-4: the full stack is reported, with an even and with an odd target. -/
theorem test_call_full :
    runs { State.reset with stack := List.replicate 16 0x200 } 0x2300 (fun t =>
        faulted t (.stackOverflow 0x200) 0x200 && t.stack.length == 16) = true ∧
      runs { State.reset with stack := List.replicate 16 0x200 } 0x2301 (fun t =>
        faulted t (.stackOverflow 0x200) 0x200) = true := by decide

/-- The table of families 3, 4, 5 and 9 (95_test_vectors.md). -/
theorem test_immediate_skips :
    runs (regs [(0, 5)]) 0x3005 (fun t => t.pc == 0x204) = true ∧
      runs (regs [(0, 6)]) 0x3005 (fun t => t.pc == 0x202) = true ∧
      runs (regs [(0, 5)]) 0x4005 (fun t => t.pc == 0x202) = true ∧
      runs (regs [(0, 6)]) 0x4005 (fun t => t.pc == 0x204) = true := by decide

theorem test_register_skips :
    runs (regs [(0, 0x11), (1, 0x11)]) 0x5010 (fun t => t.pc == 0x204) = true ∧
      runs (regs [(0, 0x11), (1, 0x12)]) 0x5010 (fun t => t.pc == 0x202) = true ∧
      runs (regs [(0, 0x11), (1, 0x12)]) 0x9010 (fun t => t.pc == 0x204) = true ∧
      runs (regs [(0, 0x11), (1, 0x11)]) 0x9010 (fun t => t.pc == 0x202) = true := by decide

/-- L2-3-2 to L2-3-5: the overflow policy at both ends of memory's last words. -/
theorem test_skips_past_the_end :
    runs { State.reset with pc := 0xFFC } 0x3000 (fun t => t.pc == 0x1000 && t.status == .finished) = true ∧
      runs { State.reset with pc := 0xFFE } 0x3000 (fun t => t.pc == 0x1002 && t.status == .finished) = true ∧
      runs { regs [(0, 1)] with pc := 0xFFE } 0x3000 (fun t => t.pc == 0x1000 && t.status == .finished) = true ∧
      runs { regs [(0, 1)] with pc := 0xFFC } 0x3000 (fun t => t.pc == 0xFFE && t.status == .running) = true := by decide

/-- L2-B-1, L2-B-2 and L2-B-5. -/
theorem test_jp_v0 :
    runs (regs [(0, 2)]) 0xB300 (fun t => t.pc == 0x302) = true ∧
      runs (regs [(0, 1)]) 0xB300 (fun t => faulted t (.pcMisaligned 0x301) 0x200) = true ∧
      runs State.reset 0xBFFE (fun t => t.pc == 0xFFE) = true := by decide

/-- L2-B-3 and L2-B-4: the range before the parity. -/
theorem test_jp_v0_range :
    runs (regs [(0, 0x10)]) 0xBFFF (fun t => faulted t (.pcOutOfRange 0x100F) 0x200) = true ∧
      runs (regs [(0, 0xFF)]) 0xBF01 (fun t => faulted t (.pcOutOfRange 0x1000) 0x200) = true := by decide

/-! ### Register loads and the ALU -/

/-- L2-6-1 and L2-6-2. -/
theorem test_ld_immediate :
    runs State.reset 0x6AFF (fun t => t.reg 10 == 0xFF && t.pc == 0x202) = true ∧
      runs State.reset 0x6F07 (fun t => t.reg 15 == 0x07) = true := by decide

/-- L2-7-1 and L2-7-3. -/
theorem test_add_immediate :
    runs (regs [(10, 0xFF), (15, 1)]) 0x7A01 (fun t => t.reg 10 == 0 && t.reg 15 == 1) = true ∧
      runs (regs [(15, 0xFF)]) 0x7F01 (fun t => t.reg 15 == 0) = true := by decide

theorem test_move_and_logic :
    runs (regs [(1, 0x3C), (15, 1)]) 0x8010 (fun t => t.reg 0 == 0x3C && t.reg 15 == 1) = true ∧
      runs (regs [(0, 0x0F), (1, 0xF0), (15, 1)]) 0x8011 (fun t => t.reg 0 == 0xFF && t.reg 15 == 1) = true ∧
      runs (regs [(0, 0x3C), (1, 0x0F)]) 0x8012 (fun t => t.reg 0 == 0x0C) = true ∧
      runs (regs [(0, 0x3C), (1, 0x0F)]) 0x8013 (fun t => t.reg 0 == 0x33) = true := by decide

/-- L1-4: ADD at the edges of the carry. -/
theorem test_add :
    ([(0x05, 0x03), (0x7F, 0x80), (0x80, 0x80), (0xFF, 0x01), (0xFF, 0xFF)] : List (Byte × Byte)).map
        (fun p => runs (regs [(0, p.1), (1, p.2)]) 0x8014 fun t => (t.reg 0, t.reg 15) ==
          (BitVec.ofNat 8 (p.1.toNat + p.2.toNat), if 255 < p.1.toNat + p.2.toNat then 1 else 0)) =
      List.replicate 5 true := by decide

/-- The flag is written last (R115). -/
theorem test_add_to_vf :
    runs (regs [(15, 0x10), (1, 0xF5)]) 0x8F14 (fun t => t.reg 15 == 1) = true ∧
      runs (regs [(0, 0x10), (15, 1)]) 0x80F4 (fun t => t.reg 0 == 0x11 && t.reg 15 == 0) = true := by decide

/-- L1-5 and the table of family 8, with both values of SHIFT_SOURCE. -/
theorem test_shr :
    runs (regs [(15, 1), (0, 0xFF), (1, 2)]) 0x8015 (fun t => t.reg 0 == 1 && t.reg 15 == 0) = true ∧
      runs (regs [(0, 0xAA), (1, 3)]) 0x8015 (fun t => t.reg 0 == 1 && t.reg 15 == 1) = true ∧
      runs (shiftX (regs [(0, 0xAA), (1, 3)])) 0x8015 (fun t => t.reg 0 == 0x55 && t.reg 15 == 0) = true := by decide

theorem test_shr_to_vf :
    runs (regs [(15, 3)]) 0x8FF5 (fun t => t.reg 15 == 1) = true ∧
      runs (regs [(0, 2)]) 0x8F05 (fun t => t.reg 15 == 0) = true ∧
      runs (classic (regs [(0, 0xAA), (1, 3)])) 0x8016 (fun t => t.reg 0 == 1 && t.reg 15 == 1) = true := by decide

theorem test_sub :
    runs (regs [(0, 5), (1, 5)]) 0x8016 (fun t => t.reg 0 == 0 && t.reg 15 == 1) = true ∧
      runs (regs [(0, 0), (1, 1)]) 0x8016 (fun t => t.reg 0 == 0xFF && t.reg 15 == 0) = true ∧
      runs (regs [(0, 7), (1, 5)]) 0x8016 (fun t => t.reg 0 == 2 && t.reg 15 == 1) = true := by decide

theorem test_sub_of_classic :
    runs (classic (regs [(0, 0), (1, 1)])) 0x8015 (fun t => t.reg 0 == 0xFF && t.reg 15 == 0) = true := by decide

theorem test_shl :
    runs (regs [(1, 0x80)]) 0x8017 (fun t => t.reg 0 == 0 && t.reg 15 == 1) = true ∧
      runs (regs [(1, 0x40)]) 0x8117 (fun t => t.reg 1 == 0x80 && t.reg 15 == 0) = true ∧
      runs (shiftX (regs [(0, 0xAA)])) 0x8017 (fun t => t.reg 0 == 0x54 && t.reg 15 == 1) = true := by decide

theorem test_shl_of_classic :
    runs (classic (regs [(1, 0x81)])) 0x801E (fun t => t.reg 0 == 2 && t.reg 15 == 1) = true := by decide

theorem test_subn :
    runs (classic (regs [(0, 5), (1, 7)])) 0x8017 (fun t => t.reg 0 == 2 && t.reg 15 == 1) = true ∧
      runs (classic (regs [(0, 7), (1, 5)])) 0x8017 (fun t => t.reg 0 == 0xFE && t.reg 15 == 0) = true ∧
      runs (classic (regs [(0, 9), (1, 9)])) 0x8017 (fun t => t.reg 0 == 0 && t.reg 15 == 1) = true := by decide

/-- L2-C-1: the draw 0xA7 masked by 0x0F, whatever the source's byte is otherwise. -/
theorem test_rnd (h : Config.rngByte 0 = 0xA7) :
    runs State.reset 0xC00F (fun t => t.reg 0 == 0x07) = true := by
  show ((Config.rngByte 0 &&& 0x0F : Byte) == 0x07) = true
  rw [h]; decide

/-- Each draw takes the next byte of the source (R276). -/
theorem test_rnd_draws : runs State.reset 0xC00F (fun t => t.rngDraws == 1 && t.pc == 0x202) = true := by decide

/-! ### Address register and memory -/

/-- L2-A-1. -/
theorem test_ld_i : runs State.reset 0xA123 (fun t => t.i == 0x0123) = true := by decide

/-- L2-F1E-1 to L2-F1E-3. -/
theorem test_add_i :
    runs { regs [(2, 0x10), (15, 1)] with i := 0x0300 } 0xF21E (fun t => t.i == 0x0310 && t.reg 15 == 1) = true ∧
      runs { regs [(0, 1)] with i := 0x0FFF } 0xF01E (fun t => t.i == 0x1000) = true ∧
      runs { regs [(0, 1)] with i := 0xFFFF } 0xF01E (fun t => t.i == 0) = true := by decide

/-- L2-F29-1. -/
theorem test_ld_f :
    runs (regs [(3, 0x0A)]) 0xF329 (fun t => t.i == 0x0032) = true ∧
      runs (regs [(3, 0x0F)]) 0xF329 (fun t => t.i == 0x004B) = true := by decide

/-- L2-F29-2. -/
theorem test_ld_f_above_fifteen :
    runs (regs [(3, 0x10)]) 0xF329 (fun t => faulted t (.invalidRegisterValue 3 0x10) 0x200 && t.i == 0) = true := by
  decide

/-- L2-F33-1 (255) and L2-F33-4: the upper 4 bits of I are ignored and kept. -/
theorem test_ld_b :
    runs { regs [(0, 0xFF)] with i := 0x0300 } 0xF033 (fun t => t.readBytes 0x300 3 == [2, 5, 5]) = true ∧
      runs { regs [(0, 0x9C)] with i := 0xF300 } 0xF033 (fun t =>
        t.readBytes 0x300 3 == [1, 5, 6] && t.i == 0xF300) = true := by decide

/-- L2-F33-2 and L2-F33-3: the last region inside memory and the first one past it. -/
theorem test_ld_b_at_the_end :
    runs { regs [(0, 0x7B)] with i := 0x0FFD } 0xF033 (fun t => t.readBytes 0xFFD 3 == [1, 2, 3]) = true ∧
      runs { regs [(0, 0x7B)] with i := 0x0FFE } 0xF033 (fun t =>
        faulted t (.addressOutOfRange 0x1000) 0x200 && t.readBytes 0xFFE 2 == [0, 0]) = true := by decide

/-- L2-F55-1 and L2-F55-2. -/
theorem test_ld_mem :
    runs { regs [(0, 0x11), (1, 0x22), (2, 0x33)] with i := 0x0400 } 0xF255 (fun t =>
        t.readBytes 0x400 4 == [0x11, 0x22, 0x33, 0] && t.i == 0x0403) = true ∧
      runs { regs [(0, 0xAB)] with i := 0x0FFF } 0xF055 (fun t => t.readByte 0xFFF == 0xAB && t.i == 0x1000) = true := by
  decide

/-- L2-F55-3 and L2-F55-4: all 16 registers at the last place that holds them and one past it. -/
theorem test_ld_mem_at_the_end :
    runs { regs [(0, 0x11), (15, 0x22)] with i := 0x0FF0 } 0xFF55 (fun t =>
        t.readByte 0xFF0 == 0x11 && t.readByte 0xFFF == 0x22 && t.i == 0x1000) = true ∧
      runs { regs [(0, 0x11), (15, 0x22)] with i := 0x0FF1 } 0xFF55 (fun t =>
        faulted t (.addressOutOfRange 0x1000) 0x200 && t.readByte 0xFF1 == 0 && t.i == 0x0FF1) = true := by decide

/-- L2-F65-1 and L2-F65-2. -/
theorem test_ld_regs :
    runs { State.reset.writeBytes 0x300 [1, 5, 6] with i := 0x0300 } 0xF265 (fun t =>
        t.reg 0 == 1 && t.reg 1 == 5 && t.reg 2 == 6 && t.reg 3 == 0 && t.i == 0x0303) = true ∧
      runs { State.reset.writeByte 0x50F 0x77 with i := 0x0500 } 0xFF65 (fun t =>
        t.reg 15 == 0x77 && t.i == 0x0510) = true := by decide

/-- L2-F65-3. -/
theorem test_ld_regs_past_the_end :
    runs { regs [(0, 9), (1, 8)] with i := 0x0FFF } 0xF165 (fun t =>
      faulted t (.addressOutOfRange 0x1000) 0x200 && t.reg 0 == 9 && t.reg 1 == 8 && t.i == 0x0FFF) = true := by decide

/-! ### Keys and timers -/

/-- L2-E-1 and L2-E-2. -/
theorem test_key_skips :
    runs { regs [(5, 0x0A)] with keys := 0x0400 } 0xE59E (fun t => t.pc == 0x204) = true ∧
      runs { regs [(5, 0x0A)] with keys := 0x0400 } 0xE5A1 (fun t => t.pc == 0x202) = true ∧
      runs (regs [(5, 0x0A)]) 0xE59E (fun t => t.pc == 0x202) = true ∧
      runs (regs [(5, 0x0A)]) 0xE5A1 (fun t => t.pc == 0x204) = true := by decide

/-- L2-E-3. -/
theorem test_key_skips_above_fifteen :
    runs (regs [(0, 0x10)]) 0xE09E (fun t => faulted t (.invalidRegisterValue 0 0x10) 0x200) = true ∧
      runs (regs [(0, 0x10)]) 0xE0A1 (fun t => faulted t (.invalidRegisterValue 0 0x10) 0x200) = true := by decide

/-- L2-F07-1. -/
theorem test_ld_vx_dt : runs { State.reset with dt := 0x2A } 0xF307 (fun t => t.reg 3 == 0x2A) = true := by decide

/-- L2-F0A-1: a key already held does not resolve the wait. -/
theorem test_ld_vx_k :
    runs { State.reset with keys := 0x0080, pc := 0x210 } 0xF40A (fun t =>
      t.pending == some 4 && t.pc == 0x210 && t.status == .running) = true := by decide

/-- L1-8 and L2-F0A-2: the key-down resolves the wait, at 0xFFE with the end of the run. -/
theorem test_key_down_resolves :
    moves { State.reset with pending := some 4, pc := 0x210 } (.keyDown 7) (fun t =>
        t.reg 4 == 7 && t.pending == none && t.pc == 0x212 && t.keys == 0x0080) = true ∧
      moves { State.reset with pending := some 0, pc := 0xFFE } (.keyDown 3) (fun t =>
        t.reg 0 == 3 && t.pc == 0x1000 && t.status == .finished) = true := by decide

/-- L2-F15-1, L2-F15-2 and L2-F15-3. -/
theorem test_ld_dt :
    runs (regs [(1, 0x3C)]) 0xF115 (fun t => t.dt == 0x3C && t.dtRun) = true ∧
      runs State.reset 0xF115 (fun t => t.dt == 0 && !t.dtRun) = true ∧
      runs { State.reset with dt := 0x10, dtRun := true } 0xF115 (fun t => t.dt == 0 && t.dtRun) = true := by decide

/-- L2-F15-4 in TIMED: the phase of a running cycle is kept, and a started one is 16 (R215). -/
theorem test_ld_dt_phase :
    runs (timed { regs [(1, 0x20)] with dt := 0x10, dtRun := true, dtPhase := 5 }) 0xF115 (fun t =>
        t.dt == 0x20 && t.dtRun && t.dtPhase == 5) = true ∧
      runs (timed (regs [(1, 0x20)])) 0xF115 (fun t => t.dtPhase == 16 && t.cpuWait == 2) = true := by decide

/-- L2-F18-1: no beep by the instruction itself. -/
theorem test_ld_st : runs (regs [(2, 1)]) 0xF218 (fun t => t.st == 1 && t.stRun && t.trace == []) = true := by decide

/-- L2-F15-1, L2-F15-3 and L2-F18-1 to L2-F18-3: the ticks at 2, 1 and 0. -/
theorem test_ticks :
    moves { State.reset with dt := 2, dtRun := true } .delayTick (fun t => t.dt == 1 && t.dtRun) = true ∧
      moves { State.reset with dt := 1, dtRun := true } .delayTick (fun t => t.dt == 0 && !t.dtRun) = true ∧
      moves { State.reset with dtRun := true } .delayTick (fun t => t.dt == 0 && !t.dtRun) = true ∧
      moves { State.reset with st := 2, stRun := true } .soundTick (fun t => t.st == 1 && t.stRun && t.trace == []) =
        true ∧
      moves { State.reset with st := 1, stRun := true } .soundTick (fun t =>
        t.st == 0 && !t.stRun && t.trace == [.beep]) = true ∧
      moves { State.reset with stRun := true } .soundTick (fun t => !t.stRun && t.trace == []) = true := by decide

/-! ### Faults, the host and the clock -/

/-- L1-1's fourth step, and L2-T-1: the fault cancels a running cycle and keeps DT. -/
theorem test_invalid_opcode :
    runs { State.reset with dt := 5, dtRun := true } 0x0000 (fun t =>
      faulted t (.invalidOpcode 0 0) 0x200 && t.dt == 5 && !t.dtRun) = true := by decide

/-- L2-F0A-3: a key-down while Paused updates keys only. -/
theorem test_key_down_while_paused :
    moves { State.reset with status := .paused, pending := some 2 } (.keyDown 5) (fun t =>
      t.keys == 0x0020 && t.pending == some 2 && t.reg 2 == 0) = true := by decide

/-- L2-F0A-4: the wait freezes the timers or not, as WAIT_FREEZES_TIMERS says. -/
theorem test_wait_freezes_timers :
    moves { State.reset with pending := some 0, dt := 5, dtRun := true } .delayTick (fun t => t.dt == 5) = true ∧
      moves { unfrozen State.reset with pending := some 0, dt := 5, dtRun := true } .delayTick (fun t => t.dt == 4) =
        true := by decide

/-- L1-7, and that the fault log survives the load (R232). -/
theorem test_load :
    moves { withV (State.reset.raise (.invalidOpcode 0 0)) [(3, 9)] with i := 7, keys := 0x0100 }
      (.host (.load [0x12, 0x00])) (fun t =>
        t.status == .running && t.pc == 0x200 && t.reg 3 == 0 && t.i == 0 && t.readByte 0x200 == 0x12 &&
          t.readByte 0x201 == 0 && t.fault == none && t.faultLog.length == 1 && t.keys == 0x0100) = true := by decide

/-- The table of host commands: what each tells the host (R284). -/
theorem test_illegal_commands :
    moves State.reset (.host (.load [])) (fun t => t.hostReplies == [.illegalTransition .load .running]) = true ∧
      moves State.reset (.host .resume) (fun t => t.hostReplies == [.illegalTransition .resume .running]) = true ∧
      moves { State.reset with status := .paused } (.host .pause) (fun t =>
        t.hostReplies == [.illegalTransition .pause .paused] && t.status == .paused) = true ∧
      moves State.reset (.keyDown 16) (fun t => t.hostReplies == [.malformedKey 16] && t.keys == 0) = true ∧
      moves { State.reset with pending := some 1 } .keyDownMalformed (fun t =>
        t.hostReplies == [.malformedKeyInput] && t.keys == 0 && t.pending == some 1) = true := by decide

theorem test_too_long_program (P : List Byte) (h : P.length = 3585) :
    moves { State.reset with status := .stopped } (.host (.load P)) (fun t =>
      t.hostReplies == [.programTooLong 3585] && t.status == .stopped) = true := by
  simp [moves, agentStep, State.command, State.hostLoad, h, State.reply, State.reset]

/-- R302: a program that does not fit is not launched (log 30). -/
theorem test_too_long_launch (P : List Byte) (h : P.length = 3585) :
    (State.launch defaultParams P 0 State.reset.fb).status = .stopped ∧
      (State.launch defaultParams P 0 State.reset.fb).mem = [] := by
  simp [State.launch, State.powerOn, State.hostLoad, h, State.reply, State.reset]

/-- L2-F18-4: stop cancels the sound cycle; pause and resume keep the wait (L2-F0A-3). -/
theorem test_stop_pause_resume :
    moves { State.reset with st := 5, stRun := true, pending := some 1 } (.host .stop) (fun t =>
        t.status == .stopped && !t.stRun && t.pending == none && t.st == 5) = true ∧
      moves { State.reset with pending := some 2 } (.host .pause) (fun t =>
        t.status == .paused && t.pending == some 2) = true ∧
      moves { State.reset with status := .paused, pending := some 2 } (.host .resume) (fun t =>
        t.status == .running && t.pending == some 2) = true := by decide

/-- L2-TM-2: a draw is billed 20 ms, and the CPU has no step before they are over; the clock counts them down. -/
theorem test_timed_draw :
    runs (timed State.reset) 0xD005 (fun t => t.cpuWait == 20 && !t.cpuEnabled) = true ∧
      moves (timed { State.reset with cpuWait := 20, dt := 2, dtRun := true, dtPhase := 16 }) .clock (fun t =>
        t.cpuWait == 19 && t.dtPhase == 15) = true := by decide

/-- With no event scheduled a machine that waits for a key, and one that has finished, is stuck (log 12). -/
theorem test_stuck :
    (match step { State.reset with pending := some 0 } with | .fault .waitingForKey => true | _ => false) = true ∧
      (match step { State.reset with status := .finished, pc := 0x1000 } with | .fault .finished => true | _ => false) =
        true := by decide

/-- The schedule chooses the agent (log 10). -/
theorem test_schedule :
    (match step { State.reset with dt := 2, dtRun := true, schedule := [.delayTick, .cpu] } with
      | .next t => t.dt == 1 && t.pc == 0x200 && t.schedule == [.cpu]
      | _ => false) = true := by decide

/-- With an empty schedule a running delay cycle ticks although the CPU always has a step (R268, L3-8; log 23). -/
theorem test_turns :
    runs { State.reset with dt := 2, dtRun := true } 0x1200 (fun t => t.dt == 2 && t.turn == .delay) = true ∧
      runs { State.reset with dt := 2, dtRun := true, turn := .delay } 0x1200 (fun t =>
        t.dt == 1 && t.pc == 0x200 && t.turn == .sound) = true ∧
      runs { State.reset with turn := .sound } 0x1200 (fun t => t.pc == 0x200 && t.turn == .delay) = true := by decide

/-! ### Witnesses: states and operands that meet the hypotheses of the statements

Each is named after its statement. Where a statement has clauses over ranges, the witness takes the values at their
ends. -/

/-- A machine whose CPU is about to run the word `w` at pc. -/
def at_ (s : State) (w : Word) : State := s.placeWord w

/-- Ready to run, with this word at pc. -/
def Runs (s : State) (w : Word) (i : Instr) : Prop :=
  CpuReady (at_ s w) ∧ PcOk (at_ s w) ∧ decode (at_ s w).params.aluLayout (fetched (at_ s w)) = .ok i

theorem test_witness_DecodeEncodeRoundTrip :
    (Instr.drwVxVyN 15 15 15).wellFormed .doc = true ∧ (Instr.subnVxVy 15 0).wellFormed .classic = true ∧
      (Instr.jp 0xFFF).wellFormed .doc = true := by decide

theorem test_witness_DecodeFollowsTheOpcodeMap :
    (∃ r ∈ opcodeRows .doc, selects 0x8127 r = true) ∧ (∃ r ∈ opcodeRows .classic, selects 0x812E r = true) ∧
      (∀ r ∈ opcodeRows .doc, selects 0x812E r = false) ∧ ∀ r ∈ opcodeRows .classic, selects 0x0000 r = false := by
  decide

theorem test_witness_StepRunsTheDecodedInstruction :
    Runs State.reset 0x6005 (.ldVxKk 0 5) ∧ State.reset.schedule = [] ∧ State.reset.turn = .cpu ∧
      Runs { State.reset with pc := 0xFFE, schedule := [.cpu, .cpu] } 0x1228 (.jp 0x228) ∧
      Runs (timed { State.reset with pc := 0 }) 0x00E0 .cls := by
  simp only [Runs, CpuReady, PcOk]; decide

/-- The turns give the CPU also after a delay cycle, and after a sound cycle, that have no step. -/
theorem test_witness_StepRunsTheDecodedInstruction_turns :
    Runs { State.reset with turn := .delay } 0x1228 (.jp 0x228) ∧ ¬SoundReady { State.reset with turn := .delay } ∧
      ¬DelayReady { State.reset with turn := .delay } ∧
      Runs { State.reset with turn := .sound, dtRun := true } 0x1228 (.jp 0x228) ∧
      ¬SoundReady { State.reset with turn := .sound, dtRun := true } := by
  simp only [Runs, CpuReady, PcOk, SoundReady, DelayReady, TimersOn]; decide

theorem test_witness_InvalidOpcodeFaults :
    CpuReady State.reset ∧ PcOk State.reset ∧
      decode State.reset.params.aluLayout (fetched State.reset) = .error (.invalidOpcode 0 0) := by
  simp only [CpuReady, PcOk]; decide

/-- The sound cycle moves though it is asked last. -/
theorem test_witness_TheScheduleNamesTheAgent_turns :
    State.reset.turn.order = [.cpu, .delay] ++ .sound :: [] ∧
      (unfrozen { State.reset with stRun := true, pending := some 0 }).hasStep Agent.sound.event = true ∧
      ∀ b ∈ [Agent.cpu, .delay],
        (unfrozen { State.reset with stRun := true, pending := some 0 }).hasStep b.event = false := by decide

theorem test_witness_TheScheduleNamesTheAgent :
    ({ State.reset with schedule := [.clock, .cpu] } : State).schedule = .clock :: [.cpu] ∧
      State.reset.schedule = [] ∧ State.reset.turn.order = [] ++ .cpu :: [.delay, .sound] ∧
      State.reset.hasStep Agent.cpu.event = true ∧
      State.reset.hasStep .delayTick = false ∧ State.reset.hasStep .clock = false ∧
      ({ State.reset with pending := some 0 } : State).hasStep .cpu = false := by decide

/-- The clauses of DRW at the last row inside memory and the first one past it, for 1 and for 15 rows, and with no
row at all (L2-D3, L2-D4). -/
theorem test_witness_DrwDrawsTheSprite :
    baseOf { State.reset with i := 0xFFF } + (1 : Fin 16).val - 1 ≤ 0xFFF ∧
      0xFFF < baseOf { State.reset with i := 0xFFF } + (2 : Fin 16).val - 1 ∧
      baseOf { State.reset with i := 0xFF1 } + (15 : Fin 16).val - 1 ≤ 0xFFF ∧
      0xFFF < baseOf { State.reset with i := 0xFF2 } + (15 : Fin 16).val - 1 ∧
      baseOf { State.reset with i := 0xFFF } + (0 : Fin 16).val - 1 ≤ 0xFFF ∧
      Runs (timed State.reset) 0xD015 (.drwVxVyN 0 1 5) := by
  simp only [Runs, CpuReady, PcOk]; decide

theorem test_witness_OnlyDrwEmitsBatchEvents :
    isDrw (.drwVxVyN 0 1 5) = true ∧ runs State.reset 0xD015 (fun t => t.status != .faulted) = true ∧
      isDrw .cls = false ∧ runs State.reset 0x00E0 (fun _ => true) = true := by decide

theorem test_witness_DrawingTwiceRestoresTheDisplay :
    (0 : Reg) ≠ 15 ∧ (1 : Reg) ≠ 15 ∧ baseOf State.reset + (5 : Fin 16).val - 1 ≤ 0xFFF ∧
      State.reset.pc.toNat ≤ 0xFFC ∧ (∀ px py, State.reset.pixel px py = false) ∧
      State.reset.spriteBit (baseOf State.reset) 0 0 = true ∧
      (∀ r c, r < (0 : Fin 16).val → c < 8 → State.reset.spriteBit (baseOf State.reset) r c = false) := by
  refine ⟨by decide, by decide, by decide, by decide, by decide, by decide, ?_⟩
  intro r c h
  exact absurd h (Nat.not_lt_zero r)

theorem test_witness_RetReturnsPastTheCall :
    State.reset.stack = [] ∧ ({ State.reset with stack := [0xFFE] } : State).stack = 0xFFE :: [] := by decide

theorem test_witness_JpJumps : (0x001 : Addr).toNat % 2 = 1 ∧ (0xFFE : Addr).toNat % 2 = 0 := by decide

theorem test_witness_CallPushesItsOwnAddress :
    ({ State.reset with stack := List.replicate 16 0x200 } : State).stack.length = 16 ∧
      ({ State.reset with stack := List.replicate 15 0x200 } : State).stack.length < 16 ∧
      (0xFFF : Addr).toNat % 2 = 1 ∧ (0x000 : Addr).toNat % 2 = 0 := by decide

theorem test_witness_ReturnComesBackAfterTheCall :
    ({ State.reset with stack := List.replicate 15 0x200, pc := 0xFFC } : State).stack.length < 16 ∧
      (0x300 : Addr).toNat % 2 = 0 ∧ ({ State.reset with pc := 0xFFC } : State).pc.toNat + 2 ≤ 0xFFF := by decide

theorem test_witness_RegisterSkipsCompare : (1 : Fin 16) ≠ 0 ∧ (15 : Fin 16) ≠ 0 := by decide

/-- The sums 0xFFE, 0xFFF, 0x1000 and the largest one. -/
theorem test_witness_JpV0JumpsToTheSum :
    (((regs [(0, 0)]).reg 0).toNat + (0xFFE : Addr).toNat ≤ 0xFFF ∧
        (((regs [(0, 0)]).reg 0).toNat + (0xFFE : Addr).toNat) % 2 = 0) ∧
      (((regs [(0, 1)]).reg 0).toNat + (0xFFE : Addr).toNat ≤ 0xFFF ∧
        (((regs [(0, 1)]).reg 0).toNat + (0xFFE : Addr).toNat) % 2 = 1) ∧
      0xFFF < ((regs [(0, 2)]).reg 0).toNat + (0xFFE : Addr).toNat ∧
      0xFFF < ((regs [(0, 0xFF)]).reg 0).toNat + (0xFFF : Addr).toNat := by decide

theorem test_witness_ShrShiftsOutBitZero :
    (regs [(0, 0xAA), (1, 3)]).params.shiftSource = .y ∧ (shiftX (regs [(0, 0xAA), (1, 3)])).params.shiftSource = .x ∧
      (3 : Byte) = (regs [(0, 0xAA), (1, 3)]).reg 1 ∧ (0xAA : Byte) = (shiftX (regs [(0, 0xAA), (1, 3)])).reg 0 := by
  decide

theorem test_witness_ShlShiftsOutBitSeven :
    (0x80 : Byte) = (if (regs [(1, 0x80)]).params.shiftSource = .y then (regs [(1, 0x80)]).reg 1
      else (regs [(1, 0x80)]).reg 0) ∧
      (0x7F : Byte) = (if (shiftX (regs [(0, 0x7F)])).params.shiftSource = .y then (shiftX (regs [(0, 0x7F)])).reg 1
        else (shiftX (regs [(0, 0x7F)])).reg 0) := by decide

theorem test_witness_RndMasksTheDrawnByte : (0 : Byte) = 0 := by decide

theorem test_witness_LdFPointsAtTheGlyph :
    ((regs [(3, 15)]).reg 3).toNat ≤ 15 ∧ 15 < ((regs [(3, 16)]).reg 3).toNat := by decide

theorem test_witness_LdBStoresTheDigits :
    baseOf { State.reset with i := 0xFFFD } ≤ 0xFFD ∧ 0xFFD < baseOf { State.reset with i := 0xFFE } := by decide

theorem test_witness_LdMemStoresTheRegisters :
    baseOf { State.reset with i := 0xFF0 } + (15 : Reg).val ≤ 0xFFF ∧
      0xFFF < baseOf { State.reset with i := 0xFF1 } + (15 : Reg).val ∧
      baseOf { State.reset with i := 0xFFF } + (0 : Reg).val ≤ 0xFFF ∧ (0 : Reg) ≤ 15 := by decide

theorem test_witness_LdRegsLoadsTheMemory :
    baseOf { State.reset with i := 0xFFF } + (0 : Reg).val ≤ 0xFFF ∧
      0xFFF < baseOf { State.reset with i := 0xFFF } + (1 : Reg).val ∧ (1 : Reg) ≤ 1 ∧ (1 : Reg) < 2 := by decide

theorem test_witness_StoreThenLoadRestoresRegisters :
    baseOf { State.reset with i := 0xFF0 } + (15 : Reg).val ≤ 0xFFF := by decide

theorem test_witness_KeySkipsReadTheBitmap :
    ((regs [(5, 15)]).reg 5).toNat ≤ 15 ∧ 15 < ((regs [(5, 16)]).reg 5).toNat := by decide

theorem test_witness_LdVxKWaitsForAKeyDown :
    State.reset.status = .running ∧ (0 < 16) ∧ (15 < 16) ∧ State.reset.params.waitFreezesTimers = true ∧
      ({ State.reset with status := .paused } : State).status ≠ .running := by decide

/-- After a write of 0 the running cycle still has its tick. -/
theorem test_witness_LdDtStartsTheDelayCycle :
    ∃ t, exec (.ldDtVx 1) { State.reset with dt := 5, dtRun := true } = .next t ∧
      ({ State.reset with dt := 5, dtRun := true } : State).reg 1 = 0 ∧ DelayReady t := by
  exact ⟨_, rfl, by decide, by simp only [DelayReady, TimersOn]; decide⟩

theorem test_witness_LdStStartsTheSoundCycle :
    (∃ t, exec (.ldStVx 1) (regs [(1, 1)]) = .next t ∧ (regs [(1, 1)]).reg 1 = 1 ∧ SoundReady t) ∧
      ∃ t, exec (.ldStVx 1) { State.reset with st := 5, stRun := true } = .next t ∧
        ({ State.reset with st := 5, stRun := true } : State).reg 1 = 0 ∧ SoundReady t := by
  exact ⟨⟨_, rfl, by decide, by simp only [SoundReady, TimersOn]; decide⟩,
    ⟨_, rfl, by decide, by simp only [SoundReady, TimersOn]; decide⟩⟩

theorem test_witness_FaultsArePrecise :
    State.reset.status ≠ .faulted ∧
      (∃ t, exec .ret State.reset = .next t ∧ t.status = .faulted) ∧
      ∃ t, agentStep .cpu State.reset = .next t ∧ t.status = .faulted := by
  exact ⟨by decide, ⟨_, rfl, by decide⟩, ⟨_, rfl, by decide⟩⟩

/-- One state for each of the seven causes. -/
theorem test_witness_EachFaultHasItsInstructions :
    runs State.reset 0x0000 (fun t => faulted t (.invalidOpcode 0 0) 0x200) = true ∧
      runs State.reset 0x00EE (fun t => faulted t (.stackUnderflow 0x00EE) 0x200) = true ∧
      runs { State.reset with stack := List.replicate 16 0x200 } 0x2300 (fun t =>
        faulted t (.stackOverflow 0x200) 0x200) = true ∧
      runs (regs [(3, 16)]) 0xF329 (fun t => faulted t (.invalidRegisterValue 3 16) 0x200) = true ∧
      runs State.reset 0x1FFF (fun t => faulted t (.pcMisaligned 0xFFF) 0x200) = true ∧
      runs (regs [(0, 1)]) 0xBFFF (fun t => faulted t (.pcOutOfRange 0x1000) 0x200) = true ∧
      runs { State.reset with i := 0xFFF } 0xF165 (fun t => faulted t (.addressOutOfRange 0x1000) 0x200) = true ∧
      TookFault State.reset (State.reset.raise (.invalidOpcode 0 0)) (.invalidOpcode 0 0) := by
  simp only [TookFault]; decide

theorem test_witness_FaultedOnlyTheHostMoves : (State.reset.raise (.invalidOpcode 0 0)).status = .faulted := by decide

theorem test_witness_DelayTickCountsDown :
    DelayReady { State.reset with dtRun := true } ∧ DelayReady { State.reset with dt := 1, dtRun := true } ∧
      DelayReady (timed { State.reset with dt := 0xFF, dtRun := true }) := by
  simp only [DelayReady, TimersOn]; decide

theorem test_witness_SoundTickBeepsOnce :
    SoundReady { State.reset with stRun := true } ∧ SoundReady { State.reset with st := 1, stRun := true } ∧
      SoundReady (timed { State.reset with st := 0xFF, stRun := true }) := by
  simp only [SoundReady, TimersOn]; decide

theorem test_witness_ClockCountsDown :
    (∃ s : State, s.params.timing = .timed ∧ ¬CpuReady s ∧ ¬DelayReady s ∧ ¬SoundReady s ∧ s.cpuWait = 1 ∧
        s.dtPhase = 16) ∧
      State.reset.params.timing = .untimed ∧ CpuReady (timed State.reset) := by
  refine ⟨⟨timed { State.reset with cpuWait := 1, dtPhase := 16, dtRun := true }, ?_⟩, ?_⟩ <;>
    · simp only [CpuReady, DelayReady, SoundReady, TimersOn]; decide

theorem test_witness_CpuPrescalerBillsTheCycle :
    (timed { State.reset with cpuWait := 1 }).params.timing = .timed ∧
      0 < (timed { State.reset with cpuWait := 1 }).cpuWait ∧
      Runs (timed State.reset) 0xD015 (.drwVxVyN 0 1 5) ∧ Runs (timed State.reset) 0x6005 (.ldVxKk 0 5) ∧
      (timed { State.reset with pending := some 4 }).status = .running ∧
      (timed { State.reset with pending := some 4 }).pending ≠ none ∧
      (timed { State.reset with status := .stopped }).status = .stopped ∧
      (timed { State.reset with status := .paused }).status = .paused := by
  simp only [Runs, CpuReady, PcOk]; decide

theorem test_witness_KeyEventsSetTheBitmap :
    0 < 16 ∧ 15 < 16 ∧ State.reset.pending = none ∧ ({ State.reset with status := .paused } : State).status ≠ .running ∧
      ({ State.reset with pending := some 4 } : State).status = .running ∧
      ({ State.reset with pending := some 4 } : State).pending = some 4 := by decide

theorem test_witness_LoadResetsTheMachine :
    ({ State.reset with status := .stopped } : State).status = .stopped ∧ ([] : List Byte).length ≤ 3584 ∧
      (List.replicate 3584 (0 : Byte)).length ≤ 3584 ∧ (79 < 80) ∧ (0x200 ≤ 4095 ∧ 4095 < 0x200 + 3584) := by
  refine ⟨by decide, by decide, ?_, by decide, by decide⟩
  rw [List.length_replicate]

theorem test_witness_PauseResumeStop :
    State.reset.status = .running ∧ ({ State.reset with status := .paused } : State).status = .paused ∧
      ({ State.reset with status := .stopped } : State).status = .stopped ∧
      ({ State.reset with status := .faulted } : State).status ≠ .stopped := by decide

/-- With programs of 3584 and of 3585 bytes, where the two clauses on a load meet. -/
theorem test_witness_IllegalCommandsAreRejected :
    (List.replicate 3584 (0 : Byte)).length ≤ 3584 ∧ ([] : List Byte).length ≤ 3584 ∧ State.reset.status = .running ∧
      ({ State.reset with status := .paused } : State).status ≠ .running ∧
      3584 < (List.replicate 3585 (0 : Byte)).length ∧ 16 ≤ 16 := by
  refine ⟨?_, by decide, by decide, by decide, ?_, by decide⟩
  · rw [List.length_replicate]
  · rw [List.length_replicate]; decide

/-- The invariant at the largest pc of a Finished machine, with a full stack. -/
theorem test_inv_of_finished :
    Inv { State.reset with status := .finished, pc := 0x1002, stack := List.replicate 16 0xFFE } where
  pcFetchable := by simp
  pcFinished := by decide
  stackDepth := by decide
  stackEntries := by simp
  waitingAtLdVxK := by simp [State.reset]
  cyclesCancelled := by simp [State.reset]
  faultRecord := by simp
  memory := State.reset_memWf
  counters := by simp [State.reset]

/-- The invariant in a Running machine, whatever its schedule. -/
theorem test_inv_of_running (schedule : List Event) : Inv { State.reset with schedule := schedule } where
  pcFetchable := by simp [State.reset, progStart]
  pcFinished := by simp [State.reset]
  stackDepth := by simp [State.reset]
  stackEntries := by simp [State.reset]
  waitingAtLdVxK := by simp [State.reset]
  cyclesCancelled := by simp [State.reset]
  faultRecord := by simp [State.reset]
  memory := State.reset_memWf
  counters := by simp [State.reset]

/-- The invariant in a Faulted machine, whose record is set. -/
theorem test_inv_of_faulted : Inv (State.reset.raise (.invalidOpcode 0 0)) where
  pcFetchable := fun _ => ⟨by decide, by decide⟩
  pcFinished := by simp
  stackDepth := by simp [State.reset]
  stackEntries := by simp [State.reset]
  waitingAtLdVxK := by simp [State.reset]
  cyclesCancelled := by simp
  faultRecord := by simp [State.reset]
  memory := State.reset_memWf
  counters := by simp [State.reset]

theorem test_witness_FaultRecordIsKept :
    ∃ s t, Inv s ∧ s.fault ≠ none ∧ agentStep (.keyDown 3) s = .next t :=
  ⟨State.reset.raise (.invalidOpcode 0 0), _, test_inv_of_faulted, by simp, rfl⟩

theorem test_witness_RunStateMachine :
    State.reset.hasStep .cpu = true ∧ Inv State.reset ∧ (∃ t, agentStep .cpu State.reset = .next t) ∧
      ∃ t, agentStep (.keyDown 3) { State.reset with pending := some 0, pc := 0xFFE } = .next t :=
  ⟨by decide, test_inv_of_running [], ⟨_, rfl⟩, ⟨_, rfl⟩⟩

theorem test_witness_StepKeepsTheInvariant :
    ∃ s t, Inv s ∧ step s = .next t ∧ s.schedule = [.cpu] :=
  ⟨{ State.reset with schedule := [.cpu] }, _, test_inv_of_running [.cpu], rfl, rfl⟩

theorem test_witness_InstructionsNeverStopTheMachine : Inv State.reset := test_inv_of_running []

/-- A store that changes a byte, and a load that does. -/
theorem test_witness_OnlyStoresAndLoadsChangeMemory :
    moves (at_ { regs [(0, 0xFF)] with i := 0x300 } 0xF033) .cpu (fun t => t.readByte 0x300 != 0) = true ∧
      (at_ { regs [(0, 0xFF)] with i := 0x300 } 0xF033).readByte 0x300 = 0 ∧
      moves { State.reset with status := .stopped } (.host (.load [0x12])) (fun t => t.readByte 0x200 != 0) = true := by
  decide

theorem test_witness_TimersHaveFewWriters :
    moves (at_ (regs [(1, 3)]) 0xF115) .cpu (fun t => decide (0 < t.dt.toNat)) = true ∧
      moves (at_ (regs [(1, 3)]) 0xF118) .cpu (fun t => t.st != 0) = true ∧
      moves { State.reset with dt := 2, dtRun := true } .delayTick (fun t => t.dt != 2) = true := by decide

theorem test_witness_StackKeysAndDisplayWriters :
    moves (at_ State.reset 0x2300) .cpu (fun t => t.stack != []) = true ∧
      moves State.reset (.keyDown 15) (fun t => t.keys != 0) = true ∧
      moves (at_ State.reset 0xD015) .cpu (fun t => t.pixel 0 0) = true := by decide

theorem test_witness_ParametersFixedTraceGrows : ∃ t, step State.reset = .next t := ⟨_, rfl⟩

/-- A machine that waits for a key, with timers that the wait does not freeze. -/
def waiting (dt : Byte) (run : Bool) : State := { unfrozen State.reset with pending := some 0, dt := dt, dtRun := run }

theorem test_waiting_run (n : Nat) :
    runStates (fun _ => .delayTick) (waiting 1 true) (n + 1) = waiting 0 false := by
  induction n with
  | zero => decide
  | succ n ih => rw [runStates, ih]; decide

/-- The timer of a machine that waits for a key ticks to 0 on a schedule of delay ticks alone, which is fair, since
neither the CPU nor the sound cycle ever has a step in it. -/
theorem test_witness_AFairRunCountsTheDelayTimerDown :
    (waiting 1 true).params.timing = .untimed ∧ (waiting 1 true).dtRun = true ∧
      WeaklyFair (fun _ => .delayTick) (waiting 1 true) ∧
      (∀ n, TimersOn (runStates (fun _ => .delayTick) (waiting 1 true) n)) ∧
      ∀ n, (runStates (fun _ => .delayTick) (waiting 1 true) (n + 1)).dt.toNat ≤
        (runStates (fun _ => .delayTick) (waiting 1 true) n).dt.toNat := by
  refine ⟨by decide, by decide, fun e he n => ⟨n + 1, Nat.le_succ n, .inr ?_⟩, fun n => ?_, fun n => ?_⟩
  · rw [test_waiting_run]; revert e; decide
  · cases n with
    | zero => simp only [TimersOn, runStates]; decide
    | succ n => rw [test_waiting_run]; simp only [TimersOn]; decide
  · rw [test_waiting_run]; exact Nat.zero_le _

/-- A machine that waits for a key with both timers at 1, which the wait does not freeze. -/
def waitingWithTimers : State :=
  { unfrozen State.reset with
    pending := some 0, dt := 1, st := 1, dtRun := true, stRun := true, mem := [(0x200, 0xF0), (0x201, 0x0A)] }

theorem test_waiting_steps (n : Nat) :
    stepStates waitingWithTimers (n + 2) = { waitingWithTimers with
      dt := 0, st := 0, dtRun := false, stRun := false, trace := [.beep], turn := .cpu } := by
  induction n with
  | zero => rfl
  | succ n ih => rw [stepStates, ih]; rfl

theorem test_inv_of_waiting : Inv waitingWithTimers where
  pcFetchable := fun _ => by decide
  pcFinished := fun h => absurd h (by decide)
  stackDepth := by decide
  stackEntries := fun _ h => absurd h (List.not_mem_nil)
  waitingAtLdVxK := fun x h => by
    obtain rfl : 0 = x := Option.some.inj h
    exact ⟨.inl rfl, by decide⟩
  cyclesCancelled := fun _ => .inl rfl
  faultRecord := ⟨fun _ => rfl, fun h => absurd h (by decide)⟩
  memory := by decide
  counters := by decide

/-- Its timers stay enabled and reach 0, the delay timer first, and then nothing moves. -/
theorem test_witness_RunsOfStepAreFair :
    Inv waitingWithTimers ∧ waitingWithTimers.params.timing = .untimed ∧ waitingWithTimers.schedule = [] ∧
      waitingWithTimers.pending = some 0 ∧ waitingWithTimers.dtRun = true ∧ waitingWithTimers.stRun = true ∧
      (∀ n, TimersOn (stepStates waitingWithTimers n)) ∧
      (∀ n, (stepStates waitingWithTimers (n + 1)).dt.toNat ≤ (stepStates waitingWithTimers n).dt.toNat) ∧
      ∀ n, (stepStates waitingWithTimers (n + 1)).st.toNat ≤ (stepStates waitingWithTimers n).st.toNat := by
  have on : ∀ s : State, s.status = .running → s.params.waitFreezesTimers = false → TimersOn s :=
    fun s hs hw => ⟨hs, by simp [hw]⟩
  refine ⟨test_inv_of_waiting, rfl, rfl, rfl, rfl, rfl, fun n => ?_, fun n => ?_, fun n => ?_⟩
  · match n with
    | 0 | 1 => exact on _ rfl rfl
    | n + 2 => rw [test_waiting_steps]; exact on _ rfl rfl
  · match n with
    | 0 | 1 => decide
    | n + 2 => rw [show n + 2 + 1 = (n + 1) + 2 from rfl, test_waiting_steps]; exact Nat.zero_le _
  · match n with
    | 0 | 1 => decide
    | n + 2 => rw [show n + 2 + 1 = (n + 1) + 2 from rfl, test_waiting_steps]; exact Nat.zero_le _

end Sys2Proof.Tests
end

section
/-!
What the agents do to the fault record and to the fault log (R33, R231, R232): only the CPU appends to the log, only the
CPU and a load write the record, and under the invariant the CPU has no step while a record is set.
-/

namespace Sys2Proof.Machine

/-- The fault record and the fault log are as before. -/
structure KeepsFaults (s t : State) : Prop where
  fault : t.fault = s.fault
  faultLog : t.faultLog = s.faultLog

theorem KeepsFaults.refl (s : State) : KeepsFaults s s := ⟨rfl, rfl⟩

/-! ### The keyboard and the timers -/

theorem State.keepsFaults_resolveWait (s : State) (x : Reg) (k : Key) : KeepsFaults s (s.resolveWait x k) := by
  constructor <;> simp [State.resolveWait, State.next]

theorem State.keepsFaults_pressKey (s : State) (k : Key) : KeepsFaults s (s.pressKey k) := by
  unfold State.pressKey
  split
  · next x _ _ =>
    obtain ⟨hf, hl⟩ := (s.setKey k true).keepsFaults_resolveWait x k
    exact ⟨by simpa using hf, by simpa using hl⟩
  · exact ⟨rfl, rfl⟩

theorem State.keepsFaults_keyDown (s : State) (k : Nat) : KeepsFaults s (s.keyDown k) := by
  unfold State.keyDown
  split
  · exact s.keepsFaults_pressKey _
  · exact ⟨rfl, rfl⟩

theorem State.keepsFaults_keyUp (s : State) (k : Nat) : KeepsFaults s (s.keyUp k) := by
  unfold State.keyUp
  split <;> exact ⟨rfl, rfl⟩

/-- A step of a timer cycle, of the base clock or of the keyboard leaves the record and the log alone. -/
theorem agentStep_keepsFaults {e : Event} {s t : State} (hcpu : e ≠ .cpu) (hhost : ∀ c, e ≠ .host c)
    (h : agentStep e s = .next t) : KeepsFaults s t := by
  cases e with
  | cpu => exact absurd rfl hcpu
  | delayTick =>
    cases h
    split
    · exact ⟨s.delayTick_fault, s.delayTick_faultLog⟩
    · exact .refl s
  | soundTick =>
    cases h
    split
    · exact ⟨s.soundTick_fault, s.soundTick_faultLog⟩
    · exact .refl s
  | clock => cases h; split <;> exact ⟨rfl, rfl⟩
  | keyDown k => cases h; exact s.keepsFaults_keyDown k
  | keyUp k => cases h; exact s.keepsFaults_keyUp k
  | keyDownMalformed | keyUpMalformed => cases h; exact ⟨rfl, rfl⟩
  | host c => exact absurd rfl (hhost c)

/-! ### The CPU -/

theorem State.raise_faultLog_prefix (s : State) (c : FaultCause) : s.faultLog <+: (s.raise c).faultLog :=
  List.prefix_append _ _

@[simp] theorem State.bill_faultLog (t : State) (i : Instr) : (t.bill i).faultLog = t.faultLog := by
  unfold State.bill
  split
  · rfl
  · exact t.setCpuWait_faultLog _

/-- An instruction keeps the fault log as a prefix: it appends the fault it takes, and nothing else writes the log. -/
theorem exec_faultLog_prefix {i : Instr} {s t : State} (h : exec i s = .next t) : s.faultLog <+: t.faultLog := by
  cases exec_cases h with
  | fault c h => rw [h]; exact s.raise_faultLog_prefix c
  | advance u p keeps _ _ h => simp [h, keeps.faultLog]
  | returned u r keeps _ h => simp [h, keeps.faultLog]
  | jumped u p keeps _ _ _ h => simp [h, keeps.faultLog]
  | suspended x _ h => simp [h]

theorem cpuStep_faultLog_prefix {s t : State} (h : cpuStep s = .next t) : s.faultLog <+: t.faultLog := by
  obtain ⟨-, ⟨i, u, -, hx, rfl⟩ | ⟨-, rfl⟩⟩ := cpuStep_cases h
  · rw [State.bill_faultLog]; exact exec_faultLog_prefix hx
  · exact s.raise_faultLog_prefix _

/-- While a fault record is set the machine is not Running (R301), so the CPU has no step. -/
theorem Inv.cpuEnabled_eq_false {s : State} (hi : Inv s) (hf : s.fault ≠ none) : s.cpuEnabled = false := by
  refine Bool.eq_false_iff.mpr fun hc => hf ?_
  obtain ⟨hrun, -, -⟩ := s.cpuEnabled_iff.mp hc
  exact hi.faultRecord.1 (.inl hrun)

/-! ### The host -/

@[simp] theorem State.load_faultLog (s : State) (program : List Byte) : (s.load program).faultLog = s.faultLog := by
  simp [State.load]

/-- No command of the host touches the fault log (R39, R232), a load that clears the record among them. -/
theorem State.command_faultLog (s : State) (c : HostCommand) : (s.command c).faultLog = s.faultLog := by
  cases c with
  | load program =>
    simp only [State.command, State.hostLoad]
    split <;> [skip; split] <;> simp
  | loadMalformed => rfl
  | pause => simp only [State.command, State.hostPause]; split <;> rfl
  | resume => simp only [State.command, State.hostResume]; split <;> simp
  | stop => simp only [State.command, State.hostStop, State.teardown]; split <;> simp

/-! ### Every agent -/

/-- No step of any agent shortens the fault log. -/
theorem agentStep_faultLog_prefix {e : Event} {s t : State} (h : agentStep e s = .next t) :
    s.faultLog <+: t.faultLog := by
  by_cases hcpu : e = .cpu
  · subst hcpu
    simp only [agentStep] at h
    split at h
    · exact cpuStep_faultLog_prefix h
    · cases h; exact List.prefix_rfl
  by_cases hhost : ∃ c, e = .host c
  · obtain ⟨c, rfl⟩ := hhost
    cases h
    rw [s.command_faultLog c]
  · rw [(agentStep_keepsFaults hcpu (not_exists.mp hhost) h).faultLog]

/-- Under the invariant no step but the host's changes a fault record that is set. -/
theorem agentStep_fault {e : Event} {s t : State} (hi : Inv s) (hhost : ∀ c, e ≠ .host c) (hf : s.fault ≠ none)
    (h : agentStep e s = .next t) : t.fault = s.fault := by
  by_cases hcpu : e = .cpu
  · subst hcpu
    simp only [agentStep, hi.cpuEnabled_eq_false hf] at h
    cases h
    rfl
  · exact (agentStep_keepsFaults hcpu hhost h).fault

/-- Settles O41: a set record leaves the CPU without a step, the timers, the clock and the keyboard never write one, and
the log only ever grows at its end. -/
theorem faultRecordIsKept : Obligations.FaultRecordIsKept := by
  unfold Obligations.FaultRecordIsKept
  intro e s t hi h
  exact ⟨fun hhost hf => agentStep_fault hi hhost hf h, agentStep_faultLog_prefix h⟩

end Sys2Proof.Machine
end

section
/-!
Which words are no instruction (R98): the decoder's answer family by family.
-/

namespace Sys2Proof

theorem category_lt (w : Word) : category w < 16 := (w.extractLsb' 12 4).isLt

@[simp] theorem exists_invalidWord_eq_error (w : Word) : ∃ e, invalidWord w = .error e := ⟨_, rfl⟩

/-- In family 0 the address operand is the whole word. -/
theorem address12_eq_iff {w v : Word} (hw : category w = 0) (hv : category v = 0) :
    address12 w = address12 v ↔ w = v :=
  ⟨fun h => (encodeA_fields hw).symm.trans (h ▸ encodeA_fields hv), fun h => h ▸ rfl⟩

/-- Family 8 (R95, R96): both layouts have the sub-opcodes 0 to 7, and CLASSIC has E too. -/
theorem decodeAlu_eq_error_iff (layout : AluLayout) (w : Word) :
    (∃ e, decodeAlu layout w = .error e) ↔
      (layout = .doc ∧ 8 ≤ (subop4 w).val) ∨ (layout = .classic ∧ 8 ≤ (subop4 w).val ∧ (subop4 w).val ≠ 0xE) := by
  unfold decodeAlu
  generalize subop4 w = n
  cases layout <;> fin_cases n <;> simp

/-- Family F (R95): nine low bytes are instructions. -/
theorem decodeMisc_eq_error_iff (w : Word) :
    (∃ e, decodeMisc w = .error e) ↔
      immediate8 w ∉ ([0x07, 0x0A, 0x15, 0x18, 0x1E, 0x29, 0x33, 0x55, 0x65] : List Byte) := by
  unfold decodeMisc
  split <;> simp_all [← BitVec.toNat_inj]

/-- Settles O3: one family of the opcode map at a time, the families 8 and F by their own decoders. -/
theorem invalidWordsByFamily : Obligations.InvalidWordsByFamily := by
  unfold Obligations.InvalidWordsByFamily
  intro layout w
  have hlt := category_lt w
  unfold decode
  split
  case h_1 hc =>
    have hcls : address12 w = 0x0E0 ↔ w = 0x00E0 := address12_eq_iff (v := 0x00E0) hc rfl
    have hret : address12 w = 0x0EE ↔ w = 0x00EE := address12_eq_iff (v := 0x00EE) hc rfl
    split <;> [skip; split] <;> simp_all
  case h_9 hc => simp [hc, decodeAlu_eq_error_iff]
  case h_16 hc => simp [hc, decodeMisc_eq_error_iff]
  case h_6 hc | h_10 hc => split <;> simp_all
  case h_15 hc => split <;> [skip; split] <;> simp_all
  case h_17 => exfalso; interval_cases category w <;> contradiction
  all_goals simp_all

end Sys2Proof
end

section
/-!
The decoder against the opcode map (R94 to R96). A row's mask compares the family and the low bits that the patterns of
its family fix, so a word selects a row exactly if it agrees with the row's match in these; the decoder, too, looks at
nothing else to choose the instruction. What is left is a finite check of the rows' own match words.
-/

namespace Sys2Proof

/-! ### Masks -/

/-- The mask that compares the family and the k lowest bits. -/
def patternMask (k : Nat) : Word := BitVec.ofNat 16 (2 ^ 12 * (2 ^ 4 - 1) + (2 ^ k - 1))

/-- How many low bits the patterns of a family fix: all of nnn, the sub-opcode n, the low byte kk, or none (R95). -/
def fixedBits : Nat → Nat
  | 0x0 => 12
  | 0x5 | 0x8 | 0x9 => 4
  | 0xE | 0xF => 8
  | _ => 0

theorem fixedBits_le (family : Nat) : fixedBits family ≤ 12 := by
  unfold fixedBits; split <;> decide

theorem mask_eq_patternMask (layout : AluLayout) :
    ∀ r ∈ opcodeRows layout, r.mask = patternMask (fixedBits (category r.matchBits)) := by
  cases layout <;> decide

theorem matchBits_and_mask (layout : AluLayout) : ∀ r ∈ opcodeRows layout, r.matchBits &&& r.mask = r.matchBits := by
  cases layout <;> decide

/-- The rows of a layout have different match words. -/
theorem matchBits_nodup (layout : AluLayout) : ((opcodeRows layout).map OpcodeRow.matchBits).Nodup := by
  cases layout <;> decide

/-- A masked word as a number, bit by bit: bits 12 to 15 are the family, and below them the k lowest bits are left. -/
theorem toNat_and_patternMask (w : Word) {k : Nat} (hk : k ≤ 12) :
    (w &&& patternMask k).toNat = category w * 4096 + w.toNat % 2 ^ k := by
  have hpow : 2 ^ k ≤ 2 ^ 12 := Nat.pow_le_pow_right (by decide) hk
  have hlow : w.toNat % 2 ^ k < 2 ^ 12 := (Nat.mod_lt _ (Nat.two_pow_pos k)).trans_le hpow
  have hmask : (patternMask k).toNat = 2 ^ 12 * (2 ^ 4 - 1) + (2 ^ k - 1) := by
    rw [patternMask, BitVec.toNat_ofNat]; omega
  have hfamily : category w * 4096 = 2 ^ 12 * (w.toNat / 2 ^ 12 % 2 ^ 4) := by
    rw [category, toNat_field]; exact Nat.mul_comm _ _
  rw [BitVec.toNat_and, hmask, hfamily]
  apply Nat.eq_of_testBit_eq
  intro j
  rw [Nat.testBit_and, Nat.testBit_two_pow_mul_add _ (by omega), Nat.testBit_two_pow_mul_add _ hlow]
  split
  · rw [Nat.testBit_two_pow_sub_one, Nat.testBit_mod_two_pow, Bool.and_comm]
  · rw [Nat.testBit_two_pow_sub_one, Nat.testBit_mod_two_pow, Nat.testBit_div_two_pow, Nat.sub_add_cancel (by omega),
      Bool.and_comm]

/-! ### Words of one pattern -/

/-- The words are of one family and agree in the low bits that the family's patterns fix. -/
structure SamePattern (w v : Word) : Prop where
  family : category w = category v
  low : w.toNat % 2 ^ fixedBits (category v) = v.toNat % 2 ^ fixedBits (category v)

theorem SamePattern.refl (w : Word) : SamePattern w w := ⟨rfl, rfl⟩

theorem samePattern_iff (w v : Word) :
    SamePattern w v ↔ w &&& patternMask (fixedBits (category v)) = v &&& patternMask (fixedBits (category v)) := by
  have hk := fixedBits_le (category v)
  have hpow : 2 ^ fixedBits (category v) ≤ 2 ^ 12 := Nat.pow_le_pow_right (by decide) hk
  have hw := Nat.mod_lt w.toNat (Nat.two_pow_pos (fixedBits (category v)))
  have hv := Nat.mod_lt v.toNat (Nat.two_pow_pos (fixedBits (category v)))
  rw [← BitVec.toNat_inj, toNat_and_patternMask w hk, toNat_and_patternMask v hk]
  exact ⟨fun ⟨hc, hl⟩ => by rw [hc, hl], fun h => ⟨by omega, by omega⟩⟩

/-- What selecting a row means (R94). -/
theorem selects_iff {layout : AluLayout} {r : OpcodeRow} (hr : r ∈ opcodeRows layout) (w : Word) :
    selects w r = true ↔ SamePattern w r.matchBits := by
  rw [samePattern_iff, ← mask_eq_patternMask layout r hr, matchBits_and_mask layout r hr, selects, beq_iff_eq]

/-- A word's family alone says which bits of it are a selected row's match. -/
theorem matchBits_of_selects {layout : AluLayout} {r : OpcodeRow} (hr : r ∈ opcodeRows layout) {w : Word}
    (h : selects w r = true) : r.matchBits = w &&& patternMask (fixedBits (category w)) := by
  rw [((selects_iff hr w).mp h).family, ← mask_eq_patternMask layout r hr]
  exact (beq_iff_eq.mp h).symm

theorem SamePattern.eq_of_family_zero {w v : Word} (h : SamePattern w v) (hv : category v = 0) : w = v := by
  have haddr : address12 w = address12 v :=
    BitVec.eq_of_toNat_eq (by rw [address12_toNat, address12_toNat]; simpa [hv, fixedBits] using h.low)
  exact (address12_eq_iff (h.family.trans hv) hv).mp haddr

theorem SamePattern.subop4_eq {w v : Word} (h : SamePattern w v) (hk : fixedBits (category v) = 4) :
    subop4 w = subop4 v :=
  Fin.ext (by rw [subop4_val, subop4_val]; simpa [hk] using h.low)

theorem SamePattern.immediate8_eq {w v : Word} (h : SamePattern w v) (hk : fixedBits (category v) = 8) :
    immediate8 w = immediate8 v :=
  BitVec.eq_of_toNat_eq (by rw [immediate8_toNat, immediate8_toNat]; simpa [hk] using h.low)

/-! ### The pattern of the decoded instruction -/

/-- The pattern of the instruction that a word decodes to, if it is one. -/
def decodedPattern (layout : AluLayout) (w : Word) : Option String :=
  (decode layout w).toOption.map (patternOf layout)

theorem decodedPattern_eq_some_iff {layout : AluLayout} {w : Word} {p : String} :
    decodedPattern layout w = some p ↔ ∃ i, decode layout w = .ok i ∧ patternOf layout i = p := by
  unfold decodedPattern
  cases decode layout w <;> simp [Except.toOption]

/-- A row's own match word decodes to an instruction of the row. -/
theorem decodedPattern_matchBits (layout : AluLayout) :
    ∀ r ∈ opcodeRows layout, decodedPattern layout r.matchBits = some r.pattern := by
  cases layout <;> decide

theorem decodeAlu_pattern_congr (layout : AluLayout) {w v : Word} (h : subop4 w = subop4 v) :
    (decodeAlu layout w).toOption.map (patternOf layout) = (decodeAlu layout v).toOption.map (patternOf layout) := by
  unfold decodeAlu
  rw [h]
  split <;> rfl

theorem decodeMisc_pattern_congr (layout : AluLayout) {w v : Word} (h : immediate8 w = immediate8 v) :
    (decodeMisc w).toOption.map (patternOf layout) = (decodeMisc v).toOption.map (patternOf layout) := by
  unfold decodeMisc
  rw [h]
  split <;> rfl

/-- The decoder chooses the instruction by the family and the bits that its patterns fix, and by nothing else. -/
theorem SamePattern.decodedPattern_eq (layout : AluLayout) {w v : Word} (h : SamePattern w v) :
    decodedPattern layout w = decodedPattern layout v := by
  unfold decodedPattern decode
  rw [h.family]
  split
  case h_1 hc => rw [h.eq_of_family_zero hc]
  case h_6 hc | h_10 hc => rw [h.subop4_eq (by rw [hc]; rfl)]; split <;> rfl
  case h_9 hc => exact decodeAlu_pattern_congr layout (h.subop4_eq (by rw [hc]; rfl))
  case h_15 hc => rw [h.immediate8_eq (by rw [hc]; rfl)]; split <;> [skip; split] <;> rfl
  case h_16 hc => exact decodeMisc_pattern_congr layout (h.immediate8_eq (by rw [hc]; rfl))
  all_goals rfl

/-! ### Every encoded word selects a row -/

theorem samePattern_of_category_eq {w v : Word} (h : category w = category v) (h0 : fixedBits (category v) = 0) :
    SamePattern w v :=
  ⟨h, by rw [h0, Nat.pow_zero, Nat.mod_one, Nat.mod_one]⟩

theorem samePattern_encodeA {f : Nat} (hf : f < 16) (h0 : fixedBits f = 0) (nnn : Addr) :
    SamePattern (encodeA f nnn) (encodeA f 0) :=
  samePattern_of_category_eq (by rw [category_encodeA hf, category_encodeA hf]) (by rwa [category_encodeA hf])

theorem samePattern_encodeXK {f : Nat} (hf : f < 16) (h0 : fixedBits f = 0) (x : Reg) (kk : Byte) :
    SamePattern (encodeXK f x kk) (encodeXK f 0 0) :=
  samePattern_of_category_eq (by rw [category_encodeXK hf, category_encodeXK hf]) (by rwa [category_encodeXK hf])

theorem samePattern_encodeXYN {f : Nat} (hf : f < 16) (h0 : fixedBits f = 0) (x y n : Fin 16) :
    SamePattern (encodeXYN f x y n) (encodeXYN f 0 0 0) :=
  samePattern_of_category_eq (by rw [category_encodeXYN hf, category_encodeXYN hf]) (by rwa [category_encodeXYN hf])

/-- Format X: the low byte is fixed, the register is free (R93). -/
theorem samePattern_encodeX {f : Nat} (hf : f < 16) (h8 : fixedBits f = 8) (x : Reg) (kk : Byte) :
    SamePattern (encodeXK f x kk) (encodeXK f 0 kk) where
  family := by rw [category_encodeXK hf, category_encodeXK hf]
  low := by rw [category_encodeXK hf, h8, encodeXK_toNat hf, encodeXK_toNat hf]; omega

/-- Format XY: the sub-opcode is fixed, the registers are free (R93). -/
theorem samePattern_encodeXY {f : Nat} (hf : f < 16) (h4 : fixedBits f = 4) (x y n : Fin 16) :
    SamePattern (encodeXYN f x y n) (encodeXYN f 0 0 n) where
  family := by rw [category_encodeXYN hf, category_encodeXYN hf]
  low := by rw [category_encodeXYN hf, h4, encodeXYN_toNat hf, encodeXYN_toNat hf]; omega

theorem SamePattern.exists_selects {layout : AluLayout} {w m : Word} (h : SamePattern w m)
    (hm : m ∈ (opcodeRows layout).map OpcodeRow.matchBits) : ∃ r ∈ opcodeRows layout, selects w r = true := by
  obtain ⟨r, hr, rfl⟩ := List.mem_map.mp hm
  exact ⟨r, hr, (selects_iff hr w).mpr h⟩

/-- The word of every instruction selects a row: the one of the word with all its operands 0 (R95, R96). -/
theorem exists_selects_encode (layout : AluLayout) (i : Instr) :
    ∃ r ∈ opcodeRows layout, selects (encode layout i) r = true := by
  cases i with
  | cls | ret => exact (SamePattern.refl _).exists_selects (by cases layout <;> decide)
  | jp nnn | call nnn | ldINnn nnn | jpV0Nnn nnn =>
    exact (samePattern_encodeA (by decide) rfl nnn).exists_selects (by cases layout <;> decide)
  | seVxKk x kk | sneVxKk x kk | ldVxKk x kk | addVxKk x kk | rndVxKk x kk =>
    exact (samePattern_encodeXK (by decide) rfl x kk).exists_selects (by cases layout <;> decide)
  | drwVxVyN x y n => exact (samePattern_encodeXYN (by decide) rfl x y n).exists_selects (by cases layout <;> decide)
  | seVxVy x y | sneVxVy x y | ldVxVy x y | orVxVy x y | andVxVy x y | xorVxVy x y | addVxVy x y | shrVxVy x y
  | subVxVy x y | shlVxVy x y | subnVxVy x y =>
    exact (samePattern_encodeXY (by decide) rfl x y _).exists_selects (by cases layout <;> decide)
  | skpVx x | sknpVx x | ldVxDt x | ldVxK x | ldDtVx x | ldStVx x | addIVx x | ldFVx x | ldBVx x | ldMemVx x
  | ldVxMem x => exact (samePattern_encodeX (by decide) rfl x _).exists_selects (by cases layout <;> decide)

/-! ### The decoder's answers -/

theorem decodeAlu_cases (layout : AluLayout) (w : Word) :
    (∃ i, decodeAlu layout w = .ok i) ∨ decodeAlu layout w = invalidWord w := by
  unfold decodeAlu
  split <;> simp

theorem decodeMisc_cases (w : Word) : (∃ i, decodeMisc w = .ok i) ∨ decodeMisc w = invalidWord w := by
  unfold decodeMisc
  split <;> simp

/-- The decoder is total: an instruction, or `Invalid` with the word's two raw bytes (R94, R117). -/
theorem decode_cases (layout : AluLayout) (w : Word) :
    (∃ i, decode layout w = .ok i) ∨ decode layout w = invalidWord w := by
  unfold decode
  split
  case h_9 => exact decodeAlu_cases layout w
  case h_16 => exact decodeMisc_cases w
  case h_1 | h_15 => split <;> [skip; split] <;> simp
  case h_6 | h_10 => split <;> simp
  all_goals simp

/-- Settles O2: a selected row's match word decodes to the row's pattern, and the word to the same one; a word that
decodes is the word of its instruction, which selects a row; and a word's family determines the match of the row that it
selects. -/
theorem decodeFollowsTheOpcodeMap : Obligations.DecodeFollowsTheOpcodeMap := by
  unfold Obligations.DecodeFollowsTheOpcodeMap
  intro layout w
  refine ⟨fun r hr hs => ?_, fun hnone => ?_, fun r hr r' hr' hs hs' => ?_⟩
  · rw [← decodedPattern_eq_some_iff, ((selects_iff hr w).mp hs).decodedPattern_eq layout]
    exact decodedPattern_matchBits layout r hr
  · obtain ⟨i, hi⟩ | hinvalid := decode_cases layout w
    · obtain ⟨r, hr, hs⟩ := exists_selects_encode layout i
      rw [encode_of_decode hi] at hs
      exact absurd hs (by simp [hnone r hr])
    · exact hinvalid
  · exact List.inj_on_of_nodup_map (matchBits_nodup layout) hr hr'
      ((matchBits_of_selects hr hs).trans (matchBits_of_selects hr' hs').symm)

end Sys2Proof
end

section
/-!
A word outside the opcode map at pc (R117): the CPU's cycle takes the fault InvalidOpcode with the word's two bytes.
-/

namespace Sys2Proof.Machine

@[simp] theorem State.hiByte_fetchWord (s : State) : hiByte s.fetchWord = s.readByte s.pc.toNat :=
  hiByte_wordOfBytes _ _

@[simp] theorem State.loByte_fetchWord (s : State) : loByte s.fetchWord = s.readByte (s.pc.toNat + 1) :=
  loByte_wordOfBytes _ _

/-- The CPU's cycle on a word that does not decode (R110, R117). -/
theorem cpuStep_of_decode_error {s : State} {e : DecodeError} (hpc : PcOk s)
    (hd : decode s.params.aluLayout s.fetchWord = .error e) :
    cpuStep s = .next (s.raise (.invalidOpcode (s.readByte s.pc.toNat) (s.readByte (s.pc.toNat + 1)))) := by
  simp [cpuStep, s.fetchable_iff.mpr hpc, hd]

theorem agentStep_cpu_of_ready {s : State} (h : CpuReady s) : agentStep .cpu s = cpuStep s :=
  if_pos (s.cpuEnabled_iff.mpr h)

/-- Settles O6: the step is the CPU's cycle, and its fault is the fault effect of R231 with the bytes at pc. -/
theorem invalidOpcodeFaults : Obligations.InvalidOpcodeFaults := by
  unfold Obligations.InvalidOpcodeFaults
  intro s e hready hpc hd
  exact ⟨_, (agentStep_cpu_of_ready hready).trans (cpuStep_of_decode_error hpc hd), rfl⟩

end Sys2Proof.Machine
end

section
/-!
The display instructions (40_display.md): their words, what a sprite covers and which events it reports in the spec's
terms (R131, R132), and that the trace gains a draw batch from Dxyn only (R133).
-/

namespace Sys2Proof.Machine

/-! ### Words of format XY and XYN -/

/-- The spec's word of format XYN, with n among its fixed bits, is the encoder's (R93). -/
theorem wordXY_eq_encodeXYN (f : Nat) (x y n : Fin 16) : wordXY (f * 4096 + n.val) x y = encodeXYN f x y n :=
  congrArg (BitVec.ofNat 16) (by omega)

theorem encodesInBoth_cls : EncodesInBoth 0x00E0 .cls := by
  intro layout; cases layout <;> decide

theorem encodesInBoth_drwVxVyN (x y n : Fin 16) : EncodesInBoth (wordXY (0xD000 + n.val) x y) (.drwVxVyN x y n) := by
  intro layout
  have hf : 0xD < 16 := by decide
  rw [wordXY_eq_encodeXYN 0xD, decode, category_encodeXYN hf]
  simp only [regX_encodeXYN hf, regY_encodeXYN hf, subop4_encodeXYN hf]

/-! ### The end of an instruction -/

@[simp] theorem State.pixel_advanceTo (s : State) (p : Nat) (x : Fin 64) (y : Fin 32) :
    (s.advanceTo p).pixel x y = s.pixel x y := by
  simp [State.pixel]

@[simp] theorem State.skipIf_trace (s : State) (c : Bool) : (s.skipIf c).trace = s.trace := by simp [State.skipIf_eq]

/-- Outcome Next from an effect that keeps pc and the run's state (R111, R112, R114). -/
theorem State.advanced_next {s u : State} (pc : u.pc = s.pc) (status : u.status = s.status) (dtRun : u.dtRun = s.dtRun)
    (stRun : u.stRun = s.stRun) : Advanced s u.next (s.pc.toNat + 2) := by
  rw [State.next, pc]; exact State.advanced_advanceTo _ status dtRun stRun

/-- The CPU's step on a decoded instruction that answers a next state (R110). -/
theorem agentStep_cpu_of_exec {s t : State} {i : Instr} (hready : CpuReady s) (hpc : PcOk s)
    (hd : decode s.params.aluLayout s.fetchWord = .ok i) (hx : exec i s = .next t) :
    agentStep .cpu s = .next (t.bill i) := by
  rw [agentStep_cpu_of_ready hready]
  simp [cpuStep, s.fetchable_iff.mpr hpc, hd, hx, mapNext]

/-- The bill of an instruction that neither faults nor suspends (R265). -/
theorem State.bill_of_completed {s t : State} (i : Instr) (params : t.params = s.params) (hf : t.status ≠ .faulted)
    (hp : t.pending = none) : t.bill i = { t with cpuWait := inTimed s (cycleMs i) t.cpuWait } := by
  rw [State.bill, if_neg (by simp [hf, hp]), State.setCpuWait, State.timed, inTimed, ← params]
  cases t.params.timing <;> rfl

/-! ### CLS (R130) -/

/-- Settles O8: CLS is the cleared display and outcome Next. -/
theorem clsClearsTheDisplay : Obligations.ClsClearsTheDisplay := by
  unfold Obligations.ClsClearsTheDisplay
  refine ⟨encodesInBoth_cls, fun s => ⟨s.clearDisplay.next, rfl, ?_, ?_, ?_, ?_, ?_, ?_⟩⟩
  · intro x y; rw [State.next, State.pixel_advanceTo, State.pixel_clearDisplay]
  · exact s.clearDisplay.advanceTo_trace _
  · exact s.clearDisplay.reg_advanceTo _
  · exact State.readByte_congr (s.clearDisplay.advanceTo_params _) (s.clearDisplay.advanceTo_mem _)
  · unfold State.next State.advanceTo; split <;> rfl
  · exact State.advanced_next rfl rfl rfl rfl

/-! ### Sprites in the spec's terms (R131) -/

/-- The pixels of a sprite in memory, row by row. -/
theorem State.spritePixels_readBytes (s : State) (a X Y r n : Nat) :
    spritePixels X Y r (s.readBytes a n) =
      (List.range n).flatMap fun k => rowPixels X Y (r + k) (s.readByte (a + k)) := by
  induction n generalizing a r with
  | zero => rfl
  | succ n ih =>
    simp [State.readBytes, spritePixels, ih, List.range_succ_eq_map, List.flatMap_map, Nat.add_comm, Nat.add_left_comm]

theorem State.mem_spritePixels_iff_covered (s : State) (a X Y n : Nat) (px : Fin 64) (py : Fin 32) :
    (px, py) ∈ spritePixels X Y 0 (s.readBytes a n) ↔ s.covered a X Y n px py := by
  simp [s.spritePixels_readBytes, State.covered, State.spriteBit, mem_rowPixels]

theorem State.map_lightPixel_spritePixels (s : State) (a X Y n : Nat) :
    ((spritePixels X Y 0 (s.readBytes a n)).map fun p => DeviceEvent.lightPixel p.1 p.2 (s.pixel p.1 p.2)) =
      s.spriteEvents a X Y n := by
  simp [s.spritePixels_readBytes, State.spriteEvents, State.spriteBit, rowPixels, List.map_flatMap, spritePixel,
    Function.comp_def]

theorem State.isLightPixel_of_mem_spriteEvents {s : State} {a X Y n : Nat} {e : DeviceEvent}
    (h : e ∈ s.spriteEvents a X Y n) : ∃ x y c, e = .lightPixel x y c := by
  rw [← s.map_lightPixel_spritePixels] at h
  obtain ⟨p, -, rfl⟩ := List.mem_map.mp h
  exact ⟨_, _, _, rfl⟩

/-! ### DRW (R131, R132) -/

section Draw

variable (s : State) (x y : Reg) (n : Fin 16)

/-- A draw toggles the covered pixels and no other. -/
theorem State.pixel_draw (px : Fin 64) (py : Fin 32) :
    (s.covered (baseOf s) (s.reg x).toNat (s.reg y).toNat n.val px py →
        (s.draw x y n.val).pixel px py = !s.pixel px py) ∧
      (¬s.covered (baseOf s) (s.reg x).toNat (s.reg y).toNat n.val px py →
        (s.draw x y n.val).pixel px py = s.pixel px py) := by
  obtain ⟨hpixel, -, -⟩ := s.draw_spec x y (n := n.val) (by omega) rfl
  rw [hpixel, ← s.mem_spritePixels_iff_covered, s.base_eq]
  exact ⟨fun h => if_pos h, fun h => if_neg h⟩

/-- VF after a draw says whether a covered pixel was lit. -/
theorem State.reg_flag_draw :
    ((∃ px py, s.covered (baseOf s) (s.reg x).toNat (s.reg y).toNat n.val px py ∧ s.pixel px py = true) ∧
        (s.draw x y n.val).reg 15 = 1) ∨
      ((∀ px py, s.covered (baseOf s) (s.reg x).toNat (s.reg y).toNat n.val px py → s.pixel px py = false) ∧
        (s.draw x y n.val).reg 15 = 0) := by
  obtain ⟨-, hflag, -⟩ := s.draw_spec x y (n := n.val) (by omega) rfl
  rw [s.base_eq] at hflag
  simp only [← State.mem_spritePixels_iff_covered]
  split at hflag
  · next hlit =>
    obtain ⟨p, hp, hlit⟩ := List.any_eq_true.mp hlit
    exact .inl ⟨⟨p.1, p.2, hp, hlit⟩, hflag⟩
  · next hunlit =>
    refine .inr ⟨fun px py hp => Bool.eq_false_iff.mpr fun hlit => hunlit ?_, hflag⟩
    exact List.any_eq_true.mpr ⟨(px, py), hp, hlit⟩

/-- A draw appends its batch to the trace. -/
theorem State.trace_draw :
    (s.draw x y n.val).trace = s.trace ++
      (.startDrawBatch :: s.spriteEvents (baseOf s) (s.reg x).toNat (s.reg y).toNat n.val ++ [.finishDrawBatch]) := by
  obtain ⟨-, -, htrace⟩ := s.draw_spec x y (n := n.val) (by omega) rfl
  rw [htrace, s.map_lightPixel_spritePixels, s.base_eq]
  rfl

/-- Outcome Next after a draw touches nothing but VF, the display, the trace, and what the advance writes. -/
theorem State.next_draw_frame :
    (s.draw x y n.val).next = { s with
      v := (s.draw x y n.val).next.v, fb := (s.draw x y n.val).next.fb, trace := (s.draw x y n.val).next.trace
      pc := (s.draw x y n.val).next.pc, status := (s.draw x y n.val).next.status
      dtRun := (s.draw x y n.val).next.dtRun, stRun := (s.draw x y n.val).next.stRun } := by
  have h := s.draw_frame x y n.val
  generalize s.draw x y n.val = u at h ⊢
  unfold State.next State.advanceTo
  split <;> rw [h]

theorem State.advanced_next_draw : Advanced s (s.draw x y n.val).next (s.pc.toNat + 2) := by
  apply State.advanced_next <;> rw [State.draw_frame]

/-- DRW draws where the whole sprite lies in memory, and faults with 0x1000 elsewhere (R64). -/
theorem exec_drwVxVyN : exec (.drwVxVyN x y n) s = .next
    (if baseOf s + n.val - 1 ≤ 0xFFF then (s.draw x y n.val).next else s.raise (.addressOutOfRange 0x1000)) := by
  have hcheck : s.base + n.val ≤ 4096 ↔ baseOf s + n.val - 1 ≤ 0xFFF := by
    rw [s.base_eq, baseOf]; omega
  simp only [exec, execDrwVxVyN, State.checkAddresses_eq, hcheck]
  split <;> rfl

/-- The CPU's step on a DRW that completes (R132, R265). -/
theorem agentStep_cpu_of_draw (hx : exec (.drwVxVyN x y n) s = .next (s.draw x y n.val).next) (hready : CpuReady s)
    (hpc : PcOk s) (hd : decode s.params.aluLayout (fetched s) = .ok (.drwVxVyN x y n)) :
    agentStep .cpu s = .next { (s.draw x y n.val).next with
      cpuWait := inTimed s 20 (s.draw x y n.val).next.cpuWait } := by
  have keeps := KeepsControl.of_draw s x y n.val
  have ⟨hrun, hpending, _⟩ := hready
  rw [agentStep_cpu_of_exec hready hpc hd hx, State.bill_of_completed _ (s := s)]
  · rfl
  · simpa [State.next] using keeps.params
  · rw [State.next, State.advanceTo_status, keeps.status, hrun]; split <;> simp
  · simpa [State.next, keeps.pending] using hpending

end Draw

/-- Settles O9: DRW is the fault of the address check, or the draw in the spec's terms and outcome Next. -/
theorem drwDrawsTheSprite : Obligations.DrwDrawsTheSprite := by
  unfold Obligations.DrwDrawsTheSprite
  intro x y n s
  refine ⟨encodesInBoth_drwVxVyN x y n, fun hout => ?_, fun hin => ?_⟩
  · have hx : exec (.drwVxVyN x y n) s = .next (s.raise (.addressOutOfRange 0x1000)) := by
      rw [exec_drwVxVyN, if_neg (Nat.not_le.mpr hout)]
    exact ⟨_, hx, rfl⟩
  · have hx : exec (.drwVxVyN x y n) s = .next (s.draw x y n.val).next := by rw [exec_drwVxVyN, if_pos hin]
    refine ⟨(s.draw x y n.val).next, hx, ?_, ?_, ?_, ?_, ?_, s.next_draw_frame x y n, s.advanced_next_draw x y n,
      agentStep_cpu_of_draw s x y n hx⟩
    · simpa [State.next] using s.pixel_draw x y n
    · simpa only [State.next, State.reg_advanceTo] using s.reg_flag_draw x y n
    · rw [State.next, State.advanceTo_trace, s.trace_draw]
    · intro q hq; rw [State.next, State.reg_advanceTo, s.reg_draw x y n.val hq]
    · intro a; rw [s.next_draw_frame]; rfl

/-! ### Who emits draw-batch events (R133) -/

theorem State.unlessFault_trace {s effect : State} (check : Option FaultCause) (h : effect.trace = s.trace) :
    (s.unlessFault check effect).trace = s.trace := by
  cases check with
  | none => exact h
  | some c => rfl

theorem State.writeReg_trace {s t : State} {x : Reg} {b : Byte} (h : s.writeReg x b = .next t) :
    t.trace = s.trace := by
  cases h; exact (s.setReg x b).advanceTo_trace _

theorem State.writeRegFlag_trace {s t : State} {x : Reg} {b f : Byte} (h : s.writeRegFlag x b f = .next t) :
    t.trace = s.trace := by
  cases h; exact ((s.setReg x b).setFlag f).advanceTo_trace _

/-- No instruction but CLS and DRW touches the trace (R37). -/
theorem exec_trace {i : Instr} {s t : State} (h : exec i s = .next t) (hcls : i ≠ .cls) (hdrw : isDrw i = false) :
    t.trace = s.trace := by
  cases i with
  | cls => exact absurd rfl hcls
  | drwVxVyN x y n => cases hdrw
  | ret =>
    simp only [exec, execRet] at h
    split at h <;> cases h
    · rfl
    · exact State.advanceTo_trace _ _
  | call nnn =>
    simp only [exec, execCall] at h
    split at h <;> cases h
    · rfl
    · exact State.unlessFault_trace _ rfl
  | jp nnn | jpV0Nnn nnn => cases h; exact State.unlessFault_trace _ rfl
  | seVxKk x kk | sneVxKk x kk | seVxVy x y | sneVxVy x y => cases h; exact s.skipIf_trace _
  | skpVx x | sknpVx x => cases h; exact State.unlessFault_trace _ (s.skipIf_trace _)
  | ldFVx x | ldBVx x | ldMemVx x | ldVxMem x => cases h; exact State.unlessFault_trace _ (by simp [State.next])
  | ldVxK x => cases h; rfl
  | ldVxKk x kk | addVxKk x kk | ldVxVy x y | orVxVy x y | andVxVy x y | xorVxVy x y => exact State.writeReg_trace h
  | addVxVy x y | shrVxVy x y | subVxVy x y | shlVxVy x y | subnVxVy x y => exact State.writeRegFlag_trace h
  | rndVxKk x kk | ldINnn nnn | addIVx x | ldVxDt x | ldDtVx x | ldStVx x => cases h; simp [State.next]

/-- A DRW that does not fault appends its batch to the trace (R132, R133). -/
theorem exec_drwVxVyN_trace {s t : State} {x y : Reg} {n : Fin 16} (h : exec (.drwVxVyN x y n) s = .next t)
    (hf : t.status ≠ .faulted) : t.trace = s.trace ++
      (.startDrawBatch :: s.spriteEvents (baseOf s) (s.reg x).toNat (s.reg y).toNat n.val ++ [.finishDrawBatch]) := by
  rw [exec_drwVxVyN] at h
  split at h <;> cases h
  · rw [State.next, State.advanceTo_trace, s.trace_draw]
  · exact absurd rfl hf

/-- Settles O10: DRW's batch is around LightPixel events, CLS emits Clear, and the rest emit nothing. -/
theorem onlyDrwEmitsBatchEvents : Obligations.OnlyDrwEmitsBatchEvents := by
  unfold Obligations.OnlyDrwEmitsBatchEvents
  intro i s t h
  refine ⟨fun hdrw hf => ?_, fun hdrw => ?_⟩
  · cases i with
    | drwVxVyN x y n => exact ⟨_, exec_drwVxVyN_trace h hf, fun _ => State.isLightPixel_of_mem_spriteEvents⟩
    | _ => cases hdrw
  · by_cases hcls : i = .cls
    · subst hcls
      cases h
      exact ⟨[.clear], s.clearDisplay.advanceTo_trace _, by decide, by decide⟩
    · exact ⟨[], by rw [exec_trace h hcls hdrw, List.append_nil], by simp, by simp⟩

end Sys2Proof.Machine
end

section
/-!
The control-flow instructions (41_control_flow.md): how a word of each format decodes, how a conditional skip and a checked
jump end, and what RET, JP, CALL, the skips and JP V0 do.
-/

namespace Sys2Proof.Machine

/-! ### The words of a family that decodes by its operands alone -/

section Words

variable {f : Nat} (hf : f < 16)
include hf

/-- A family of format A: every word of it is the instruction with the word's own address (R93). -/
theorem encodesInBoth_wordA {i : Addr → Instr}
    (hd : ∀ layout w, category w = f → decode layout w = .ok (i (address12 w))) (nnn : Addr) :
    EncodesInBoth (wordA (f * 4096) nnn) (i nnn) := by
  intro layout
  have h := hd layout (encodeA f nnn) (category_encodeA hf nnn)
  rwa [address12_encodeA hf] at h

/-- A family of format XK: every word of it is the instruction with the word's own register and byte (R93). -/
theorem encodesInBoth_wordXK {i : Reg → Byte → Instr}
    (hd : ∀ layout w, category w = f → decode layout w = .ok (i (regX w) (immediate8 w))) (x : Reg) (kk : Byte) :
    EncodesInBoth (wordXK (f * 4096) x kk) (i x kk) := by
  intro layout
  have h := hd layout (encodeXK f x kk) (category_encodeXK hf x kk)
  rwa [regX_encodeXK hf, immediate8_encodeXK hf] at h

/-- The words of a family with one sub-opcode, of format XY: the instruction with the word's own registers (R93). -/
theorem encodesInBoth_wordXY {i : Reg → Reg → Instr} {n : Fin 16}
    (hd : ∀ layout w, category w = f → subop4 w = n → decode layout w = .ok (i (regX w) (regY w))) (x y : Reg) :
    EncodesInBoth (wordXY (f * 4096 + n.val) x y) (i x y) := by
  intro layout
  have h := hd layout (encodeXYN f x y n) (category_encodeXYN hf x y n) (subop4_encodeXYN hf x y n)
  rwa [regX_encodeXYN hf, regY_encodeXYN hf, ← wordXY_eq_encodeXYN] at h

end Words

/-! ### Sequential advances and skips (R111 to R114) -/

theorem State.onlyPc_advanceTo (s : State) (p : Nat) : OnlyPc s (s.advanceTo p) :=
  ⟨s.advanceTo_frame p, State.readByte_congr (s.advanceTo_params p) (s.advanceTo_mem p)⟩

/-- An instruction that only skips on a condition advances by 4 or by 2 and keeps the rest. -/
theorem onlyAdvances_of_skipIf {i : Instr} {s : State} {c : Bool} (hx : exec i s = .next (s.skipIf c)) :
    OnlyAdvances i s (if c then 4 else 2) := by
  rw [State.skipIf_eq] at hx
  exact ⟨_, hx, s.onlyPc_advanceTo _, State.advanced_advanceTo _ rfl rfl rfl⟩

/-! ### Checked targets (R140) -/

theorem checkTarget_of_outside {t : Nat} (h : 0xFFF < t) : checkTarget t = some (.pcOutOfRange t) := if_pos h

theorem checkTarget_of_odd {t : Nat} (hin : t ≤ 0xFFF) (hodd : t % 2 = 1) :
    checkTarget t = some (.pcMisaligned t) := by
  rw [checkTarget, if_neg (Nat.not_lt.mpr hin), if_pos hodd]

section CheckedTarget

variable {i : Instr} {s effect : State} {t : Nat} (hx : exec i s = .next (s.unlessFault (checkTarget t) effect))
include hx

theorem faults_of_target_outside (h : 0xFFF < t) : Faults i s (.pcOutOfRange t) := by
  rw [checkTarget_of_outside h] at hx
  exact ⟨_, hx, rfl⟩

theorem faults_of_target_odd (hin : t ≤ 0xFFF) (hodd : t % 2 = 1) : Faults i s (.pcMisaligned t) := by
  rw [checkTarget_of_odd hin hodd] at hx
  exact ⟨_, hx, rfl⟩

theorem exec_of_target_ok (hin : t ≤ 0xFFF) (heven : t % 2 = 0) : exec i s = .next effect := by
  rwa [checkTarget_eq_none hin heven] at hx

end CheckedTarget

/-- An address operand is never past the end of memory. -/
theorem addr_toNat_le (nnn : Addr) : nnn.toNat ≤ 0xFFF := Nat.le_of_lt_succ nnn.isLt

/-! ### RET (R141) -/

theorem exec_ret_of_empty {s : State} (h : s.stack = []) : exec .ret s = .next (s.raise (.stackUnderflow 0x00EE)) := by
  simp [exec, execRet, h]

theorem exec_ret_of_cons {s : State} {r : Word} {rest : List Word} (h : s.stack = r :: rest) :
    exec .ret s = .next ({ s with stack := rest }.advanceTo (r.toNat + 2)) := by
  simp [exec, execRet, h, State.returnTo]

/-- Settles O12: an empty stack is the fault, and else RET is the popped stack and the advance from its top. -/
theorem retReturnsPastTheCall : Obligations.RetReturnsPastTheCall := by
  unfold Obligations.RetReturnsPastTheCall
  refine ⟨fun layout => by cases layout <;> decide, fun s h => ⟨_, exec_ret_of_empty h, rfl⟩, fun s r rest h => ?_⟩
  obtain ⟨hframe, hmem⟩ := State.onlyPc_advanceTo { s with stack := rest } (r.toNat + 2)
  refine ⟨_, exec_ret_of_cons h, State.advanceTo_stack _ _, State.reg_advanceTo _ _, hmem, ?_,
    State.advanced_advanceTo _ rfl rfl rfl⟩
  rw [State.advanceTo_stack]
  exact hframe

/-! ### Jumps (R142, R143, R148) -/

/-- Settles O13: JP is the checked jump to its operand. -/
theorem jpJumps : Obligations.JpJumps := by
  unfold Obligations.JpJumps
  intro nnn s
  have hx : exec (.jp nnn) s = .next (s.unlessFault (checkTarget nnn.toNat) (s.jump nnn.toNat)) := rfl
  have hin := addr_toNat_le nnn
  exact ⟨encodesInBoth_wordA (f := 0x1) (by decide) (fun _ _ h => by simp [decode, h]) nnn,
    faults_of_target_odd hx hin, fun heven => ⟨_, exec_of_target_ok hx hin heven, rfl, fun _ => rfl⟩⟩

theorem exec_call_of_full {s : State} (nnn : Addr) (h : 16 ≤ s.stack.length) :
    exec (.call nnn) s = .next (s.raise (.stackOverflow s.pc)) := if_pos h

theorem exec_call_of_room {s : State} (nnn : Addr) (h : s.stack.length < 16) :
    exec (.call nnn) s = .next
      (s.unlessFault (checkTarget nnn.toNat) ({ s with stack := s.pc :: s.stack }.jump nnn.toNat)) :=
  if_neg (Nat.not_le.mpr h)

/-- Settles O14: a full stack is the fault, and with room CALL is the pushed pc and the checked jump. -/
theorem callPushesItsOwnAddress : Obligations.CallPushesItsOwnAddress := by
  unfold Obligations.CallPushesItsOwnAddress
  intro nnn s
  have hin := addr_toNat_le nnn
  refine ⟨encodesInBoth_wordA (f := 0x2) (by decide) (fun _ _ h => by simp [decode, h]) nnn,
    fun hfull => ⟨_, exec_call_of_full nnn hfull.ge, rfl⟩, fun hroom => ?_, fun hroom heven => ?_⟩
  · exact faults_of_target_odd (exec_call_of_room nnn hroom) hin
  · exact ⟨_, exec_of_target_ok (exec_call_of_room nnn hroom) hin heven, rfl, fun _ => rfl⟩

/-- Settles O18: JP V0 is the checked jump to the exact sum. -/
theorem jpV0JumpsToTheSum : Obligations.JpV0JumpsToTheSum := by
  unfold Obligations.JpV0JumpsToTheSum
  intro nnn s
  have hx : exec (.jpV0Nnn nnn) s = .next (s.unlessFault (checkTarget ((s.reg 0).toNat + nnn.toNat))
    (s.jump ((s.reg 0).toNat + nnn.toNat))) := rfl
  exact ⟨encodesInBoth_wordA (f := 0xB) (by decide) (fun _ _ h => by simp [decode, h]) nnn,
    faults_of_target_outside hx, faults_of_target_odd hx,
    fun hin heven => ⟨_, exec_of_target_ok hx hin heven, rfl, fun _ => rfl⟩⟩

/-! ### Skips (R144 to R147) -/

/-- Settles O16: both are a skip on the comparison with kk. -/
theorem immediateSkipsCompare : Obligations.ImmediateSkipsCompare := by
  unfold Obligations.ImmediateSkipsCompare
  intro x kk s
  have hse : OnlyAdvances (.seVxKk x kk) s (if s.reg x == kk then 4 else 2) := onlyAdvances_of_skipIf rfl
  have hsne : OnlyAdvances (.sneVxKk x kk) s (if s.reg x != kk then 4 else 2) := onlyAdvances_of_skipIf rfl
  exact ⟨encodesInBoth_wordXK (f := 0x3) (by decide) (fun _ _ h => by simp [decode, h]) x kk, by simpa using hse,
    encodesInBoth_wordXK (f := 0x4) (by decide) (fun _ _ h => by simp [decode, h]) x kk, by simpa using hsne⟩

/-- In the families 5 and 9 every low nibble but 0 is invalid (R98, R146, R147). -/
theorem decode_wordXY_eq_error {f : Nat} (hf : f = 0x5 ∨ f = 0x9) (layout : AluLayout) (x y : Reg) {n : Fin 16}
    (hn : n ≠ 0) : ∃ e, decode layout (wordXY (f * 4096 + n.val) x y) = .error e := by
  have hlt : f < 16 := by omega
  have hlow : n.val ≠ 0 := Fin.val_ne_of_ne hn
  rw [wordXY_eq_encodeXYN, invalidWordsByFamily layout, category_encodeXYN hlt, subop4_encodeXYN hlt]
  obtain h5 | h9 := hf
  · exact .inr (.inl ⟨h5, hlow⟩)
  · exact .inr (.inr (.inr (.inr (.inl ⟨h9, hlow⟩))))

/-- Settles O17: both are a skip on the comparison of the registers. -/
theorem registerSkipsCompare : Obligations.RegisterSkipsCompare := by
  unfold Obligations.RegisterSkipsCompare
  intro x y s
  have hse : OnlyAdvances (.seVxVy x y) s (if s.reg x == s.reg y then 4 else 2) := onlyAdvances_of_skipIf rfl
  have hsne : OnlyAdvances (.sneVxVy x y) s (if s.reg x != s.reg y then 4 else 2) := onlyAdvances_of_skipIf rfl
  refine ⟨encodesInBoth_wordXY (f := 0x5) (n := 0) (by decide) (fun _ _ h hn => by simp [decode, h, hn]) x y,
    encodesInBoth_wordXY (f := 0x9) (n := 0) (by decide) (fun _ _ h hn => by simp [decode, h, hn]) x y,
    fun layout n hn => ⟨?_, ?_⟩, by simpa using hse, by simpa using hsne⟩
  · exact decode_wordXY_eq_error (.inl rfl) layout x y hn
  · exact decode_wordXY_eq_error (.inr rfl) layout x y hn

end Sys2Proof.Machine
end

section
/-!
Register loads and the ALU (42_registers_alu.md): the words of family 8 in each layout, the model's results and flags in
the spec's terms, and how an instruction that writes Vx, or Vx and then VF, completes.
-/

namespace Sys2Proof.Machine

/-! ### The words of family 8 (R95, R96) -/

/-- A sub-opcode of family 8: every word of it is the instruction with the word's own registers (R93). For a numeral as
sub-opcode the decoder's table gives the hypothesis. -/
theorem decode_wordXY_alu {layout : AluLayout} {i : Reg → Reg → Instr} {n : Fin 16} (x y : Reg)
    (hd : ∀ w, (subop4 w).val = n.val → decodeAlu layout w = .ok (i (regX w) (regY w)) := by
      intro w hn; simp [decodeAlu, hn]) :
    decode layout (wordXY (0x8000 + n.val) x y) = .ok (i x y) := by
  have hf : 0x8 < 16 := by decide
  have h := hd (encodeXYN 0x8 x y n) (congrArg Fin.val (subop4_encodeXYN hf x y n))
  rw [regX_encodeXYN hf, regY_encodeXYN hf] at h
  rw [wordXY_eq_encodeXYN 0x8, decode, category_encodeXYN hf]
  exact h

/-- SHL's word in DOC, which is SUBN's in CLASSIC (R169, R170). -/
theorem decode_doc_wordXY_shl (x y : Reg) : decode .doc (wordXY 0x8007 x y) = .ok (.shlVxVy x y) :=
  decode_wordXY_alu (n := 7) x y

/-- SUBN has no word in DOC: its only candidate is SHL there (R170). -/
theorem decode_doc_ne_subn (x y : Reg) (w : Word) : decode .doc w ≠ .ok (.subnVxVy x y) := by
  intro h
  have hw : wordXY 0x8007 x y = w := (wordXY_eq_encodeXYN 0x8 x y 7).trans (encode_of_decode h)
  rw [← hw, decode_doc_wordXY_shl] at h
  cases h

/-! ### Results and flags in the spec's terms (R158) -/

theorem flagByte_decide (p : Prop) [Decidable p] : flagByte (decide p) = if p then 1 else 0 := by
  simp only [flagByte, decide_eq_true_eq]

theorem addResult_eq (a b : Byte) : addResult a b = BitVec.ofNat 8 ((a.toNat + b.toNat) % 256) := by
  apply BitVec.eq_of_toNat_eq
  simp [addResult]

theorem addFlag_eq (a b : Byte) : addFlag a b = if a.toNat + b.toNat > 255 then 1 else 0 := flagByte_decide _

/-- The model adds 256 always, the spec on a borrow only: the byte is the same (R168). -/
theorem subResult_eq (a b : Byte) : subResult a b =
    BitVec.ofNat 8 (if a.toNat < b.toNat then a.toNat + 256 - b.toNat else a.toNat - b.toNat) := by
  apply BitVec.eq_of_toNat_eq
  simp only [subResult, BitVec.toNat_ofNat]
  split <;> omega

theorem subFlag_eq (a b : Byte) : subFlag a b = if b.toNat ≤ a.toNat then 1 else 0 := flagByte_decide _

theorem shrResult_eq (src : Byte) : shrResult src = src >>> 1 := by
  apply BitVec.eq_of_toNat_eq
  have := src.isLt
  simp only [shrResult, BitVec.toNat_ofNat, BitVec.toNat_ushiftRight, Nat.shiftRight_eq_div_pow]
  omega

theorem shrFlag_eq (src : Byte) : shrFlag src = if src.toNat % 2 = 1 then 1 else 0 := by
  rw [shrFlag, BitVec.getLsbD, Nat.testBit_zero, flagByte_decide]

theorem shlResult_eq (src : Byte) : shlResult src = src <<< 1 := by
  apply BitVec.eq_of_toNat_eq
  simp [shlResult, Nat.shiftLeft_eq]

/-- Bit 7 of a byte is its top bit (R169). -/
theorem shlFlag_eq (src : Byte) : shlFlag src = if 128 ≤ src.toNat then 1 else 0 := by
  have htop : src.getLsbD 7 = decide (128 ≤ src.toNat) := BitVec.msb_eq_decide src
  rw [shlFlag, htop, flagByte_decide]

theorem State.shiftSource_eq (s : State) (x y : Reg) :
    s.shiftSource x y = if s.params.shiftSource = .y then s.reg y else s.reg x := by
  cases h : s.params.shiftSource <;> simp [State.shiftSource, h]

/-! ### The end of an instruction that writes registers (R115, R159) -/

/-- Outcome Next from a state in which the registers alone differ. -/
theorem State.onlyRegs_next (s : State) (v : Vector Byte 16) : OnlyRegs s { s with v := v }.next := by
  refine ⟨?_, State.readByte_congr (State.advanceTo_params _ _) (State.advanceTo_mem _ _)⟩
  rw [State.next, State.advanceTo_v]
  exact State.advanceTo_frame _ _

theorem writesReg_of_writeReg {i : Instr} {s : State} {x : Reg} {b : Byte} (hx : exec i s = s.writeReg x b) :
    WritesReg i s x b := by
  have hreg (q : Reg) : (s.setReg x b).next.reg q = if q = x then b else s.reg q := by simp [State.next]
  refine ⟨_, hx, ?_, fun q hq => ?_, s.onlyRegs_next _, State.advanced_next rfl rfl rfl rfl⟩
  · rw [hreg, if_pos rfl]
  · rw [hreg, if_neg hq]

/-- The flag is written last, so that with x = 15 VF holds it (R115). -/
theorem writesRegAndFlag_of_writeRegFlag {i : Instr} {s : State} {x : Reg} {b f : Byte}
    (hx : exec i s = s.writeRegFlag x b f) : WritesRegAndFlag i s x b f := by
  have hreg (q : Reg) : ((s.setReg x b).setFlag f).next.reg q = if q = 15 then f else if q = x then b else s.reg q := by
    simp [State.next]
  refine ⟨_, hx, fun h15 => ?_, ?_, fun q hq h15 => ?_, s.onlyRegs_next _, State.advanced_next rfl rfl rfl rfl⟩
  · rw [hreg, if_neg h15, if_pos rfl]
  · rw [hreg, if_pos rfl]
  · rw [hreg, if_neg h15, if_neg hq]

/-! ### Loads, immediates and logic (R160 to R165) -/

/-- Settles O19: both write Vx alone, LD the immediate and ADD the byte of the sum. -/
theorem immediateLoadAndAdd : Obligations.ImmediateLoadAndAdd := by
  unfold Obligations.ImmediateLoadAndAdd
  intro x kk s
  refine ⟨encodesInBoth_wordXK (f := 0x6) (by decide) (fun _ _ h => by simp [decode, h]) x kk,
    writesReg_of_writeReg rfl,
    encodesInBoth_wordXK (f := 0x7) (by decide) (fun _ _ h => by simp [decode, h]) x kk, ?_⟩
  rw [← addResult_eq]
  exact writesReg_of_writeReg rfl

/-- Settles O20: each writes Vx alone. -/
theorem moveAndLogicWriteVx : Obligations.MoveAndLogicWriteVx := by
  unfold Obligations.MoveAndLogicWriteVx
  intro x y s
  exact ⟨⟨fun _ => decode_wordXY_alu (n := 0) x y, writesReg_of_writeReg rfl⟩,
    ⟨fun _ => decode_wordXY_alu (n := 1) x y, writesReg_of_writeReg rfl⟩,
    ⟨fun _ => decode_wordXY_alu (n := 2) x y, writesReg_of_writeReg rfl⟩,
    ⟨fun _ => decode_wordXY_alu (n := 3) x y, writesReg_of_writeReg rfl⟩⟩

/-! ### Sums and differences (R166, R168, R170) -/

/-- Settles O21: the byte of the sum in Vx and then its carry in VF. -/
theorem addSetsTheCarry : Obligations.AddSetsTheCarry := by
  unfold Obligations.AddSetsTheCarry
  intro x y s
  refine ⟨fun _ => decode_wordXY_alu (n := 4) x y, ?_⟩
  rw [← addResult_eq, ← addFlag_eq]
  exact writesRegAndFlag_of_writeRegFlag rfl

/-- Settles O22: the byte of the difference in Vx and then not-borrow in VF. -/
theorem subSetsNotBorrow : Obligations.SubSetsNotBorrow := by
  unfold Obligations.SubSetsNotBorrow
  intro x y s
  refine ⟨decode_wordXY_alu (n := 6) x y, decode_wordXY_alu (n := 5) x y, ?_⟩
  rw [← subResult_eq, ← subFlag_eq]
  exact writesRegAndFlag_of_writeRegFlag rfl

/-- Settles O23: SUB with the operands exchanged, and in DOC the only word it could have is SHL. -/
theorem subnSubtractsTheOtherWay : Obligations.SubnSubtractsTheOtherWay := by
  unfold Obligations.SubnSubtractsTheOtherWay
  intro x y s
  refine ⟨decode_wordXY_alu (n := 7) x y, decode_doc_wordXY_shl x y, decode_doc_ne_subn x y, ?_⟩
  rw [← subResult_eq, ← subFlag_eq]
  exact writesRegAndFlag_of_writeRegFlag rfl

/-! ### Shifts (R167, R169) -/

/-- Settles O24: the shifted source in Vx and then its bit 0 in VF, whichever register SHIFT_SOURCE names. -/
theorem shrShiftsOutBitZero : Obligations.ShrShiftsOutBitZero := by
  unfold Obligations.ShrShiftsOutBitZero
  intro x y s
  refine ⟨decode_wordXY_alu (n := 5) x y, decode_wordXY_alu (n := 6) x y, fun src hsrc => ?_⟩
  rw [hsrc, ← s.shiftSource_eq, ← shrResult_eq, ← shrFlag_eq]
  exact writesRegAndFlag_of_writeRegFlag rfl

/-- Settles O25: the shifted source in Vx and then its bit 7 in VF, whichever register SHIFT_SOURCE names. -/
theorem shlShiftsOutBitSeven : Obligations.ShlShiftsOutBitSeven := by
  unfold Obligations.ShlShiftsOutBitSeven
  intro x y s
  refine ⟨decode_doc_wordXY_shl x y, decode_wordXY_alu (n := 14) x y, fun src hsrc => ?_⟩
  rw [hsrc, ← s.shiftSource_eq, ← shlResult_eq, ← shlFlag_eq]
  exact writesRegAndFlag_of_writeRegFlag rfl

end Sys2Proof.Machine
end

section
/-!
The address register and memory (43_address_memory.md): the words of family F, the two checks that an instruction may
end in, what stored bytes read as, and how the instructions that write I, store to memory and load from it complete.
-/

namespace Sys2Proof.Machine

/-! ### The words of family F (R95) -/

/-- A row of family F: every word of it is the instruction with the word's own register (R93). For a numeral as low byte
the decoder's table gives the hypothesis. -/
theorem encodesInBoth_wordXK_misc {i : Reg → Instr} {kk : Byte} (x : Reg)
    (hd : ∀ w, immediate8 w = kk → decodeMisc w = .ok (i (regX w)) := by intro w hk; simp [decodeMisc, hk]) :
    EncodesInBoth (wordXK 0xF000 x kk) (i x) := by
  intro layout
  have hf : 0xF < 16 := by decide
  have h := hd (encodeXK 0xF x kk) (immediate8_encodeXK hf x kk)
  rw [regX_encodeXK hf] at h
  change decode layout (encodeXK 0xF x kk) = _
  rw [decode, category_encodeXK hf]
  exact h

/-! ### Checked addresses (R64) and checked digits (R192, R210) -/

theorem State.base_eq_baseOf (s : State) : s.base = baseOf s := s.base_eq

section CheckedAddresses

variable {i : Instr} {s effect : State} {n : Nat}
  (hx : exec i s = .next (s.unlessFault (s.checkAddresses n) effect))
include hx

theorem faults_of_addresses_outside (h : 4096 < baseOf s + n) : Faults i s (.addressOutOfRange 0x1000) := by
  rw [State.checkAddresses_eq, State.base_eq_baseOf, if_neg (Nat.not_le.mpr h)] at hx
  exact ⟨_, hx, rfl⟩

theorem exec_of_addresses_inside (h : baseOf s + n ≤ 4096) : exec i s = .next effect := by
  rwa [State.checkAddresses_eq, State.base_eq_baseOf, if_pos h] at hx

end CheckedAddresses

section CheckedDigit

variable {i : Instr} {s effect : State} {x : Reg}
  (hx : exec i s = .next (s.unlessFault (s.checkDigit x) effect))
include hx

theorem faults_of_not_digit (h : 15 < (s.reg x).toNat) : Faults i s (.invalidRegisterValue x (s.reg x)) := by
  rw [State.checkDigit, if_pos h] at hx
  exact ⟨_, hx, rfl⟩

theorem exec_of_digit (h : (s.reg x).toNat ≤ 15) : exec i s = .next effect := by
  rwa [State.checkDigit, if_neg (Nat.not_lt.mpr h)] at hx

end CheckedDigit

/-! ### Stored bytes (R63, R67) -/

@[simp] theorem State.readByte_next (s : State) (a : Nat) : s.next.readByte a = s.readByte a :=
  State.readByte_congr (s.advanceTo_params _) (s.advanceTo_mem _) a

@[simp] theorem State.reg_next (s : State) (r : Reg) : s.next.reg r = s.reg r := s.reg_advanceTo _ r

@[simp] theorem State.readByte_setI (s : State) (n a : Nat) : (s.setI n).readByte a = s.readByte a := rfl

@[simp] theorem State.reg_setI (s : State) (n : Nat) (r : Reg) : (s.setI n).reg r = s.reg r := rfl

@[simp] theorem State.readByte_loadRegs (s : State) (x : Reg) (a : Nat) : (s.loadRegs x).readByte a = s.readByte a :=
  State.readByte_congr (s.loadRegs_params x) (s.loadRegs_mem x) a

@[simp] theorem State.reg_writeBytes (s : State) (a : Nat) (xs : List Byte) (r : Reg) :
    (s.writeBytes a xs).reg r = s.reg r :=
  State.reg_congr (s.writeBytes_v a xs) r

theorem State.readByte_writeBytes_getElem (s : State) (a : Nat) {xs : List Byte} {k : Nat} (hk : k < xs.length) :
    (s.writeBytes a xs).readByte (a + k) = xs[k] := by
  simp [State.readByte_writeBytes, hk]

theorem State.bytesKeptOutside_writeBytes (s : State) (a : Nat) (xs : List Byte) :
    BytesKeptOutside s (s.writeBytes a xs) a xs.length := by
  intro b hb
  rw [State.readByte_writeBytes]
  split
  · next hab =>
    have hlen : xs.length ≤ b - a := by omega
    simp [hlen]
  · rfl

/-! ### The address register (R190 to R192) -/

/-- I holds a sum modulo 2^16 (R23). -/
theorem ofNat_mod_65536 (n : Nat) : BitVec.ofNat 16 (n % 65536) = BitVec.ofNat 16 n := by
  apply BitVec.eq_of_toNat_eq
  simp

theorem State.onlyI_next_setI (s : State) (n : Nat) : OnlyI s (s.setI n).next :=
  ⟨(State.advanceTo_frame _ _).trans (by simp [State.next]), fun a => by simp⟩

theorem exists_next_of_setI {i : Instr} {s : State} {n : Nat} (hx : exec i s = .next (s.setI n).next) :
    ∃ t, exec i s = .next t ∧ t.i = BitVec.ofNat 16 n ∧ OnlyI s t ∧ Advanced s t (s.pc.toNat + 2) :=
  ⟨_, hx, State.advanceTo_i _ _, s.onlyI_next_setI n, State.advanced_next rfl rfl rfl rfl⟩

/-- Settles O27: both write I alone, LD the operand and ADD the sum. -/
theorem ldIAndAddIWriteI : Obligations.LdIAndAddIWriteI := by
  unfold Obligations.LdIAndAddIWriteI
  intro nnn x s
  refine ⟨⟨encodesInBoth_wordA (f := 0xA) (by decide) (fun _ _ h => by simp [decode, h]) nnn,
    exists_next_of_setI rfl⟩, encodesInBoth_wordXK_misc x, ?_⟩
  rw [ofNat_mod_65536]
  exact exists_next_of_setI rfl

/-- Settles O28: LD F is the fault of the digit check, or writes I alone. -/
theorem ldFPointsAtTheGlyph : Obligations.LdFPointsAtTheGlyph := by
  unfold Obligations.LdFPointsAtTheGlyph
  intro x s
  have hx : exec (.ldFVx x) s =
    .next (s.unlessFault (s.checkDigit x) (s.setI ((s.reg x).toNat * 5)).next) := rfl
  exact ⟨encodesInBoth_wordXK_misc x, faults_of_not_digit hx, fun h => exists_next_of_setI (exec_of_digit hx h)⟩

/-! ### Stores (R193, R194) -/

/-- Settles O29: LD B is the fault of the address check, or the three digits stored from the base on. -/
theorem ldBStoresTheDigits : Obligations.LdBStoresTheDigits := by
  unfold Obligations.LdBStoresTheDigits
  intro x s
  have hx : exec (.ldBVx x) s = .next (s.unlessFault (s.checkAddresses 3)
    (s.writeBytes s.base [hundreds (s.reg x), tens (s.reg x), ones (s.reg x)]).next) := rfl
  rw [s.base_eq_baseOf] at hx
  refine ⟨encodesInBoth_wordXK_misc x, fun h => faults_of_addresses_outside hx (by omega),
    fun h => ⟨_, exec_of_addresses_inside hx (by omega),
      (State.readByte_next _ _).trans (s.readByte_writeBytes_getElem _ (k := 0) (by simp)),
      (State.readByte_next _ _).trans (s.readByte_writeBytes_getElem _ (k := 1) (by simp)),
      (State.readByte_next _ _).trans (s.readByte_writeBytes_getElem _ (k := 2) (by simp)), ?_, by simp, ?_, ?_⟩⟩
  · intro b hb; rw [State.readByte_next]; exact s.bytesKeptOutside_writeBytes _ _ b hb
  · exact (State.advanceTo_frame _ _).trans (by simp [State.next])
  · apply State.advanced_next <;> simp

/-- Settles O30: LD [I] is the fault of the address check, or the registers stored from the base on and I past them. -/
theorem ldMemStoresTheRegisters : Obligations.LdMemStoresTheRegisters := by
  unfold Obligations.LdMemStoresTheRegisters
  intro x s
  have hx : exec (.ldMemVx x) s = .next (s.unlessFault (s.checkAddresses (x.val + 1))
    ((s.writeBytes s.base (s.v.toList.take (x.val + 1))).setI (s.i.toNat + x.val + 1)).next) := rfl
  rw [s.base_eq_baseOf] at hx
  have hlen : (s.v.toList.take (x.val + 1)).length = x.val + 1 := by simp
  refine ⟨encodesInBoth_wordXK_misc x, fun h => faults_of_addresses_outside hx (by omega),
    fun h => ⟨_, exec_of_addresses_inside hx (by omega), ?_, ?_, by simp, ?_, ?_, ?_⟩⟩
  · intro k hk
    have hstored : k.val < (s.v.toList.take (x.val + 1)).length := by rw [hlen]; exact Nat.lt_succ_of_le hk
    rw [State.readByte_next, State.readByte_setI, s.readByte_writeBytes_getElem _ hstored]
    simp [State.reg_eq]
  · intro b hb
    rw [← hlen] at hb
    rw [State.readByte_next, State.readByte_setI]
    exact s.bytesKeptOutside_writeBytes _ _ b hb
  · rw [ofNat_mod_65536]; exact State.advanceTo_i _ _
  · exact (State.advanceTo_frame _ _).trans (by simp [State.next])
  · apply State.advanced_next <;> simp

/-! ### Loads (R195) -/

/-- Settles O31: LD Vx, [I] is the fault of the address check, or the registers loaded from the base on and I past the
bytes read. -/
theorem ldRegsLoadsTheMemory : Obligations.LdRegsLoadsTheMemory := by
  unfold Obligations.LdRegsLoadsTheMemory
  intro x s
  have hx : exec (.ldVxMem x) s = .next (s.unlessFault (s.checkAddresses (x.val + 1))
    ((s.loadRegs x).setI (s.i.toNat + x.val + 1)).next) := rfl
  have hreg (k : Reg) : ((s.loadRegs x).setI (s.i.toNat + x.val + 1)).next.reg k =
      if k ≤ x then s.readByte (baseOf s + k.val) else s.reg k := by
    rw [State.reg_next, State.reg_setI, State.reg_loadRegs, State.base_eq_baseOf]
  refine ⟨encodesInBoth_wordXK_misc x, fun h => faults_of_addresses_outside hx (by omega),
    fun h => ⟨_, exec_of_addresses_inside hx (by omega), ?_, ?_, by simp, ?_, ?_, ?_⟩⟩
  · intro k hk; rw [hreg, if_pos hk]
  · intro k hk; rw [hreg, if_neg (Fin.not_le.mpr hk)]
  · rw [ofNat_mod_65536]; exact State.advanceTo_i _ _
  · exact (State.advanceTo_frame _ _).trans (by simp [State.next])
  · apply State.advanced_next <;> simp

end Sys2Proof.Machine
end

section
/-!
Keys and timers (44_keys_timers.md): the words of family E, what a key event does to a machine that waits and to one that
does not, what a ready timer cycle's tick does at 0 and at 1, and how the key skips, the loads of Vx from DT and from the
keyboard, and the writes of DT and ST complete.
-/

namespace Sys2Proof.Machine

/-! ### The words of family E (R95) -/

/-- A row of family E: every word of it is the instruction with the word's own register (R93). For a numeral as low byte
the decoder gives the hypothesis. -/
theorem encodesInBoth_wordXK_key {i : Reg → Instr} {kk : Byte} (x : Reg)
    (hd : ∀ layout w, category w = 0xE → immediate8 w = kk → decode layout w = .ok (i (regX w)) := by
      intro layout w hE hk; simp [decode, hE, hk]) :
    EncodesInBoth (wordXK 0xE000 x kk) (i x) := by
  intro layout
  have hf : 0xE < 16 := by decide
  have h := hd layout (encodeXK 0xE x kk) (category_encodeXK hf x kk) (immediate8_encodeXK hf x kk)
  rwa [regX_encodeXK hf] at h

/-! ### Key skips (R210 to R212) -/

/-- Settles O33: both are the fault of the digit check, or a skip on the bit of the key bitmap. -/
theorem keySkipsReadTheBitmap : Obligations.KeySkipsReadTheBitmap := by
  unfold Obligations.KeySkipsReadTheBitmap
  intro x s
  have hskp : exec (.skpVx x) s =
    .next (s.unlessFault (s.checkDigit x) (s.skipIf (s.keyHeld (s.reg x)))) := rfl
  have hsknp : exec (.sknpVx x) s =
    .next (s.unlessFault (s.checkDigit x) (s.skipIf (!s.keyHeld (s.reg x)))) := rfl
  refine ⟨encodesInBoth_wordXK_key x, encodesInBoth_wordXK_key x,
    fun h => ⟨faults_of_not_digit hskp h, faults_of_not_digit hsknp h⟩, fun h => ⟨?_, ?_⟩⟩
  · exact onlyAdvances_of_skipIf (exec_of_digit hskp h)
  · simpa [State.keyHeld] using onlyAdvances_of_skipIf (exec_of_digit hsknp h)

/-! ### LD Vx, DT (R213) -/

/-- Settles O34: LD Vx, DT writes Vx alone. -/
theorem ldVxDtReadsTheTimer : Obligations.LdVxDtReadsTheTimer := by
  unfold Obligations.LdVxDtReadsTheTimer
  exact fun x s => ⟨encodesInBoth_wordXK_misc x, writesReg_of_writeReg rfl⟩

/-! ### Key events (R277) -/

theorem agentStep_keyUp (s : State) {k : Nat} (hk : k < 16) :
    agentStep (.keyUp k) s = .next (s.setKey ⟨k, hk⟩ false) := by
  simp [agentStep, State.keyUp, hk, State.releaseKey]

theorem agentStep_keyDown (s : State) {k : Nat} (hk : k < 16) :
    agentStep (.keyDown k) s = .next (s.pressKey ⟨k, hk⟩) := by
  simp [agentStep, State.keyDown, hk]

/-- Without a wait to resolve, a key-down only sets its bit. -/
theorem agentStep_keyDown_of_not_resolving {s : State} (h : s.status ≠ .running ∨ s.pending = none) {k : Nat}
    (hk : k < 16) : agentStep (.keyDown k) s = .next (s.setKey ⟨k, hk⟩ true) := by
  rw [agentStep_keyDown s hk, State.pressKey]
  split
  · next hr hp => simp [hr, hp] at h
  · rfl

/-- A key-down while Running resolves a pending wait. -/
theorem agentStep_keyDown_of_waiting {s : State} {x : Reg} (hp : s.pending = some x) (hr : s.status = .running)
    {k : Nat} (hk : k < 16) :
    agentStep (.keyDown k) s = .next ((s.setKey ⟨k, hk⟩ true).resolveWait x ⟨k, hk⟩) := by
  rw [agentStep_keyDown s hk, State.pressKey, hr, hp]

@[simp] theorem State.reg_setKey (s : State) (k : Key) (down : Bool) (r : Reg) : (s.setKey k down).reg r = s.reg r := rfl

@[simp] theorem State.reg_setCpuWait (s : State) (ms : Nat) (r : Reg) : (s.setCpuWait ms).reg r = s.reg r :=
  State.reg_congr (s.setCpuWait_v ms) r

theorem State.reg_resolveWait (s : State) (x : Reg) (k : Key) (q : Reg) :
    (s.resolveWait x k).reg q = if q = x then BitVec.ofNat 8 k.val else s.reg q := by
  rw [State.resolveWait, State.reg_setCpuWait, State.reg_next]
  exact s.reg_setReg x _ q

@[simp] theorem State.resolveWait_pending (s : State) (x : Reg) (k : Key) : (s.resolveWait x k).pending = none := by
  simp [State.resolveWait, State.next]

/-- The advance that the wait deferred (R214). -/
theorem State.advanced_resolveWait (s : State) (x : Reg) (k : Key) :
    Advanced s (s.resolveWait x k) (s.pc.toNat + 2) := by
  rw [State.resolveWait, State.setCpuWait_frame]
  exact State.advanced_next rfl rfl rfl rfl

/-! ### Waiting for a key (R214) -/

section Waiting

variable {s : State} {x : Reg} (h : s.pending = some x)
include h

theorem State.cpu_hasStep_of_waiting : s.hasStep .cpu = false := by
  simp [State.hasStep, State.cpuEnabled, h]

theorem State.timers_hasStep_of_waiting (hf : s.params.waitFreezesTimers = true) :
    s.hasStep .delayTick = false ∧ s.hasStep .soundTick = false := by
  have hoff : s.timersEnabled = false := by simp [State.timersEnabled, h, hf]
  simp [State.hasStep, State.delayEnabled, State.soundEnabled, hoff]

theorem exists_keyUp_keeps_wait {k : Nat} (hk : k < 16) :
    ∃ u, agentStep (.keyUp k) s = .next u ∧ u.pending = some x ∧ u.pc = s.pc :=
  ⟨_, agentStep_keyUp s hk, h, rfl⟩

theorem exists_keyDown_keeps_wait (hs : s.status ≠ .running) {k : Nat} (hk : k < 16) :
    ∃ u, agentStep (.keyDown k) s = .next u ∧ u.pending = some x ∧ u.pc = s.pc :=
  ⟨_, agentStep_keyDown_of_not_resolving (.inl hs) hk, h, rfl⟩

theorem exists_keyDown_resolves_wait (hs : s.status = .running) {k : Nat} (hk : k < 16) :
    ∃ u, agentStep (.keyDown k) s = .next u ∧ u.reg x = BitVec.ofNat 8 k ∧ OtherRegsKept s u x ∧ u.pending = none ∧
      Advanced s u (s.pc.toNat + 2) := by
  refine ⟨_, agentStep_keyDown_of_waiting h hs hk, ?_, fun q hq => ?_, State.resolveWait_pending _ _ _,
    State.advanced_resolveWait _ _ _⟩
  · rw [State.reg_resolveWait, if_pos rfl]
  · rw [State.reg_resolveWait, if_neg hq, State.reg_setKey]

end Waiting

/-- Settles O35: LD Vx, K only sets pending, and what the agents then do is what they do to any machine that waits. -/
theorem ldVxKWaitsForAKeyDown : Obligations.LdVxKWaitsForAKeyDown := by
  unfold Obligations.LdVxKWaitsForAKeyDown
  intro x s
  have hp : { s with pending := some x }.pending = some x := rfl
  exact ⟨encodesInBoth_wordXK_misc x, _, rfl, rfl, fun _ => rfl, State.cpu_hasStep_of_waiting hp,
    State.timers_hasStep_of_waiting hp, fun _ => exists_keyUp_keeps_wait hp,
    fun hs _ => exists_keyDown_keeps_wait hp hs, fun hs _ => exists_keyDown_resolves_wait hp hs⟩

/-! ### Ticks (R255, R256) -/

theorem agentStep_delayTick_of_ready {s : State} (h : DelayReady s) : agentStep .delayTick s = .next s.delayTick := by
  simp [agentStep, s.delayEnabled_iff.mpr h]

theorem agentStep_soundTick_of_ready {s : State} (h : SoundReady s) : agentStep .soundTick s = .next s.soundTick := by
  simp [agentStep, s.soundEnabled_iff.mpr h]

theorem State.delayTick_of_zero {s : State} (h : s.dt = 0) : s.delayTick = { s with dtRun := false } := if_pos h

theorem State.soundTick_of_zero {s : State} (h : s.st = 0) : s.soundTick = { s with stRun := false } := if_pos h

theorem State.soundTick_of_one {s : State} (h : s.st = 1) :
    s.soundTick = { s with st := 0, stRun := false, trace := s.trace ++ [.beep] } := by
  simp [State.soundTick, h, State.emit]

/-! ### Writes of the timers (R215, R216) -/

@[simp] theorem State.reg_setDelay (s : State) (b : Byte) (r : Reg) : (s.setDelay b).reg r = s.reg r :=
  State.reg_congr (s.setDelay_v b) r

@[simp] theorem State.readByte_setDelay (s : State) (b : Byte) (a : Nat) : (s.setDelay b).readByte a = s.readByte a :=
  State.readByte_congr (s.setDelay_params b) (s.setDelay_mem b) a

@[simp] theorem State.reg_setSound (s : State) (b : Byte) (r : Reg) : (s.setSound b).reg r = s.reg r :=
  State.reg_congr (s.setSound_v b) r

@[simp] theorem State.readByte_setSound (s : State) (b : Byte) (a : Nat) : (s.setSound b).readByte a = s.readByte a :=
  State.readByte_congr (s.setSound_params b) (s.setSound_mem b) a

/-- Settles O36: LD DT is `setDelay` and the advance, and a tick that finds DT at 0 stops the cycle. -/
theorem ldDtStartsTheDelayCycle : Obligations.LdDtStartsTheDelayCycle := by
  unfold Obligations.LdDtStartsTheDelayCycle
  intro x s
  have hdt : (s.setDelay (s.reg x)).next.dt = s.reg x := by simp [State.next]
  refine ⟨encodesInBoth_wordXK_misc x, _, rfl, hdt, ?_, ?_, by simp, by simp, ?_, fun h0 hready => ?_⟩
  · exact (State.advanceTo_dtPhase _ _).trans (s.setDelay_dtPhase _)
  · apply State.advanced_next <;> simp
  · exact (State.advanceTo_frame _ _).trans (by simp [State.next])
  · rw [agentStep_delayTick_of_ready hready, State.delayTick_of_zero (hdt.trans h0)]

/-- Settles O37: LD ST is `setSound` and the advance; a tick that finds ST at 1 beeps and stops the cycle, and one that
finds it at 0 stops it. -/
theorem ldStStartsTheSoundCycle : Obligations.LdStStartsTheSoundCycle := by
  unfold Obligations.LdStStartsTheSoundCycle
  intro x s
  have hst : (s.setSound (s.reg x)).next.st = s.reg x := by simp [State.next]
  refine ⟨encodesInBoth_wordXK_misc x, _, rfl, hst, ?_, ?_, by simp, by simp, ?_, fun h1 hready => ?_,
    fun h0 hready => ?_⟩
  · exact (State.advanceTo_stPhase _ _).trans (s.setSound_stPhase _)
  · apply State.advanced_next <;> simp
  · exact (State.advanceTo_frame _ _).trans (by simp [State.next])
  · rw [agentStep_soundTick_of_ready hready, State.soundTick_of_one (hst.trans h1)]
  · rw [agentStep_soundTick_of_ready hready, State.soundTick_of_zero (hst.trans h0)]

end Sys2Proof.Machine
end

section
/-!
The faults of the CPU (R230, R231): which instruction raises which fault under which condition, and that an instruction
that ends Faulted has taken one of them from the state before it and has written nothing else.
-/

namespace Sys2Proof.Machine

/-! ### What a check names -/

theorem State.checkAddresses_some {s : State} {n : Nat} {c : FaultCause} (h : s.checkAddresses n = some c) :
    4096 < baseOf s + n ∧ c = .addressOutOfRange 0x1000 := by
  rw [State.checkAddresses_eq, State.base_eq_baseOf] at h
  split at h
  · cases h
  · next hout => cases h; exact ⟨Nat.lt_of_not_le hout, rfl⟩

theorem State.checkDigit_some {s : State} {x : Reg} {c : FaultCause} (h : s.checkDigit x = some c) :
    15 < (s.reg x).toNat ∧ c = .invalidRegisterValue x (s.reg x) := by
  unfold State.checkDigit at h
  split at h
  · next hbig => cases h; exact ⟨hbig, rfl⟩
  · cases h

/-- An address operand is inside memory, so the one fault of its check is the odd target (R140). -/
theorem checkTarget_operand_some {nnn : Addr} {c : FaultCause} (h : checkTarget nnn.toNat = some c) :
    nnn.toNat % 2 = 1 ∧ c = .pcMisaligned nnn.toNat := by
  obtain ⟨hout, -⟩ | ⟨-, hodd, hc⟩ := checkTarget_some h
  · exact absurd (addr_toNat_le nnn) (Nat.not_le.mpr hout)
  · exact ⟨hodd, hc⟩

/-! ### Which instruction raises which fault -/

/-- The rows of R230 that an instruction raises: the instruction, its condition on the state, and the cause with the
information it records. -/
inductive RaisedBy (s : State) : Instr → FaultCause → Prop where
  /-- RET with an empty stack (R141). -/
  | emptyStack (h : s.stack = []) : RaisedBy s .ret (.stackUnderflow 0x00EE)
  /-- CALL with a full stack (R143). -/
  | fullStack (nnn : Addr) (h : 16 ≤ s.stack.length) : RaisedBy s (.call nnn) (.stackOverflow s.pc)
  /-- SKP, SKNP and LD F with Vx above 15 (R192, R210). -/
  | notDigit {i : Instr} (x : Reg) (hi : i = .skpVx x ∨ i = .sknpVx x ∨ i = .ldFVx x) (h : 15 < (s.reg x).toNat) :
      RaisedBy s i (.invalidRegisterValue x (s.reg x))
  /-- JP and CALL with an odd operand (R142, R143). -/
  | oddOperand {i : Instr} (nnn : Addr) (hi : i = .jp nnn ∨ i = .call nnn) (h : nnn.toNat % 2 = 1) :
      RaisedBy s i (.pcMisaligned nnn.toNat)
  /-- JP V0 with an odd sum (R148). -/
  | oddSum (nnn : Addr) (h : ((s.reg 0).toNat + nnn.toNat) % 2 = 1) :
      RaisedBy s (.jpV0Nnn nnn) (.pcMisaligned ((s.reg 0).toNat + nnn.toNat))
  /-- JP V0 with a sum past memory (R148). -/
  | sumOutside (nnn : Addr) (h : 0xFFF < (s.reg 0).toNat + nnn.toNat) :
      RaisedBy s (.jpV0Nnn nnn) (.pcOutOfRange ((s.reg 0).toNat + nnn.toNat))
  /-- DRW with a sprite past memory (R132). -/
  | spriteOutside (x y : Reg) (n : Fin 16) (h : 0xFFF < baseOf s + n.val - 1) :
      RaisedBy s (.drwVxVyN x y n) (.addressOutOfRange 0x1000)
  /-- LD B with a digit past memory (R193). -/
  | digitsOutside (x : Reg) (h : 0xFFF < baseOf s + 2) : RaisedBy s (.ldBVx x) (.addressOutOfRange 0x1000)
  /-- LD [I] and LD Vx, [I] with a register's byte past memory (R194, R195). -/
  | registersOutside {i : Instr} (x : Reg) (hi : i = .ldMemVx x ∨ i = .ldVxMem x) (h : 0xFFF < baseOf s + x.val) :
      RaisedBy s i (.addressOutOfRange 0x1000)

/-! ### No advance ends Faulted -/

theorem State.advanceTo_status_ne_faulted {u : State} (h : u.status ≠ .faulted) (p : Nat) :
    (u.advanceTo p).status ≠ .faulted := by
  rw [State.advanceTo_status]
  split
  · exact h
  · decide

theorem State.next_status_ne_faulted {u : State} (h : u.status ≠ .faulted) : u.next.status ≠ .faulted :=
  State.advanceTo_status_ne_faulted h _

theorem State.skipIf_status_ne_faulted {s : State} (h : s.status ≠ .faulted) (c : Bool) :
    (s.skipIf c).status ≠ .faulted := by
  rw [State.skipIf_eq]; exact State.advanceTo_status_ne_faulted h _

/-- A checked instruction that ends Faulted, where its effect does not, has raised what its check names. -/
theorem State.unlessFault_eq_raise {s effect : State} {check : Option FaultCause}
    (hf : (s.unlessFault check effect).status = .faulted) (he : effect.status ≠ .faulted) :
    ∃ c, check = some c ∧ s.unlessFault check effect = s.raise c := by
  obtain hraise | ⟨-, heffect⟩ := s.unlessFault_cases effect check
  · exact hraise
  · exact absurd (heffect ▸ hf) he

/-! ### An instruction and the CPU's cycle that end Faulted -/

/-- WHAT A FAULTING INSTRUCTION DOES: it raises the fault of one of its rows from the state before it. -/
theorem exec_raises {i : Instr} {s t : State} (hs : s.status ≠ .faulted) (h : exec i s = .next t)
    (hf : t.status = .faulted) : ∃ c, RaisedBy s i c ∧ t = s.raise c := by
  cases i with
  | ret =>
    cases hst : s.stack with
    | nil => rw [exec_ret_of_empty hst] at h; cases h; exact ⟨_, .emptyStack hst, rfl⟩
    | cons r rest =>
      rw [exec_ret_of_cons hst] at h
      cases h
      exact absurd hf (State.advanceTo_status_ne_faulted (u := { s with stack := rest }) hs _)
  | call nnn =>
    by_cases hfull : 16 ≤ s.stack.length
    · rw [exec_call_of_full nnn hfull] at h; cases h; exact ⟨_, .fullStack nnn hfull, rfl⟩
    · rw [exec_call_of_room nnn (Nat.lt_of_not_le hfull)] at h
      cases h
      obtain ⟨c, hcheck, hraise⟩ := State.unlessFault_eq_raise hf hs
      obtain ⟨hodd, rfl⟩ := checkTarget_operand_some hcheck
      exact ⟨_, .oddOperand nnn (.inr rfl) hodd, hraise⟩
  | jp nnn =>
    cases h
    obtain ⟨c, hcheck, hraise⟩ := State.unlessFault_eq_raise hf hs
    obtain ⟨hodd, rfl⟩ := checkTarget_operand_some hcheck
    exact ⟨_, .oddOperand nnn (.inl rfl) hodd, hraise⟩
  | jpV0Nnn nnn =>
    cases h
    obtain ⟨c, hcheck, hraise⟩ := State.unlessFault_eq_raise hf hs
    obtain ⟨hout, rfl⟩ | ⟨-, hodd, rfl⟩ := checkTarget_some hcheck
    · exact ⟨_, .sumOutside nnn hout, hraise⟩
    · exact ⟨_, .oddSum nnn hodd, hraise⟩
  | skpVx x | sknpVx x =>
    cases h
    obtain ⟨c, hcheck, hraise⟩ := State.unlessFault_eq_raise hf (State.skipIf_status_ne_faulted hs _)
    obtain ⟨hbig, rfl⟩ := State.checkDigit_some hcheck
    exact ⟨_, .notDigit x (by simp) hbig, hraise⟩
  | ldFVx x =>
    cases h
    obtain ⟨c, hcheck, hraise⟩ := State.unlessFault_eq_raise hf (State.next_status_ne_faulted hs)
    obtain ⟨hbig, rfl⟩ := State.checkDigit_some hcheck
    exact ⟨_, .notDigit x (by simp) hbig, hraise⟩
  | drwVxVyN x y n =>
    cases h
    have keeps := KeepsControl.of_draw s x y n.val
    obtain ⟨c, hcheck, hraise⟩ := State.unlessFault_eq_raise hf (State.next_status_ne_faulted (keeps.status ▸ hs))
    obtain ⟨hout, rfl⟩ := State.checkAddresses_some hcheck
    exact ⟨_, .spriteOutside x y n (by omega), hraise⟩
  | ldBVx x =>
    cases h
    obtain ⟨c, hcheck, hraise⟩ := State.unlessFault_eq_raise hf (State.next_status_ne_faulted (by simpa using hs))
    obtain ⟨hout, rfl⟩ := State.checkAddresses_some hcheck
    exact ⟨_, .digitsOutside x (by omega), hraise⟩
  | ldMemVx x | ldVxMem x =>
    cases h
    obtain ⟨c, hcheck, hraise⟩ := State.unlessFault_eq_raise hf (State.next_status_ne_faulted (by simpa using hs))
    obtain ⟨hout, rfl⟩ := State.checkAddresses_some hcheck
    exact ⟨_, .registersOutside x (by simp) (by omega), hraise⟩
  | seVxKk x kk | sneVxKk x kk | seVxVy x y | sneVxVy x y =>
    cases h; exact absurd hf (State.skipIf_status_ne_faulted hs _)
  | ldVxK x => cases h; exact absurd hf hs
  | cls | ldVxKk x kk | addVxKk x kk | ldVxVy x y | orVxVy x y | andVxVy x y | xorVxVy x y | addVxVy x y | shrVxVy x y
  | subVxVy x y | shlVxVy x y | subnVxVy x y | rndVxKk x kk | ldINnn nnn | addIVx x | ldVxDt x =>
    cases h; exact absurd hf (State.next_status_ne_faulted hs)
  | ldDtVx x | ldStVx x => cases h; exact absurd hf (State.next_status_ne_faulted (by simpa using hs))

/-- The CPU's step is its cycle where it has one, and nothing else. -/
theorem agentStep_cpu_cases {s t : State} (h : agentStep .cpu s = .next t) :
    (CpuReady s ∧ cpuStep s = .next t) ∨ (¬CpuReady s ∧ t = s) := by
  simp only [agentStep] at h
  split at h
  · next hc => exact .inl ⟨s.cpuEnabled_iff.mp hc, h⟩
  · next hc => cases h; exact .inr ⟨fun hready => hc (s.cpuEnabled_iff.mpr hready), rfl⟩

@[simp] theorem State.bill_status (t : State) (i : Instr) : (t.bill i).status = t.status := by
  unfold State.bill
  split
  · rfl
  · exact t.setCpuWait_status _

theorem State.bill_of_faulted {t : State} (i : Instr) (h : t.status = .faulted) : t.bill i = t := if_pos (.inl h)

/-- WHAT A FAULTING CPU STEP DOES: it raises InvalidOpcode on a word that is no instruction, or a fault of the decoded
instruction's rows. -/
theorem agentStep_cpu_raises {s t : State} (hs : s.status ≠ .faulted) (h : agentStep .cpu s = .next t)
    (hf : t.status = .faulted) :
    ((∃ e, decode s.params.aluLayout (fetched s) = .error e) ∧
        t = s.raise (.invalidOpcode (s.readByte s.pc.toNat) (s.readByte (s.pc.toNat + 1)))) ∨
      ∃ i c, decode s.params.aluLayout (fetched s) = .ok i ∧ RaisedBy s i c ∧ t = s.raise c := by
  obtain ⟨-, hstep⟩ | ⟨-, rfl⟩ := agentStep_cpu_cases h
  · obtain ⟨-, ⟨i, u, hd, hx, rfl⟩ | ⟨he, ht⟩⟩ := cpuStep_cases hstep
    · rw [State.bill_status] at hf
      obtain ⟨c, hraised, hu⟩ := exec_raises hs hx hf
      exact .inr ⟨i, c, hd, hraised, (State.bill_of_faulted i hf).trans hu⟩
    · rw [State.hiByte_fetchWord, State.loByte_fetchWord] at ht
      exact .inl ⟨he, ht⟩
  · exact absurd hf hs

/-- Settles O38: what ends Faulted is `raise` of the state before. -/
theorem faultsArePrecise : Obligations.FaultsArePrecise := by
  unfold Obligations.FaultsArePrecise
  refine ⟨fun i s t hs h hf => ?_, fun s t hs h hf => ?_⟩
  · obtain ⟨c, -, ht⟩ := exec_raises hs h hf
    exact ⟨c, ht⟩
  · obtain ⟨-, ht⟩ | ⟨-, c, -, -, ht⟩ := agentStep_cpu_raises hs h hf
    · exact ⟨_, ht⟩
    · exact ⟨c, ht⟩

/-- The fault effect determines its cause, by the record. -/
theorem TookFault.cause_eq {s t : State} {c d : FaultCause} (h : TookFault s t c) (ht : t = s.raise d) : c = d := by
  have hrecord : (s.raise d).fault = some ⟨c, s.pc⟩ := congrArg State.fault (ht.symm.trans h)
  simpa using hrecord.symm

/-- Settles O39: the cause is the one that the CPU's step raised, one row of R230 at a time. -/
theorem eachFaultHasItsInstructions : Obligations.EachFaultHasItsInstructions := by
  unfold Obligations.EachFaultHasItsInstructions
  intro s t c hs h hfault
  obtain ⟨he, ht⟩ | ⟨i, d, hd, hraised, ht⟩ := agentStep_cpu_raises hs h (congrArg State.status hfault)
  · obtain rfl := hfault.cause_eq ht
    exact .inl ⟨rfl, he, rfl⟩
  · obtain rfl := hfault.cause_eq ht
    refine .inr ⟨i, hd, ?_⟩
    cases hraised with
    | emptyStack hempty => exact ⟨rfl, rfl, hempty, rfl⟩
    | fullStack nnn hfull => exact ⟨rfl, ⟨nnn, rfl⟩, hfull, rfl⟩
    | notDigit x hi hbig => exact ⟨rfl, hi, rfl, hbig⟩
    | oddOperand nnn hi hodd => exact ⟨rfl, hodd, nnn, .inl ⟨hi, rfl⟩⟩
    | oddSum nnn hodd => exact ⟨rfl, hodd, nnn, .inr ⟨rfl, rfl⟩⟩
    | sumOutside nnn hout => exact ⟨rfl, hout, nnn, rfl, rfl⟩
    | spriteOutside x y n hout => exact ⟨rfl, rfl, .inl ⟨x, y, n, rfl, hout⟩⟩
    | digitsOutside x hout => exact ⟨rfl, rfl, .inr (.inl ⟨x, rfl, hout⟩)⟩
    | registersOutside x hi hout => exact ⟨rfl, rfl, .inr (.inr ⟨x, hi, hout⟩)⟩

end Sys2Proof.Machine
end

section
/-!
The timer cycles, the base clock and the CPU prescaler (R255, R256, R264, R265): each tick by the value it finds, which
counters a clock step counts down, and what bills cpuWait.
-/

namespace Sys2Proof.Machine

/-! ### Ticks (R255, R256) -/

theorem State.delayTick_of_one {s : State} (h : s.dt = 1) : s.delayTick = { s with dt := 0, dtRun := false } := by
  simp [State.delayTick, h]

/-- Above 1 a byte is neither 0 nor 1, and counting it down does not wrap. -/
theorem byte_of_one_lt {b : Byte} (h : 1 < b.toNat) : b ≠ 0 ∧ b ≠ 1 ∧ b - 1 = BitVec.ofNat 8 (b.toNat - 1) := by
  refine ⟨?_, ?_, ?_⟩ <;> bv_omega

theorem State.delayTick_of_one_lt {s : State} (h : 1 < s.dt.toNat) :
    s.delayTick = { s with dt := BitVec.ofNat 8 (s.dt.toNat - 1), dtPhase := inTimed s 16 s.dtPhase } := by
  obtain ⟨h0, h1, hsub⟩ := byte_of_one_lt h
  rw [State.delayTick, if_neg h0, if_neg h1, hsub]
  rfl

theorem State.soundTick_of_one_lt {s : State} (h : 1 < s.st.toNat) :
    s.soundTick = { s with st := BitVec.ofNat 8 (s.st.toNat - 1), stPhase := inTimed s 16 s.stPhase } := by
  obtain ⟨h0, h1, hsub⟩ := byte_of_one_lt h
  rw [State.soundTick, if_neg h0, if_neg h1, hsub]
  rfl

/-- Settles O42: the ready cycle's step is `delayTick`, by the value of DT. -/
theorem delayTickCountsDown : Obligations.DelayTickCountsDown := by
  unfold Obligations.DelayTickCountsDown
  exact fun s hready => ⟨_, agentStep_delayTick_of_ready hready, State.delayTick_of_zero, State.delayTick_of_one,
    State.delayTick_of_one_lt⟩

/-- Settles O43: the ready cycle's step is `soundTick`, by the value of ST. -/
theorem soundTickBeepsOnce : Obligations.SoundTickBeepsOnce := by
  unfold Obligations.SoundTickBeepsOnce
  exact fun s hready => ⟨_, agentStep_soundTick_of_ready hready, State.soundTick_of_zero, State.soundTick_of_one,
    State.soundTick_of_one_lt⟩

/-! ### The base clock (R264) -/

theorem State.cpuCounts_iff (s : State) :
    s.cpuCounts = true ↔ s.status = .running ∧ s.pending = none ∧ 0 < s.cpuWait := by
  simp [State.cpuCounts, and_assoc]

theorem State.delayCounts_iff (s : State) :
    s.delayCounts = true ↔ s.status = .running ∧ (s.params.waitFreezesTimers = true → s.pending = none) ∧
      s.dtRun = true ∧ 0 < s.dtPhase := by
  simp [State.delayCounts, s.timersEnabled_iff, TimersOn, and_assoc]

theorem State.soundCounts_iff (s : State) :
    s.soundCounts = true ↔ s.status = .running ∧ (s.params.waitFreezesTimers = true → s.pending = none) ∧
      s.stRun = true ∧ 0 < s.stPhase := by
  simp [State.soundCounts, s.timersEnabled_iff, TimersOn, and_assoc]

/-- Settles O45: the clock has its step exactly where no other agent has one, and it counts what R264 says. -/
theorem clockCountsDown : Obligations.ClockCountsDown := by
  unfold Obligations.ClockCountsDown
  intro s
  refine ⟨fun htimed hcpu hdelay hsound => ?_, fun hother => ?_⟩
  · have henabled : s.clockEnabled = true := s.clockEnabled_iff.mpr ⟨htimed, hcpu, hdelay, hsound⟩
    simp only [agentStep, henabled, if_true, State.clockTick, State.cpuCounts_iff, State.delayCounts_iff,
      State.soundCounts_iff]
  · refine Bool.eq_false_iff.mpr fun henabled => ?_
    obtain ⟨htimed, hcpu, hdelay, hsound⟩ := s.clockEnabled_iff.mp henabled
    obtain huntimed | h | h | h := hother
    · simp [huntimed] at htimed
    · exact hcpu h
    · exact hdelay h
    · exact hsound h

/-! ### The CPU prescaler (R265) -/

theorem State.setCpuWait_eq (s : State) (ms : Nat) :
    s.setCpuWait ms = { s with cpuWait := inTimed s ms s.cpuWait } := by
  rw [State.setCpuWait, State.timed, inTimed]
  cases s.params.timing <;> rfl

@[simp] theorem inTimed_of_timed {s : State} (h : s.params.timing = .timed) (new old : Nat) : inTimed s new old = new :=
  if_pos h

theorem cycleMs_eq (i : Instr) : cycleMs i = if isDrw i then 20 else 2 := by cases i <;> rfl

theorem exec_params {i : Instr} {s u : State} (h : exec i s = .next u) : u.params = s.params := by
  cases exec_cases h with
  | fault c h => rw [h]; rfl
  | advance u p keeps _ _ h => rw [h, State.advanceTo_params, keeps.params]
  | returned u r keeps _ h => rw [h, State.advanceTo_params, keeps.params]
  | jumped u p keeps _ _ _ h => rw [h, State.jump_params, keeps.params]
  | suspended x _ h => rw [h]

/-- The bill of an instruction, in the terms of R265. -/
theorem State.bill_eq {s u : State} (i : Instr) (params : u.params = s.params) :
    u.bill i = if u.status = .faulted ∨ u.pending ≠ none then u
      else { u with cpuWait := inTimed s (if isDrw i then 20 else 2) u.cpuWait } := by
  rw [State.bill, State.setCpuWait_eq, cycleMs_eq, inTimed, inTimed, params]

theorem State.cpu_hasStep_of_cpuWait {s : State} (htimed : s.params.timing = .timed) (h : 0 < s.cpuWait) :
    s.hasStep .cpu = false := by
  refine Bool.eq_false_iff.mpr fun hc => ?_
  obtain ⟨-, -, hzero⟩ := s.cpuEnabled_iff.mp hc
  exact Nat.ne_of_gt h (hzero htimed)

theorem State.resolveWait_cpuWait (s : State) (x : Reg) (k : Key) :
    (s.resolveWait x k).cpuWait = inTimed s 2 s.cpuWait := by
  simp [State.resolveWait, State.setCpuWait_eq, inTimed, State.next]

theorem State.clearCounters_cpuWait (s : State) : s.clearCounters.cpuWait = inTimed s 0 s.cpuWait := by
  rw [State.clearCounters, State.timed, inTimed]
  cases s.params.timing <;> rfl

theorem State.load_cpuWait (s : State) (program : List Byte) : (s.load program).cpuWait = inTimed s 0 s.cpuWait :=
  (State.writeBytes_cpuWait _ _ _).trans s.clearCounters_cpuWait

/-- A load that is legal and fits is the reset of R301 (R280). -/
theorem State.hostLoad_of_legal {s : State} {program : List Byte} (hfits : program.length ≤ 3584)
    (hs : s.status = .stopped ∨ s.status = .finished ∨ s.status = .faulted) : s.hostLoad program = s.load program := by
  rw [State.hostLoad, if_neg (Nat.not_lt.mpr hfits)]
  obtain h | h | h := hs <;> rw [h]

theorem State.hostResume_of_paused {s : State} (h : s.status = .paused) :
    s.hostResume = { s with status := .running, cpuWait := inTimed s 0 s.cpuWait } := by
  rw [State.hostResume, h]; exact State.setCpuWait_eq _ 0

/-- Settles O46: the enabling condition, the bill of an instruction, and the resets of cpuWait one by one. -/
theorem cpuPrescalerBillsTheCycle : Obligations.CpuPrescalerBillsTheCycle := by
  unfold Obligations.CpuPrescalerBillsTheCycle
  refine ⟨fun s => State.cpu_hasStep_of_cpuWait, fun s u i hready hpc hd hx => ?_, fun s htimed => ⟨?_, ?_, ?_⟩⟩
  · rw [agentStep_cpu_of_exec hready hpc hd hx, State.bill_eq i (exec_params hx)]
  · intro k hk hrun hwaits
    obtain ⟨x, hp⟩ := Option.ne_none_iff_exists'.mp hwaits
    refine ⟨_, agentStep_keyDown_of_waiting hp hrun hk, ?_⟩
    rw [State.resolveWait_cpuWait]
    exact inTimed_of_timed htimed 2 _
  · intro P hfits hs
    refine ⟨_, rfl, ?_⟩
    rw [State.command, State.hostLoad_of_legal hfits hs, State.load_cpuWait, inTimed_of_timed htimed]
  · intro hpaused
    refine ⟨_, rfl, ?_⟩
    rw [State.command, State.hostResume_of_paused hpaused]
    exact inTimed_of_timed htimed 0 _

end Sys2Proof.Machine
end

section
/-!
Key events (R277) and what moves a Faulted machine (R232): a key event writes its own bit, a key-down while Running
resolves a wait, and past a fault only the host moves anything but the bitmap.
-/

namespace Sys2Proof.Machine

/-- A wait resolved writes Vx, pending, cpuWait and what the advance writes, and nothing else. -/
theorem State.resolveWait_frame (s : State) (x : Reg) (k : Key) :
    s.resolveWait x k = { s with
      v := (s.resolveWait x k).v, pending := none, cpuWait := inTimed s 2 s.cpuWait, pc := (s.resolveWait x k).pc
      status := (s.resolveWait x k).status, dtRun := (s.resolveWait x k).dtRun, stRun := (s.resolveWait x k).stRun } := by
  simp only [State.resolveWait, State.setCpuWait_eq]
  rw [State.next, State.advanceTo_frame]
  rfl

theorem State.readByte_resolveWait (s : State) (x : Reg) (k : Key) (a : Nat) :
    (s.resolveWait x k).readByte a = s.readByte a := by
  rw [State.resolveWait_frame]; rfl

theorem State.resolveWait_keys (s : State) (x : Reg) (k : Key) : (s.resolveWait x k).keys = s.keys := by
  rw [State.resolveWait_frame]

theorem State.pressKey_of_not_resolving {s : State} (h : s.status ≠ .running ∨ s.pending = none) (k : Key) :
    s.pressKey k = s.setKey k true :=
  Host.Outcome.next.inj ((agentStep_keyDown s k.isLt).symm.trans (agentStep_keyDown_of_not_resolving h k.isLt))

theorem State.pressKey_of_waiting {s : State} {x : Reg} (hp : s.pending = some x) (hr : s.status = .running) (k : Key) :
    s.pressKey k = (s.setKey k true).resolveWait x k :=
  Host.Outcome.next.inj ((agentStep_keyDown s k.isLt).symm.trans (agentStep_keyDown_of_waiting hp hr k.isLt))

theorem State.pressKey_keys (s : State) (k : Key) : (s.pressKey k).keys = (s.setKey k true).keys := by
  unfold State.pressKey
  split
  · exact State.resolveWait_keys _ _ _
  · rfl

/-- Settles O47: the bit by `setKey`, and a resolved wait by the laws of `resolveWait`. -/
theorem keyEventsSetTheBitmap : Obligations.KeyEventsSetTheBitmap := by
  unfold Obligations.KeyEventsSetTheBitmap
  intro s k hk
  refine ⟨⟨_, agentStep_keyUp s hk, fun j hj => ?_, rfl⟩, ⟨_, agentStep_keyDown s hk, fun j hj => ?_, ?_, ?_⟩⟩
  · rw [s.getLsbD_setKey _ _ hj]
    by_cases h : j = k <;> simp [h]
  · rw [State.pressKey_keys, s.getLsbD_setKey _ _ hj]
    by_cases h : j = k <;> simp [h]
  · intro hkeeps
    rw [State.pressKey_of_not_resolving hkeeps]
    rfl
  · intro x hrun hp
    rw [State.pressKey_of_waiting hp hrun]
    refine ⟨?_, fun q hq => ?_, State.advanced_resolveWait _ _ _, State.readByte_resolveWait _ _ _, ?_⟩
    · rw [State.reg_resolveWait, if_pos rfl]
    · rw [State.reg_resolveWait, if_neg hq, State.reg_setKey]
    · rw [State.resolveWait_keys]; exact State.resolveWait_frame _ _ _

/-- Settles O40: no agent is enabled unless Running, a key event finds no wait to resolve, and no command touches the
log. -/
theorem faultedOnlyTheHostMoves : Obligations.FaultedOnlyTheHostMoves := by
  unfold Obligations.FaultedOnlyTheHostMoves
  intro s hf
  have hrun : s.status ≠ .running := by simp [hf]
  have hoff : s.timersEnabled = false := by simp [State.timersEnabled, hf]
  refine ⟨by simp [State.hasStep, State.cpuEnabled, hf], by simp [State.hasStep, State.delayEnabled, hoff],
    by simp [State.hasStep, State.soundEnabled, hoff], fun k hk => ⟨?_, ?_⟩,
    fun c => ⟨_, rfl, s.command_faultLog c⟩, by simp [State.goodEnd, hf], hf⟩
  · exact ⟨_, agentStep_keyDown_of_not_resolving (.inl hrun) hk, rfl⟩
  · exact ⟨_, agentStep_keyUp s hk, rfl⟩

end Sys2Proof.Machine
end

section
/-!
The run-state machine (R285): the status and the wait after each agent's step. A key-down, a command of the host and an
instruction are the only ones that write either.
-/

namespace Sys2Proof.Machine

/-! ### The keyboard and the host -/

/-- A wait resolved while Running is over, and the machine is Finished if the deferred advance leaves memory (R114). -/
theorem State.resolveWait_status {s : State} (hrun : s.status = .running) (x : Reg) (k : Key) :
    (s.resolveWait x k).status = if 0x1000 ≤ s.pc.toNat + 2 then .finished else .running := by
  have hadvanced := (s.advanced_resolveWait x k).2
  split at hadvanced
  · next hin => rw [if_neg (by omega), hadvanced.1, hrun]
  · next hout => rw [if_pos (by omega), hadvanced.1]

theorem State.load_status_pending (s : State) (program : List Byte) :
    (s.load program).status = .running ∧ (s.load program).pending = none := by
  simp [State.load]

/-- A load that does not fit, or that is not legal, is told to the host and moves nothing (R280, R284). -/
theorem State.hostLoad_status_pending_of_rejected {s : State} {program : List Byte}
    (h : ¬(program.length ≤ 3584 ∧ s.status ≠ .running ∧ s.status ≠ .paused)) :
    (s.hostLoad program).status = s.status ∧ (s.hostLoad program).pending = s.pending := by
  unfold State.hostLoad
  split
  · exact ⟨rfl, rfl⟩
  · next hfits =>
    have hlen : program.length ≤ 3584 := Nat.le_of_not_lt hfits
    split <;> simp_all

theorem State.hostPause_status_pending (s : State) :
    s.hostPause.status = (if s.status = .running then .paused else s.status) ∧ s.hostPause.pending = s.pending := by
  unfold State.hostPause; split <;> simp_all

theorem State.hostResume_status_pending (s : State) :
    s.hostResume.status = (if s.status = .paused then .running else s.status) ∧ s.hostResume.pending = s.pending := by
  unfold State.hostResume; split <;> simp_all

theorem State.hostStop_status_pending (s : State) :
    s.hostStop.status = .stopped ∧ (s.status ≠ .stopped → s.hostStop.pending = none) := by
  unfold State.hostStop State.teardown; split <;> simp_all

/-! ### The CPU -/

/-- Fx0A alone starts a wait (R214). -/
theorem exec_pending_of_not_ldVxK {i : Instr} {s t : State} (hi : ∀ x, i ≠ .ldVxK x) (h : exec i s = .next t) :
    t.pending = s.pending := by
  cases exec_cases h with
  | fault c h => rw [h, State.raise_pending]
  | advance u p keeps _ _ h => rw [h, State.advanceTo_pending, keeps.pending]
  | returned u r keeps _ h => rw [h, State.advanceTo_pending, keeps.pending]
  | jumped u p keeps _ _ _ h => rw [h, State.jump_pending, keeps.pending]
  | suspended x hx _ => exact absurd hx (hi x)

theorem exec_pending_iff {i : Instr} {s t : State} (hp : s.pending = none) (h : exec i s = .next t) (x : Reg) :
    t.pending = some x ↔ i = .ldVxK x := by
  by_cases hi : ∃ y, i = .ldVxK y
  · obtain ⟨y, rfl⟩ := hi
    cases h
    simp
  · have hne : ∀ y, i ≠ .ldVxK y := not_exists.mp hi
    simp [exec_pending_of_not_ldVxK hne h, hp, hne x]

/-- Where the CPU's step from s leaves the machine: Running inside memory, Finished past it, or Faulted in place. -/
def CpuLeaves (s t : State) : Prop :=
  t.status = .running ∧ t.pc.toNat ≤ 0xFFF ∨ t.status = .finished ∧ 0x1000 ≤ t.pc.toNat ∨
    t.status = .faulted ∧ t.pc = s.pc

theorem cpuLeaves_raise (s : State) (c : FaultCause) : CpuLeaves s (s.raise c) := .inr (.inr ⟨rfl, rfl⟩)

/-- A sequential advance of a running machine, where it does not wrap (R114). -/
theorem cpuLeaves_advanceTo (s : State) {u : State} {p : Nat} (hrun : u.status = .running) (hp : p < 65536) :
    CpuLeaves s (u.advanceTo p) := by
  by_cases hin : p ≤ 0xFFF
  · rw [State.advanceTo_inside u hin]
    exact .inl ⟨hrun, by simp; omega⟩
  · rw [State.advanceTo_past u (Nat.lt_of_not_le hin)]
    exact .inr (.inl ⟨rfl, by simp; omega⟩)

/-- An instruction of a running machine: no advance of one of R111 wraps, since pc and every return address are at most
0xFFE (R38). -/
theorem exec_cpuLeaves {i : Instr} {s t : State} (hi : Inv s) (hrun : s.status = .running) (h : exec i s = .next t) :
    CpuLeaves s t := by
  obtain ⟨-, hpc⟩ := hi.pcFetchable (.inl hrun)
  cases exec_cases h with
  | fault c h => rw [h]; exact cpuLeaves_raise s c
  | advance u p keeps _ distance h =>
    rw [h]; exact cpuLeaves_advanceTo s (keeps.status.trans hrun) (by omega)
  | returned u r keeps hstack h =>
    obtain ⟨-, hr⟩ := hi.stackEntries r (by simp [hstack])
    rw [h]; exact cpuLeaves_advanceTo s (keeps.status.trans hrun) (by omega)
  | jumped u p keeps _ inside _ h =>
    rw [h]; exact .inl ⟨keeps.status.trans hrun, by simp; omega⟩
  | suspended x _ h => rw [h]; exact .inl ⟨hrun, Nat.le_succ_of_le hpc⟩

@[simp] theorem State.bill_pc (t : State) (i : Instr) : (t.bill i).pc = t.pc := by
  unfold State.bill
  split
  · rfl
  · exact t.setCpuWait_pc _

@[simp] theorem State.bill_pending (t : State) (i : Instr) : (t.bill i).pending = t.pending := by
  unfold State.bill
  split
  · rfl
  · exact t.setCpuWait_pending _

theorem cpuLeaves_bill {s t : State} (i : Instr) (h : CpuLeaves s t) : CpuLeaves s (t.bill i) := by
  simpa [CpuLeaves] using h

/-- WHERE THE CPU'S STEP LEAVES THE MACHINE, from a state of the invariant (R285). -/
theorem agentStep_cpu_leaves {s t : State} (hready : CpuReady s) (hi : Inv s) (h : agentStep .cpu s = .next t) :
    CpuLeaves s t ∧ ∀ x, t.pending = some x ↔ decode s.params.aluLayout (fetched s) = .ok (.ldVxK x) := by
  have ⟨hrun, hp, _⟩ := hready
  rw [agentStep_cpu_of_ready hready] at h
  have hword : s.fetchWord = fetched s := rfl
  obtain ⟨-, ⟨i, u, hd, hx, rfl⟩ | ⟨⟨e, hd⟩, rfl⟩⟩ := cpuStep_cases h
  · refine ⟨cpuLeaves_bill i (exec_cpuLeaves hi hrun hx), fun x => ?_⟩
    rw [State.bill_pending, exec_pending_iff hp hx x, ← hword, hd, Except.ok.injEq]
  · exact ⟨cpuLeaves_raise s _, fun x => by simp [← hword, hd, hp]⟩

/-- Settles O51: one row of R285 at a time. -/
theorem runStateMachine : Obligations.RunStateMachine := by
  unfold Obligations.RunStateMachine
  intro e s t h
  cases e with
  | cpu => exact fun hstep hi => agentStep_cpu_leaves (s.cpuEnabled_iff.mp hstep) hi h
  | delayTick | soundTick => cases h; dsimp only; split <;> simp
  | clock => cases h; dsimp only; split <;> exact ⟨rfl, rfl⟩
  | keyDown k =>
    dsimp only
    split
    · next hresolves =>
      obtain ⟨hk, hrun, hwaits⟩ := hresolves
      obtain ⟨x, hp⟩ := Option.ne_none_iff_exists'.mp hwaits
      rw [agentStep_keyDown_of_waiting hp hrun hk] at h
      cases h
      exact ⟨State.resolveWait_status (s := s.setKey _ true) hrun x _, State.resolveWait_pending _ _ _⟩
    · next hkeeps =>
      by_cases hk : k < 16
      · rw [agentStep_keyDown_of_not_resolving (by tauto) hk] at h
        cases h
        exact ⟨rfl, rfl⟩
      · cases h
        simp [State.keyDown, hk]
  | keyUp k => cases h; dsimp only [State.keyUp]; split <;> exact ⟨rfl, rfl⟩
  | keyDownMalformed | keyUpMalformed => cases h; exact ⟨rfl, rfl⟩
  | host c =>
    cases h
    cases c with
    | load P =>
      dsimp only
      split
      · next hlegal =>
        obtain ⟨hfits, hrun, hpaused⟩ := hlegal
        rw [State.command, State.hostLoad_of_legal hfits (by cases hs : s.status <;> simp_all)]
        exact s.load_status_pending P
      · next hrejected => exact State.hostLoad_status_pending_of_rejected hrejected
    | loadMalformed => exact ⟨rfl, rfl⟩
    | pause => exact s.hostPause_status_pending
    | resume => exact s.hostResume_status_pending
    | stop => exact s.hostStop_status_pending

end Sys2Proof.Machine
end

section
/-!
The reset of a load (R301): what it writes field by field, and the memory image of R35.
-/

namespace Sys2Proof.Machine

theorem State.clearCounters_eq (s : State) : s.clearCounters = { s with
    cpuWait := inTimed s 0 s.cpuWait, dtPhase := inTimed s 0 s.dtPhase, stPhase := inTimed s 0 s.stPhase } := by
  by_cases htimed : s.params.timing = .timed <;> simp [State.clearCounters, State.timed, inTimed, htimed]

/-- What a load writes besides the memory image and the registers, and nothing else. -/
theorem State.load_frame (s : State) (program : List Byte) : s.load program = { s with
    v := (s.load program).v, i := 0, pc := 0x200, stack := [], dt := 0, st := 0, dtRun := false, stRun := false
    cpuWait := inTimed s 0 s.cpuWait, dtPhase := inTimed s 0 s.dtPhase, stPhase := inTimed s 0 s.stPhase
    pending := none, fault := none, mem := (s.load program).mem, status := .running } := by
  rw [State.load, s.clearCounters_eq, State.writeBytes_frame]
  rfl

@[simp] theorem State.reg_load (s : State) (program : List Byte) (r : Reg) : (s.load program).reg r = 0 := by
  rw [State.reg_eq, State.load, State.writeBytes_v]
  exact Vector.getElem_replicate r.isLt

/-- A memory that lists no cell reads as the image of R35 without a program. -/
theorem Memory.read_nil (font : Vector Byte 80) (a : Nat) : Memory.read font [] a = background font a := rfl

/-- The memory image of R35: the program from 0x200 on, over FONT and zeros. -/
theorem State.readByte_load (s : State) (program : List Byte) (a : Nat) :
    (s.load program).readByte a =
      if 0x200 ≤ a then program.getD (a - 0x200) (background s.params.font a) else background s.params.font a := by
  rw [State.load, State.readByte_writeBytes, State.readByte_eq, Memory.read_nil, s.clearCounters_params]

/-- The same image range by range: a program starts past FONT, and an address past its end reads as zero. -/
theorem State.readByte_load_ranges (s : State) (program : List Byte) (a : Nat) :
    (s.load program).readByte a =
      if h : a < 80 then s.params.font[a]
      else if 0x200 ≤ a ∧ a < 0x200 + program.length then program.getD (a - 0x200) 0
      else 0 := by
  rw [State.readByte_load, background]
  by_cases hfont : a < 80
  · rw [dif_pos hfont, dif_pos hfont, if_neg (by omega)]
  · rw [dif_neg hfont, dif_neg hfont]
    by_cases hstart : 0x200 ≤ a
    · rw [if_pos hstart]
      split
      · rfl
      · next hpast => exact List.getD_eq_default _ _ (by omega)
    · rw [if_neg hstart, if_neg (by omega)]

/-- Settles O48: a legal load is `State.load`, whose registers, image and frame are said above. -/
theorem loadResetsTheMachine : Obligations.LoadResetsTheMachine := by
  unfold Obligations.LoadResetsTheMachine
  intro s P hlegal hfits
  have hstep : agentStep (.host (.load P)) s = .next (s.load P) :=
    congrArg Host.Outcome.next (State.hostLoad_of_legal hfits hlegal)
  exact ⟨s.load P, hstep, s.reg_load P, fun a _ => s.readByte_load_ranges P a, s.load_frame P⟩

end Sys2Proof.Machine
end

section
/-!
The host's commands, each where it is legal and where it is not (R280 to R284).
-/

namespace Sys2Proof.Machine

theorem State.hostPause_of_not_running {s : State} (h : s.status ≠ .running) :
    s.hostPause = s.reply (.illegalTransition .pause s.status) := by
  unfold State.hostPause
  split
  · contradiction
  all_goals rfl

theorem State.hostResume_of_not_paused {s : State} (h : s.status ≠ .paused) :
    s.hostResume = s.reply (.illegalTransition .resume s.status) := by
  unfold State.hostResume
  split
  · contradiction
  all_goals rfl

theorem State.hostPause_of_running {s : State} (h : s.status = .running) :
    s.hostPause = { s with status := .paused } := by
  rw [State.hostPause, h]

theorem State.hostStop_of_stopped {s : State} (h : s.status = .stopped) : s.hostStop = s := by
  rw [State.hostStop, h]

theorem State.hostStop_of_not_stopped {s : State} (h : s.status ≠ .stopped) : s.hostStop = s.teardown := by
  unfold State.hostStop
  split
  · contradiction
  all_goals rfl

theorem State.hostLoad_of_illegal {s : State} {P : List Byte} (hfits : P.length ≤ 3584)
    (hs : s.status = .running ∨ s.status = .paused) :
    s.hostLoad P = s.reply (.illegalTransition .load s.status) := by
  rw [State.hostLoad, if_neg (Nat.not_lt.mpr hfits)]
  obtain h | h := hs <;> rw [h]

theorem State.hostLoad_of_too_long {s : State} {P : List Byte} (h : 3584 < P.length) :
    s.hostLoad P = s.reply (.programTooLong P.length) := if_pos h

theorem agentStep_host {s t : State} {c : HostCommand} (h : s.command c = t) : agentStep (.host c) s = .next t :=
  congrArg Host.Outcome.next h

/-- Settles O49: one command and one status at a time. -/
theorem pauseResumeStop : Obligations.PauseResumeStop := by
  unfold Obligations.PauseResumeStop
  intro s
  refine ⟨fun h => agentStep_host (State.hostPause_of_running h),
    fun h => ⟨_, agentStep_host (State.hostPause_of_not_running h)⟩,
    fun h => agentStep_host (State.hostResume_of_paused h),
    fun h => ⟨_, agentStep_host (State.hostResume_of_not_paused h)⟩,
    fun h => agentStep_host (State.hostStop_of_stopped h),
    fun h => agentStep_host ((State.hostStop_of_not_stopped h).trans ?_)⟩
  rw [State.teardown, State.clearCounters_eq]

/-- Settles O50: each rejection is a reply and nothing else. -/
theorem illegalCommandsAreRejected : Obligations.IllegalCommandsAreRejected := by
  unfold Obligations.IllegalCommandsAreRejected
  intro s
  refine ⟨fun P hfits hs => agentStep_host (State.hostLoad_of_illegal hfits hs),
    fun h => agentStep_host (State.hostPause_of_not_running h),
    fun h => agentStep_host (State.hostResume_of_not_paused h),
    fun P h => agentStep_host (State.hostLoad_of_too_long h), rfl, fun k hk => ⟨?_, ?_⟩, rfl, rfl⟩
  · exact congrArg Host.Outcome.next (dif_neg (Nat.not_lt.mpr hk))
  · exact congrArg Host.Outcome.next (dif_neg (Nat.not_lt.mpr hk))

end Sys2Proof.Machine
end

section
/-!
What an agent's step can do, said once for all agents (R9): an instruction with its bill, a fault, a tick, a key event,
a command of the host, or nothing but a reply.
-/

namespace Sys2Proof.Machine

/-- The ends of an agent's step. -/
inductive AgentEnd (e : Event) (s t : State) : Prop where
  /-- An agent without a step, and a stop when Stopped (R283). -/
  | unchanged (h : t = s)
  /-- An instruction and its bill (R110, R265). -/
  | instruction (i : Instr) (u : State) (he : e = .cpu) (hready : CpuReady s)
      (hd : decode s.params.aluLayout s.fetchWord = .ok i) (hx : exec i s = .next u) (h : t = u.bill i)
  /-- A word that is no instruction (R117). -/
  | invalid (c : FaultCause) (he : e = .cpu) (hready : CpuReady s) (h : t = s.raise c)
  /-- The delay cycle's tick (R255). -/
  | delayTick (he : e = .delayTick) (hready : DelayReady s) (h : t = s.delayTick)
  /-- The sound cycle's tick (R256). -/
  | soundTick (he : e = .soundTick) (hready : SoundReady s) (h : t = s.soundTick)
  /-- A millisecond of the base clock (R264). -/
  | clockTick (he : e = .clock) (h : t = s.clockTick)
  /-- A key event that resolves no wait (R277). -/
  | key (k : Key) (down : Bool) (he : e = .keyDown k.val ∨ e = .keyUp k.val) (h : t = s.setKey k down)
  /-- A key-down that resolves a wait (R214, R277). -/
  | resolved (k : Key) (x : Reg) (he : e = .keyDown k.val) (hrun : s.status = .running) (hp : s.pending = some x)
      (h : t = (s.setKey k true).resolveWait x k)
  /-- An illegal command or a ContractViolation (R275, R284, R302). -/
  | rejected (r : Rejection) (h : t = s.reply r)
  /-- A legal load that fits (R280, R301). -/
  | loaded (P : List Byte) (he : e = .host (.load P)) (hfits : P.length ≤ 3584)
      (hs : s.status = .stopped ∨ s.status = .finished ∨ s.status = .faulted) (h : t = s.load P)
  /-- A legal pause (R281). -/
  | paused (hs : s.status = .running) (h : t = { s with status := .paused })
  /-- A legal resume (R282). -/
  | resumed (hs : s.status = .paused) (h : t = { s with status := .running, cpuWait := inTimed s 0 s.cpuWait })
  /-- A stop with its teardown (R283). -/
  | stopped (h : t = s.teardown)

theorem agentEnd_keyDown (s : State) (k : Nat) : AgentEnd (.keyDown k) s (s.keyDown k) := by
  by_cases hk : k < 16
  · have hkey : s.keyDown k = s.pressKey ⟨k, hk⟩ := dif_pos hk
    rw [hkey]
    by_cases hkeeps : s.status ≠ .running ∨ s.pending = none
    · exact .key ⟨k, hk⟩ true (.inl rfl) (State.pressKey_of_not_resolving hkeeps _)
    · obtain ⟨hrun, hwaits⟩ := not_or.mp hkeeps
      obtain ⟨x, hp⟩ := Option.ne_none_iff_exists'.mp hwaits
      exact .resolved ⟨k, hk⟩ x rfl (not_not.mp hrun) hp (State.pressKey_of_waiting hp (not_not.mp hrun) _)
  · exact .rejected (.malformedKey k) (dif_neg hk)

theorem agentEnd_keyUp (s : State) (k : Nat) : AgentEnd (.keyUp k) s (s.keyUp k) := by
  by_cases hk : k < 16
  · exact .key ⟨k, hk⟩ false (.inr rfl) (dif_pos hk)
  · exact .rejected (.malformedKey k) (dif_neg hk)

theorem agentEnd_load (s : State) (P : List Byte) : AgentEnd (.host (.load P)) s (s.hostLoad P) := by
  by_cases hfits : P.length ≤ 3584
  · by_cases hs : s.status = .running ∨ s.status = .paused
    · exact .rejected _ (State.hostLoad_of_illegal hfits hs)
    · have hlegal : s.status = .stopped ∨ s.status = .finished ∨ s.status = .faulted := by
        cases h : s.status <;> simp [h] at hs ⊢
      exact .loaded P rfl hfits hlegal (State.hostLoad_of_legal hfits hlegal)
  · exact .rejected _ (State.hostLoad_of_too_long (Nat.lt_of_not_le hfits))

theorem agentEnd_command (s : State) (c : HostCommand) : AgentEnd (.host c) s (s.command c) := by
  cases c with
  | load P => exact agentEnd_load s P
  | loadMalformed => exact .rejected .malformedProgram rfl
  | pause =>
    by_cases hs : s.status = .running
    · exact .paused hs (State.hostPause_of_running hs)
    · exact .rejected _ (State.hostPause_of_not_running hs)
  | resume =>
    by_cases hs : s.status = .paused
    · exact .resumed hs (State.hostResume_of_paused hs)
    · exact .rejected _ (State.hostResume_of_not_paused hs)
  | stop =>
    by_cases hs : s.status = .stopped
    · exact .unchanged (State.hostStop_of_stopped hs)
    · exact .stopped (State.hostStop_of_not_stopped hs)

/-- WHAT AN AGENT'S STEP CAN DO. -/
theorem agentStep_cases {e : Event} {s t : State} (h : agentStep e s = .next t) : AgentEnd e s t := by
  cases e with
  | cpu =>
    obtain ⟨hready, hstep⟩ | ⟨-, ht⟩ := agentStep_cpu_cases h
    · obtain ⟨-, ⟨i, u, hd, hx, ht⟩ | ⟨-, ht⟩⟩ := cpuStep_cases hstep
      · exact .instruction i u rfl hready hd hx ht
      · exact .invalid _ rfl hready ht
    · exact .unchanged ht
  | delayTick =>
    cases h
    split
    · next hc => exact .delayTick rfl (s.delayEnabled_iff.mp hc) rfl
    · exact .unchanged rfl
  | soundTick =>
    cases h
    split
    · next hc => exact .soundTick rfl (s.soundEnabled_iff.mp hc) rfl
    · exact .unchanged rfl
  | clock =>
    cases h
    split
    · exact .clockTick rfl rfl
    · exact .unchanged rfl
  | keyDown k => cases h; exact agentEnd_keyDown s k
  | keyUp k => cases h; exact agentEnd_keyUp s k
  | keyDownMalformed | keyUpMalformed => cases h; exact .rejected _ rfl
  | host c => cases h; exact agentEnd_command s c

end Sys2Proof.Machine
end

section
/-!
The invariant of the reachable states (R38): it holds after reset, what changes neither control flow nor memory keeps
it, and each agent keeps it, the CPU by the ends of an instruction (R111).
-/

namespace Sys2Proof.Machine

/-- The counters of TIMED are within their reload values, and 0 in UNTIMED (R29, R265, R266). -/
def CountersBounded (s : State) : Prop :=
  (s.params.timing = .untimed → s.cpuWait = 0 ∧ s.dtPhase = 0 ∧ s.stPhase = 0) ∧
    s.cpuWait ≤ 20 ∧ s.dtPhase ≤ 16 ∧ s.stPhase ≤ 16

/-- Control flow, faults and memory are as before, and no timer cycle has started. -/
structure KeepsRun (s t : State) : Prop where
  params : t.params = s.params
  pc : t.pc = s.pc
  stack : t.stack = s.stack
  pending : t.pending = s.pending
  status : t.status = s.status
  fault : t.fault = s.fault
  faultLog : t.faultLog = s.faultLog
  mem : t.mem = s.mem
  dtRun : t.dtRun = true → s.dtRun = true
  stRun : t.stRun = true → s.stRun = true

theorem Inv.of_keepsRun {s t : State} (hi : Inv s) (h : KeepsRun s t) (hc : CountersBounded t) : Inv t where
  pcFetchable := by rw [h.status, h.pc]; exact hi.pcFetchable
  pcFinished := by rw [h.status, h.pc]; exact hi.pcFinished
  stackDepth := by rw [h.stack]; exact hi.stackDepth
  stackEntries := by rw [h.stack]; exact hi.stackEntries
  waitingAtLdVxK := by
    rw [h.pending, h.status, h.params, State.fetchWord_congr h.params h.mem h.pc]; exact hi.waitingAtLdVxK
  cyclesCancelled := by rw [h.status]; exact fun hruns => hi.cyclesCancelled (hruns.imp h.dtRun h.stRun)
  faultRecord := by rw [h.status, h.fault, h.faultLog, h.pc]; exact hi.faultRecord
  memory := by rw [State.memWf, h.params, h.mem]; exact hi.memory
  counters := hc

/-- Keys, replies, schedule and turn are no part of the invariant. -/
theorem Inv.of_environment {s : State} (hi : Inv s) (keys : Word) (replies : List Rejection) (schedule : List Event)
    (turn : Agent) : Inv { s with keys := keys, hostReplies := replies, schedule := schedule, turn := turn } :=
  hi.of_keepsRun ⟨rfl, rfl, rfl, rfl, rfl, rfl, rfl, rfl, id, id⟩ hi.counters

theorem Inv.reply {s : State} (hi : Inv s) (r : Rejection) : Inv (s.reply r) := hi.of_environment _ _ _ _

theorem Inv.setKey {s : State} (hi : Inv s) (k : Key) (down : Bool) : Inv (s.setKey k down) :=
  hi.of_environment _ _ _ _

/-- Settles O52: the status is Running at 0x200, and every other clause is about an empty list, an unset field or 0. -/
theorem invariantHoldsAtReset : Obligations.InvariantHoldsAtReset := by
  unfold Obligations.InvariantHoldsAtReset
  exact {
    pcFetchable := fun _ => by decide
    pcFinished := fun h => by cases h
    stackDepth := by decide
    stackEntries := fun r h => by cases h
    waitingAtLdVxK := fun x h => by cases h
    cyclesCancelled := fun _ => .inl rfl
    faultRecord := ⟨fun _ => rfl, fun h => by cases h⟩
    memory := State.reset_memWf
    counters := by decide }

/-! ### Counters (R29, R265, R266) -/

theorem State.reload_le (s : State) {phase : Nat} (h : phase ≤ 16) : s.reload phase ≤ 16 := by
  unfold State.reload; split <;> omega

theorem State.reload_of_untimed {s : State} (h : s.params.timing = .untimed) (phase : Nat) :
    s.reload phase = phase := by
  simp [State.reload, h]

theorem inTimed_of_untimed {s : State} (h : s.params.timing = .untimed) (new old : Nat) : inTimed s new old = old := by
  simp [inTimed, h]

theorem inTimed_zero_le (s : State) (old : Nat) : inTimed s 0 old ≤ old := by
  unfold inTimed; split <;> omega

section Counters

variable {s t : State} (h : CountersBounded s) (params : t.params = s.params)
include h params

/-- Counting down and clearing keep the bounds. -/
theorem CountersBounded.of_le (cpuWait : t.cpuWait ≤ s.cpuWait) (dtPhase : t.dtPhase ≤ s.dtPhase)
    (stPhase : t.stPhase ≤ s.stPhase) : CountersBounded t := by
  obtain ⟨huntimed, hbounds⟩ := h
  exact ⟨fun ht => by have := huntimed (params ▸ ht); omega, by omega⟩

/-- So do phases that are reloaded. -/
theorem CountersBounded.of_reload (cpuWait : t.cpuWait = s.cpuWait)
    (dtPhase : t.dtPhase = s.dtPhase ∨ t.dtPhase = s.reload s.dtPhase)
    (stPhase : t.stPhase = s.stPhase ∨ t.stPhase = s.reload s.stPhase) : CountersBounded t := by
  obtain ⟨huntimed, hcpu, hdt, hst⟩ := h
  refine ⟨fun ht => ?_, by omega, ?_, ?_⟩
  · rw [params] at ht
    rw [State.reload_of_untimed ht, or_self] at dtPhase stPhase
    rw [cpuWait, dtPhase, stPhase]
    exact huntimed ht
  · have := s.reload_le hdt; omega
  · have := s.reload_le hst; omega

end Counters

/-- A prescaler set to at most Dxyn's 20 ms, in TIMED only, keeps the invariant (R265). -/
theorem Inv.setCpuWait {s : State} (hi : Inv s) {ms : Nat} (hms : ms ≤ 20) : Inv (s.setCpuWait ms) := by
  rw [State.setCpuWait_eq]
  obtain ⟨huntimed, hcpu, hphases⟩ := hi.counters
  refine hi.of_keepsRun ⟨rfl, rfl, rfl, rfl, rfl, rfl, rfl, rfl, id, id⟩ ⟨fun ht => ?_, ?_, hphases⟩
  · obtain ⟨hcpu0, hphases0⟩ := huntimed ht
    exact ⟨(inTimed_of_untimed ht ms _).trans hcpu0, hphases0⟩
  · show inTimed s ms s.cpuWait ≤ 20
    unfold inTimed; split <;> assumption

theorem Inv.bill {s : State} (hi : Inv s) (i : Instr) : Inv (s.bill i) := by
  unfold State.bill
  split
  · exact hi
  · exact hi.setCpuWait (by rw [cycleMs_eq]; split <;> decide)

/-! ### The timer cycles and the clock -/

theorem State.delayTick_dtPhase (s : State) :
    s.delayTick.dtPhase = s.dtPhase ∨ s.delayTick.dtPhase = s.reload s.dtPhase := by
  unfold State.delayTick; split <;> [skip; split] <;> simp

theorem State.soundTick_stPhase (s : State) :
    s.soundTick.stPhase = s.stPhase ∨ s.soundTick.stPhase = s.reload s.stPhase := by
  unfold State.soundTick; split <;> [skip; split] <;> simp

theorem State.delayTick_dtRun_imp (s : State) (h : s.delayTick.dtRun = true) : s.dtRun = true := by
  revert h; unfold State.delayTick; split <;> [skip; split] <;> simp

theorem State.soundTick_stRun_imp (s : State) (h : s.soundTick.stRun = true) : s.stRun = true := by
  revert h; unfold State.soundTick; split <;> [skip; split] <;> simp

theorem Inv.delayTick {s : State} (hi : Inv s) : Inv s.delayTick := by
  have keeps : KeepsRun s s.delayTick := by
    refine ⟨?_, ?_, ?_, ?_, ?_, ?_, ?_, ?_, s.delayTick_dtRun_imp, ?_⟩ <;> simp
  exact hi.of_keepsRun keeps
    (CountersBounded.of_reload hi.counters (by simp) (by simp) s.delayTick_dtPhase (.inl (by simp)))

theorem Inv.soundTick {s : State} (hi : Inv s) : Inv s.soundTick := by
  have keeps : KeepsRun s s.soundTick := by
    refine ⟨?_, ?_, ?_, ?_, ?_, ?_, ?_, ?_, ?_, s.soundTick_stRun_imp⟩ <;> simp
  exact hi.of_keepsRun keeps
    (CountersBounded.of_reload hi.counters (by simp) (by simp) (.inl (by simp)) s.soundTick_stPhase)

theorem Inv.clockTick {s : State} (hi : Inv s) : Inv s.clockTick := by
  refine hi.of_keepsRun ⟨rfl, rfl, rfl, rfl, rfl, rfl, rfl, rfl, id, id⟩
    (CountersBounded.of_le hi.counters rfl ?_ ?_ ?_)
  all_goals simp only [State.clockTick]; split <;> omega

/-! ### Instructions (R111) -/

/-- A fault taken outside a wait: Faulted, with its record in the log (R231). -/
theorem Inv.raise {s : State} (hi : Inv s) (hp : s.pending = none) (c : FaultCause) : Inv (s.raise c) where
  pcFetchable := by simp
  pcFinished := by simp
  stackDepth := hi.stackDepth
  stackEntries := hi.stackEntries
  waitingAtLdVxK := by simp [hp]
  cyclesCancelled := by simp
  faultRecord := by simp
  memory := hi.memory
  counters := hi.counters

/-- Return addresses as R38 has them: at most 16, each where a CALL was. -/
def StackOk (stack : List Word) : Prop :=
  stack.length ≤ 16 ∧ ∀ r ∈ stack, r.toNat % 2 = 0 ∧ r.toNat ≤ 0xFFE

theorem Inv.stackOk {s : State} (hi : Inv s) : StackOk s.stack := ⟨hi.stackDepth, hi.stackEntries⟩

theorem KeepsControl.countersBounded {s u : State} (keeps : KeepsControl s u) (h : CountersBounded s) :
    CountersBounded u :=
  h.of_reload keeps.params keeps.cpuWait keeps.dtPhase keeps.stPhase

section Advance

variable {s u : State} (hi : Inv s) (hrun : s.status = .running) (hp : s.pending = none) (keeps : KeepsControl s u)
  (hstack : StackOk u.stack)
include hi hrun hp keeps hstack

/-- An instruction's effect and the write of a pc inside memory keep the invariant. -/
theorem Inv.of_jump {p : Nat} (hin : p ≤ 0xFFF) (heven : p % 2 = 0) : Inv (u.jump p) where
  pcFetchable := fun _ => by simp; omega
  pcFinished := by simp [keeps.status, hrun]
  stackDepth := hstack.1
  stackEntries := hstack.2
  waitingAtLdVxK := by simp [keeps.pending, hp]
  cyclesCancelled := fun _ => .inl (keeps.status.trans hrun)
  faultRecord := ⟨fun _ => keeps.fault.trans (hi.faultRecord.1 (.inl hrun)), by simp [keeps.status, hrun]⟩
  memory := keeps.memWf hi.memory
  counters := keeps.countersBounded hi.counters

/-- So do the effect and a sequential advance, which past memory is the overflow policy (R114). -/
theorem Inv.of_advanceTo {p : Nat} (heven : p % 2 = 0) (hle : p ≤ 0x1002) : Inv (u.advanceTo p) := by
  by_cases hin : p ≤ 0xFFF
  · rw [State.advanceTo_inside u hin]
    exact hi.of_jump hrun hp keeps hstack hin heven
  · have hpast : p = 0x1000 ∨ p = 0x1002 := by omega
    rw [State.advanceTo_past u (Nat.lt_of_not_le hin)]
    exact {
      pcFetchable := by simp
      pcFinished := fun _ => by obtain rfl | rfl := hpast <;> simp
      stackDepth := hstack.1
      stackEntries := hstack.2
      waitingAtLdVxK := by simp [keeps.pending, hp]
      cyclesCancelled := by simp
      faultRecord := by simp
      memory := keeps.memWf hi.memory
      counters := keeps.countersBounded hi.counters }

end Advance

/-- EVERY INSTRUCTION KEEPS THE INVARIANT, on a running machine that does not wait. -/
theorem Inv.of_exec {i : Instr} {s t : State} (hi : Inv s) (hrun : s.status = .running) (hp : s.pending = none)
    (hd : decode s.params.aluLayout s.fetchWord = .ok i) (h : exec i s = .next t) : Inv t := by
  obtain ⟨heven, hle⟩ := hi.pcFetchable (.inl hrun)
  cases exec_cases h with
  | fault c h => rw [h]; exact hi.raise hp c
  | advance u p keeps stack distance h =>
    rw [h]; exact hi.of_advanceTo hrun hp keeps (stack ▸ hi.stackOk) (by omega) (by omega)
  | returned u r keeps stack h =>
    obtain ⟨hdepth, hentries⟩ := hi.stackOk
    rw [stack] at hdepth hentries
    obtain ⟨hreven, hrle⟩ := hentries r List.mem_cons_self
    rw [h]
    exact hi.of_advanceTo hrun hp keeps
      ⟨Nat.le_of_succ_le hdepth, fun q hq => hentries q (List.mem_cons_of_mem r hq)⟩ (by omega) (by omega)
  | jumped u p keeps stack inside even h =>
    rw [h]
    refine hi.of_jump hrun hp keeps ?_ inside even
    obtain hkept | ⟨hpushed, hroom⟩ := stack
    · exact hkept ▸ hi.stackOk
    · rw [hpushed]; exact ⟨hroom, List.forall_mem_cons.mpr ⟨⟨heven, hle⟩, hi.stackEntries⟩⟩
  | suspended x hx ht =>
    obtain rfl := hx
    rw [ht]
    exact { hi with
      waitingAtLdVxK := fun y hy => by
        obtain rfl := Option.some.inj hy
        exact ⟨.inl hrun, hd⟩ }

/-! ### The keyboard -/

/-- A wait may be called off in any state. -/
theorem Inv.withoutWait {s : State} (hi : Inv s) : Inv { s with pending := none } :=
  { hi with waitingAtLdVxK := fun x h => by cases h }

theorem Inv.resolveWait {s : State} (hi : Inv s) (hrun : s.status = .running) (x : Reg) (k : Key) :
    Inv (s.resolveWait x k) := by
  obtain ⟨heven, hle⟩ := hi.pcFetchable (.inl hrun)
  refine Inv.setCpuWait (ms := 2) ?_ (by decide)
  refine Inv.of_advanceTo hi.withoutWait hrun rfl (.of_registers _ _ s.i s.stack s.rngDraws) hi.stackOk ?_ ?_
  · show (s.pc.toNat + 2) % 2 = 0
    omega
  · show s.pc.toNat + 2 ≤ 0x1002
    omega

/-! ### The host (R280 to R283) -/

theorem CountersBounded.of_clearCounters {s : State} (h : CountersBounded s) : CountersBounded s.clearCounters := by
  rw [State.clearCounters_eq]
  exact h.of_le rfl (inTimed_zero_le s _) (inTimed_zero_le s _) (inTimed_zero_le s _)

theorem State.memWf_load (s : State) {program : List Byte} (h : program.length ≤ 3584) : (s.load program).memWf :=
  State.memWf_writeBytes (Memory.wf_nil _) _ _ (by simp only [progStart, memSize]; omega)

theorem Inv.load {s : State} (hi : Inv s) {program : List Byte} (h : program.length ≤ 3584) :
    Inv (s.load program) := by
  have hmem := s.memWf_load h
  have hcounters : CountersBounded s.clearCounters := CountersBounded.of_clearCounters hi.counters
  rw [State.clearCounters_eq] at hcounters
  rw [State.load_frame] at hmem ⊢
  exact {
    pcFetchable := by simp
    pcFinished := by simp
    stackDepth := by simp
    stackEntries := by simp
    waitingAtLdVxK := by simp
    cyclesCancelled := by simp
    faultRecord := by simp
    memory := hmem
    counters := hcounters }

/-- Running and Paused have the same clauses. -/
theorem Inv.with_status {s : State} (hi : Inv s) (hs : s.status = .running ∨ s.status = .paused) {status : Status}
    (hstatus : status = .running ∨ status = .paused) : Inv { s with status := status } where
  pcFetchable := fun _ => hi.pcFetchable hs
  pcFinished := by rintro rfl; simp at hstatus
  stackDepth := hi.stackDepth
  stackEntries := hi.stackEntries
  waitingAtLdVxK := fun x h => ⟨hstatus, (hi.waitingAtLdVxK x h).2⟩
  cyclesCancelled := fun _ => hstatus
  faultRecord := ⟨fun _ => hi.faultRecord.1 hs, by rintro rfl; simp at hstatus⟩
  memory := hi.memory
  counters := hi.counters

theorem Inv.teardown {s : State} (hi : Inv s) : Inv s.teardown := by
  have hcounters : CountersBounded s.clearCounters := CountersBounded.of_clearCounters hi.counters
  unfold State.teardown
  rw [State.clearCounters_eq] at hcounters ⊢
  exact {
    pcFetchable := by simp
    pcFinished := by simp
    stackDepth := hi.stackDepth
    stackEntries := hi.stackEntries
    waitingAtLdVxK := by simp
    cyclesCancelled := by simp
    faultRecord := by simp
    memory := hi.memory
    counters := hcounters }

/-! ### Every agent -/

/-- EVERY AGENT'S STEP KEEPS THE INVARIANT. -/
theorem Inv.of_agentStep {e : Event} {s t : State} (hi : Inv s) (h : agentStep e s = .next t) : Inv t := by
  cases agentStep_cases h with
  | unchanged ht => exact ht ▸ hi
  | instruction i u _ hready hd hx ht =>
    obtain ⟨hrun, hp, -⟩ := hready
    rw [ht]
    exact (hi.of_exec hrun hp hd hx).bill i
  | invalid c _ hready ht =>
    obtain ⟨-, hp, -⟩ := hready
    rw [ht]
    exact hi.raise hp c
  | delayTick _ _ ht => rw [ht]; exact hi.delayTick
  | soundTick _ _ ht => rw [ht]; exact hi.soundTick
  | clockTick _ ht => rw [ht]; exact hi.clockTick
  | key k down _ ht => rw [ht]; exact hi.setKey k down
  | resolved k x _ hrun _ ht => rw [ht]; exact (hi.setKey k true).resolveWait hrun x k
  | rejected r ht => rw [ht]; exact hi.reply r
  | loaded P _ hfits _ ht => rw [ht]; exact hi.load hfits
  | paused hs ht => rw [ht]; exact hi.with_status (.inl hs) (.inr rfl)
  | resumed hs ht =>
    rw [ht]
    exact (hi.with_status (.inr hs) (.inl rfl)).of_keepsRun ⟨rfl, rfl, rfl, rfl, rfl, rfl, rfl, rfl, id, id⟩
      (CountersBounded.of_le hi.counters rfl (inTimed_zero_le s _) (Nat.le_refl _) (Nat.le_refl _))
  | stopped ht => rw [ht]; exact hi.teardown

/-- Settles O53: a step is an agent's, from the state with another schedule or turn. -/
theorem stepKeepsTheInvariant : Obligations.StepKeepsTheInvariant := by
  unfold Obligations.StepKeepsTheInvariant
  intro s t hi h
  obtain ⟨e, s0, rfl | ⟨a, rfl⟩ | ⟨rest, -, rfl⟩, hstep⟩ := step_cases h
  · exact hi.of_agentStep hstep
  · exact (hi.of_environment s.keys s.hostReplies s.schedule a.next).of_agentStep hstep
  · exact (hi.of_environment s.keys s.hostReplies rest s.turn).of_agentStep hstep

end Sys2Proof.Machine
end

section
/-!
Decoding undoes encoding (R94 to R96), and the words of the spec's examples.
-/

namespace Sys2Proof

/-- Settles O1: the family picks the decoder's row, and the fields of the format give the operands back. Only the rows
of SHR, SUB, SHL and SUBN depend on the layout. -/
theorem decodeEncodeRoundTrip : Obligations.DecodeEncodeRoundTrip := by
  unfold Obligations.DecodeEncodeRoundTrip
  intro layout i hwf
  cases i with
  | cls | ret => cases layout <;> decide
  | jp nnn | call nnn | ldINnn nnn | jpV0Nnn nnn => simp [encode, decode, category_encodeA, address12_encodeA]
  | seVxKk x kk | sneVxKk x kk | ldVxKk x kk | addVxKk x kk | rndVxKk x kk =>
    simp [encode, decode, category_encodeXK, regX_encodeXK, immediate8_encodeXK]
  | skpVx x | sknpVx x | ldVxDt x | ldVxK x | ldDtVx x | ldStVx x | addIVx x | ldFVx x | ldBVx x | ldMemVx x
  | ldVxMem x => simp [encode, decode, decodeMisc, category_encodeXK, regX_encodeXK, immediate8_encodeXK]
  | seVxVy x y | sneVxVy x y | drwVxVyN x y n | ldVxVy x y | orVxVy x y | andVxVy x y | xorVxVy x y | addVxVy x y =>
    simp [encode, decode, decodeAlu, category_encodeXYN, regX_encodeXYN, regY_encodeXYN, subop4_encodeXYN]
  | shrVxVy x y | subVxVy x y | shlVxVy x y =>
    cases layout <;>
      simp [encode, decode, decodeAlu, category_encodeXYN, regX_encodeXYN, regY_encodeXYN, subop4_encodeXYN]
  | subnVxVy x y =>
    cases layout with
    | doc => cases hwf
    | classic =>
      simp [encode, decode, decodeAlu, category_encodeXYN, regX_encodeXYN, regY_encodeXYN, subop4_encodeXYN]

/-- Settles O4: each word is evaluated. -/
theorem exampleWordsDecode : Obligations.ExampleWordsDecode := by
  unfold Obligations.ExampleWordsDecode
  decide

end Sys2Proof
end

section
/-!
Instructions one after the other: a sprite drawn twice (R132), a store and the load of it (R194, R195), a CALL and its
RET (R141, R143); and the random byte (R171).
-/

namespace Sys2Proof.Machine

/-! ### A sprite drawn twice (R132) -/

/-- Which pixels a sprite covers is a matter of memory alone. -/
theorem State.covered_congr {s t : State} (h : ∀ a, t.readByte a = s.readByte a) (base X Y n : Nat) (px : Fin 64)
    (py : Fin 32) : t.covered base X Y n px py ↔ s.covered base X Y n px py := by
  simp [State.covered, State.spriteBit, h]

theorem State.pixel_next (s : State) (px : Fin 64) (py : Fin 32) : s.next.pixel px py = s.pixel px py :=
  s.pixel_advanceTo _ px py

/-- A set bit covers the pixel of its column and row (R131). -/
theorem State.exists_covered {s : State} {base n r c : Nat} (hr : r < n) (hc : c < 8)
    (hbit : s.spriteBit base r c = true) (X Y : Nat) : ∃ px py, s.covered base X Y n px py :=
  ⟨Fin.ofNat 64 (X + c), Fin.ofNat 32 (Y + r), r, c, hr, hc, hbit, rfl, rfl⟩

section Draw

variable (s : State) (x y : Reg) (n : Fin 16)

/-- VF is 0 after a draw over unlit pixels. -/
theorem State.reg_flag_draw_of_dark
    (h : ∀ px py, s.covered (baseOf s) (s.reg x).toNat (s.reg y).toNat n.val px py → s.pixel px py = false) :
    (s.draw x y n.val).reg 15 = 0 := by
  obtain ⟨⟨px, py, hcovered, hlit⟩, -⟩ | ⟨-, hzero⟩ := s.reg_flag_draw x y n
  · rw [h px py hcovered] at hlit; cases hlit
  · exact hzero

/-- VF is 1 after a draw that covers a lit pixel. -/
theorem State.reg_flag_draw_of_lit {px : Fin 64} {py : Fin 32}
    (h : s.covered (baseOf s) (s.reg x).toNat (s.reg y).toNat n.val px py) (hlit : s.pixel px py = true) :
    (s.draw x y n.val).reg 15 = 1 := by
  obtain ⟨-, hone⟩ | ⟨hdark, -⟩ := s.reg_flag_draw x y n
  · exact hone
  · rw [hdark px py h] at hlit; cases hlit

theorem State.baseOf_next_draw : baseOf (s.draw x y n.val).next = baseOf s := by
  rw [State.next_draw_frame]; rfl

/-- A DRW whose coordinates are not in VF covers, after it completes, the same pixels again. -/
theorem State.covered_next_draw (hx : x ≠ 15) (hy : y ≠ 15) (px : Fin 64) (py : Fin 32) :
    (s.draw x y n.val).next.covered (baseOf (s.draw x y n.val).next) ((s.draw x y n.val).next.reg x).toNat
        ((s.draw x y n.val).next.reg y).toNat n.val px py ↔
      s.covered (baseOf s) (s.reg x).toNat (s.reg y).toNat n.val px py := by
  have hread (a : Nat) : (s.draw x y n.val).next.readByte a = s.readByte a := by rw [State.next_draw_frame]; rfl
  rw [s.baseOf_next_draw, State.reg_next, State.reg_next, s.reg_draw x y n.val hx, s.reg_draw x y n.val hy,
    State.covered_congr hread]

/-- The second draw toggles every pixel back. -/
theorem State.pixel_draw_twice (hx : x ≠ 15) (hy : y ≠ 15) (px : Fin 64) (py : Fin 32) :
    ((s.draw x y n.val).next.draw x y n.val).pixel px py = s.pixel px py := by
  obtain ⟨htoggles, hkeeps⟩ := s.pixel_draw x y n px py
  obtain ⟨htoggles', hkeeps'⟩ := (s.draw x y n.val).next.pixel_draw x y n px py
  rw [s.covered_next_draw x y n hx hy, State.pixel_next] at htoggles' hkeeps'
  by_cases hc : s.covered (baseOf s) (s.reg x).toNat (s.reg y).toNat n.val px py
  · rw [htoggles' hc, htoggles hc, Bool.not_not]
  · rw [hkeeps' hc, hkeeps hc]

end Draw

/-- Settles O11: both draws cover the same pixels, so the second toggles back what the first toggled, and finds the
covered pixels lit that the first found unlit. -/
theorem drawingTwiceRestoresTheDisplay : Obligations.DrawingTwiceRestoresTheDisplay := by
  unfold Obligations.DrawingTwiceRestoresTheDisplay
  intro x y n s hx hy hin _
  have hfirst : exec (.drwVxVyN x y n) s = .next (s.draw x y n.val).next := by rw [exec_drwVxVyN, if_pos hin]
  have hsecond : exec (.drwVxVyN x y n) (s.draw x y n.val).next =
      .next ((s.draw x y n.val).next.draw x y n.val).next := by
    rw [exec_drwVxVyN, s.baseOf_next_draw, if_pos hin]
  have hcovered := s.covered_next_draw x y n hx hy
  refine ⟨_, _, hfirst, hsecond, fun px py => ?_, ?_, fun hempty => ?_, fun hunlit ⟨r, c, hr, hc, hbit⟩ => ⟨?_, ?_⟩⟩
  · rw [State.pixel_next, s.pixel_draw_twice x y n hx hy]
  · rw [State.reg_next]
    exact (((s.draw x y n.val).next.reg_flag_draw x y n).imp And.right And.right).symm
  · rw [State.reg_next]
    refine State.reg_flag_draw_of_dark _ x y n fun px py hc => ?_
    obtain ⟨r, c, hr, hc, hbit, -⟩ := (hcovered px py).mp hc
    rw [hempty r c hr hc] at hbit; cases hbit
  · rw [State.reg_next]
    exact s.reg_flag_draw_of_dark x y n fun px py _ => hunlit px py
  · obtain ⟨px, py, hcov⟩ := State.exists_covered hr hc hbit (s.reg x).toNat (s.reg y).toNat
    obtain ⟨htoggles, -⟩ := s.pixel_draw x y n px py
    rw [State.reg_next]
    refine State.reg_flag_draw_of_lit _ x y n ((hcovered px py).mpr hcov) ?_
    rw [State.pixel_next, htoggles hcov, hunlit, Bool.not_false]

/-! ### A store and the load of it (R194, R195) -/

/-- Settles O32: the load reads the bytes that the store left, from the same base. -/
theorem storeThenLoadRestoresRegisters : Obligations.StoreThenLoadRestoresRegisters := by
  unfold Obligations.StoreThenLoadRestoresRegisters
  intro x s v hin
  obtain ⟨-, -, hstores⟩ := ldMemStoresTheRegisters x s
  obtain ⟨t, hstore, hstored, -⟩ := hstores hin
  obtain ⟨-, -, hloads⟩ := ldRegsLoadsTheMemory x { t with v := v, i := s.i }
  obtain ⟨u, hload, hloaded, -⟩ := hloads hin
  exact ⟨t, u, hstore, hload, fun k hk => (hloaded k hk).trans (hstored k hk)⟩

/-! ### A CALL and its RET (R141, R143) -/

/-- Settles O15: RET pops the pc that CALL pushed, and advances from it inside memory. -/
theorem returnComesBackAfterTheCall : Obligations.ReturnComesBackAfterTheCall := by
  unfold Obligations.ReturnComesBackAfterTheCall
  intro nnn s hroom heven hin
  have hpc : BitVec.ofNat 16 (s.pc.toNat + 2) = s.pc + 2 := by
    apply BitVec.eq_of_toNat_eq; simp
  refine ⟨_, exec_of_target_ok (exec_call_of_room nnn hroom) (addr_toNat_le nnn) heven, ?_⟩
  rw [exec_ret_of_cons rfl, State.advanceTo_inside _ hin, hpc]
  rfl

/-! ### The random byte (R171) -/

/-- Settles O26: RND writes Vx alone, and counts the draw; a masked byte is at most its mask. -/
theorem rndMasksTheDrawnByte : Obligations.RndMasksTheDrawnByte := by
  unfold Obligations.RndMasksTheDrawnByte
  intro x kk s
  have hexec : exec (.rndVxKk x kk) s = .next
    ({ s with rngDraws := s.rngDraws + 1 }.setReg x (Config.rngByte s.rngDraws &&& kk)).next := rfl
  have hreg (q : Reg) : ({ s with rngDraws := s.rngDraws + 1 }.setReg x (Config.rngByte s.rngDraws &&& kk)).next.reg q =
      if q = x then Config.rngByte s.rngDraws &&& kk else s.reg q := by
    rw [State.reg_next, State.reg_setReg]; rfl
  refine ⟨encodesInBoth_wordXK (f := 0xC) (by decide) (fun _ _ h => by simp [decode, h]) x kk, _, hexec, ?_, ?_, ?_,
    fun q hq => ?_, fun a => State.readByte_next _ a, ?_, State.advanced_next rfl rfl rfl rfl⟩
  · rw [hreg, if_pos rfl]
  · intro hzero; rw [hreg, if_pos rfl, hzero]; exact BitVec.and_zero
  · rw [hreg, if_pos rfl, BitVec.toNat_and]; exact Nat.and_le_right
  · rw [hreg, if_neg hq]
  · exact (State.advanceTo_frame _ _).trans (by simp [State.next])

end Sys2Proof.Machine
end

section
/-!
The state after reset (R303), and which agent a step takes (R9, R110).
-/

namespace Sys2Proof.Machine

/-! ### Reset (R303) -/

theorem State.reg_reset (r : Reg) : State.reset.reg r = 0 := Vector.getElem_replicate r.isLt

theorem State.pixel_reset (px : Fin 64) (py : Fin 32) : State.reset.pixel px py = false := by
  simp [State.pixel, State.reset, Vector.get_eq_getElem]

/-- Settles O59: the load of no bytes from power-on leaves every field of `State.reset` as it stands there. -/
theorem resetIsTheLaunchState : Obligations.ResetIsTheLaunchState := by
  unfold Obligations.ResetIsTheLaunchState
  exact ⟨rfl, rfl, rfl, State.reg_reset, rfl, rfl, rfl, rfl, rfl, rfl, rfl, rfl, rfl, State.pixel_reset, rfl⟩

/-! ### Which agent a step takes -/

/-- The agent that the turns give: the first in order that has a step. -/
theorem State.idleAgent_eq_some {s : State} {a : Agent} {before after : List Agent}
    (horder : s.turn.order = before ++ a :: after) (ha : s.hasStep a.event = true)
    (hbefore : ∀ b ∈ before, s.hasStep b.event = false) : s.idleAgent = some a := by
  refine List.find?_eq_some_iff_append.mpr ⟨(s.agentEnabled_eq_hasStep a).trans ha, before, after, horder,
    fun b hb => ?_⟩
  rw [s.agentEnabled_eq_hasStep, hbefore b hb]
  rfl

/-- An agent without a step does nothing (assumption log 11). -/
theorem agentStep_of_not_hasStep {e : Event} {s : State} (h : s.hasStep e = false) : agentStep e s = .next s := by
  cases e with
  | cpu => exact if_neg (Bool.not_eq_true _ ▸ h)
  | delayTick | soundTick | clock => exact congrArg Host.Outcome.next (if_neg (Bool.not_eq_true _ ▸ h))
  | keyDown k | keyUp k | keyDownMalformed | keyUpMalformed | host c => cases h

/-- Settles O7: the enabling conditions one by one, and the two ways in which a step finds its agent. -/
theorem theScheduleNamesTheAgent : Obligations.TheScheduleNamesTheAgent := by
  unfold Obligations.TheScheduleNamesTheAgent
  exact fun s => ⟨s.cpuEnabled_iff, s.delayEnabled_iff, s.soundEnabled_iff, s.clockEnabled_iff,
    fun _ _ hs => step_of_schedule hs,
    fun hs _ _ _ horder ha hbefore => step_of_idleAgent hs (State.idleAgent_eq_some horder ha hbefore),
    fun _ => agentStep_of_not_hasStep⟩

/-- The CPU's cycle on a word that decodes (R110). -/
theorem cpuStep_of_decode {s : State} {i : Instr} (hpc : PcOk s)
    (hd : decode s.params.aluLayout (fetched s) = .ok i) : cpuStep s = mapNext (State.bill i) (exec i s) := by
  rw [cpuStep, if_pos (s.fetchable_iff.mpr hpc), show s.fetchWord = fetched s from rfl, hd]

/-- The turns give the CPU if it is its turn, or if no cycle that is asked before it has a step. -/
theorem State.idleAgent_eq_cpu {s : State} (hready : CpuReady s)
    (hturn : s.turn = .cpu ∨ ¬SoundReady s ∧ (s.turn = .sound ∨ ¬DelayReady s)) : s.idleAgent = some .cpu := by
  simp only [← s.cpuEnabled_iff, ← s.soundEnabled_iff, ← s.delayEnabled_iff, Bool.not_eq_true] at hready hturn
  cases ht : s.turn with
  | cpu => simp [State.idleAgent, Agent.order, State.agentEnabled, ht, hready]
  | sound =>
    have hsound : s.soundEnabled = false := by simpa [ht] using hturn
    simp [State.idleAgent, Agent.order, Agent.next, State.agentEnabled, ht, hready, hsound]
  | delay =>
    have hcycles : s.soundEnabled = false ∧ s.delayEnabled = false := by simpa [ht] using hturn
    simp [State.idleAgent, Agent.order, Agent.next, State.agentEnabled, ht, hready, hcycles]

/-- Settles O5: the step is the CPU's, from the state with the head used up or the turn passed on. -/
theorem stepRunsTheDecodedInstruction : Obligations.StepRunsTheDecodedInstruction := by
  unfold Obligations.StepRunsTheDecodedInstruction
  intro s i hready hpc hd
  refine ⟨fun hs hturn => ?_, fun rest hs => ?_⟩
  · rw [step_of_idleAgent hs (State.idleAgent_eq_cpu hready hturn)]
    exact (agentStep_cpu_of_ready (s := s.passTurn .cpu) hready).trans (cpuStep_of_decode (s := s.passTurn .cpu) hpc hd)
  · rw [step_of_schedule hs]
    exact (agentStep_cpu_of_ready (s := { s with schedule := rest }) hready).trans
      (cpuStep_of_decode (s := { s with schedule := rest }) hpc hd)

end Sys2Proof.Machine
end

section
/-!
Steps that always answer: no instruction and no agent stops the machine, so that a step stops only where no agent has
one (R111, R231); and what no agent writes, the parameters and the past of the output trace (R5, R37).
-/

namespace Sys2Proof.Machine

/-- Every instruction answers a next state, the fault that it takes being one of them (R111, R231). -/
theorem exec_exists_next (i : Instr) (s : State) : ∃ t, exec i s = .next t := by
  cases i with
  | ret =>
    cases hs : s.stack with
    | nil => exact ⟨_, exec_ret_of_empty hs⟩
    | cons r rest => exact ⟨_, exec_ret_of_cons hs⟩
  | call nnn =>
    obtain hroom | hfull := Nat.lt_or_ge s.stack.length 16
    · exact ⟨_, exec_call_of_room nnn hroom⟩
    · exact ⟨_, exec_call_of_full nnn hfull⟩
  | _ => exact ⟨_, rfl⟩

/-- In a state of the invariant every agent answers a next state: the CPU's fetch is inside memory (R38, R75). -/
theorem Inv.agentStep_exists_next {s : State} (hi : Inv s) (e : Event) : ∃ t, agentStep e s = .next t := by
  cases e with
  | cpu =>
    by_cases hready : CpuReady s
    · have hpc : PcOk s := hi.pcFetchable (.inl hready.1)
      cases hd : decode s.params.aluLayout s.fetchWord with
      | ok i =>
        obtain ⟨u, hx⟩ := exec_exists_next i s
        exact ⟨_, agentStep_cpu_of_exec hready hpc hd hx⟩
      | error e => exact ⟨_, (agentStep_cpu_of_ready hready).trans (cpuStep_of_decode_error hpc hd)⟩
    · have hoff : s.hasStep .cpu = false := Bool.eq_false_iff.mpr fun h => hready (s.cpuEnabled_iff.mp h)
      exact ⟨s, agentStep_of_not_hasStep hoff⟩
  | _ => exact ⟨_, rfl⟩

theorem Inv.passTurn {s : State} (hi : Inv s) (a : Agent) : Inv (s.passTurn a) := hi.of_environment _ _ _ _

theorem Inv.withSchedule {s : State} (hi : Inv s) (schedule : List Event) : Inv { s with schedule := schedule } :=
  hi.of_environment _ _ _ _

/-- In a state of the invariant a step stops only because no agent has one. -/
theorem Inv.step_fault {s : State} (hi : Inv s) {r : Fault} (h : step s = .fault r) : r = stuckReason s := by
  cases hs : s.schedule with
  | cons e rest =>
    obtain ⟨t, ht⟩ := (hi.withSchedule rest).agentStep_exists_next e
    rw [step_of_schedule hs, ht] at h
    cases h
  | nil =>
    cases ha : s.idleAgent with
    | some a =>
      obtain ⟨t, ht⟩ := (hi.passTurn a).agentStep_exists_next a.event
      rw [step_of_idleAgent hs ha, ht] at h
      cases h
    | none =>
      simp only [step, hs, idleStep, ha] at h
      split at h <;> cases h
      rfl

theorem stuckReason_ne_fetchOutsideMemory (s : State) (pc : Word) : stuckReason s ≠ .fetchOutsideMemory pc := by
  unfold stuckReason; split <;> simp

/-- Settles O54: `exec` is total, and the reason of a stop is never the fetch. -/
theorem instructionsNeverStopTheMachine : Obligations.InstructionsNeverStopTheMachine := by
  unfold Obligations.InstructionsNeverStopTheMachine
  exact ⟨exec_exists_next, fun s hi pc h => stuckReason_ne_fetchOutsideMemory s pc (hi.step_fault h).symm⟩

/-! ### Parameters and the output trace -/

/-- A bill writes the CPU prescaler and nothing else (R265). -/
theorem State.bill_frame (t : State) (i : Instr) : t.bill i = { t with cpuWait := (t.bill i).cpuWait } := by
  unfold State.bill
  split
  · rfl
  · exact t.setCpuWait_frame _

/-- The parameters are the old ones, and the trace has only grown. -/
structure ExtendsTrace (s t : State) : Prop where
  params : t.params = s.params
  trace : s.trace <+: t.trace

theorem ExtendsTrace.of_eq {s t : State} (params : t.params = s.params) (trace : t.trace = s.trace) :
    ExtendsTrace s t :=
  ⟨params, by rw [trace]⟩

theorem exec_trace_prefix {i : Instr} {s t : State} (h : exec i s = .next t) : s.trace <+: t.trace := by
  cases exec_cases h with
  | fault c h => rw [h]; exact List.prefix_rfl
  | advance u p keeps _ _ h => rw [h, State.advanceTo_trace]; exact keeps.trace
  | returned u r keeps _ h => rw [h, State.advanceTo_trace]; exact keeps.trace
  | jumped u p keeps _ _ _ h => rw [h]; exact keeps.trace
  | suspended x _ h => rw [h]

theorem State.soundTick_trace_prefix (s : State) : s.trace <+: s.soundTick.trace := by
  unfold State.soundTick
  split
  · exact List.prefix_rfl
  · split
    · exact List.prefix_append _ _
    · exact List.prefix_rfl

theorem agentStep_extendsTrace {e : Event} {s t : State} (h : agentStep e s = .next t) : ExtendsTrace s t := by
  cases agentStep_cases h with
  | unchanged ht => rw [ht]; exact .of_eq rfl rfl
  | instruction i u _ _ _ hx ht =>
    have hparams := exec_params hx
    have htrace := exec_trace_prefix hx
    rw [ht, State.bill_frame]
    exact ⟨hparams, htrace⟩
  | invalid c _ _ ht => rw [ht]; exact .of_eq rfl rfl
  | delayTick _ _ ht => rw [ht]; exact .of_eq s.delayTick_params s.delayTick_trace
  | soundTick _ _ ht => rw [ht]; exact ⟨s.soundTick_params, s.soundTick_trace_prefix⟩
  | clockTick _ ht => rw [ht]; exact .of_eq rfl rfl
  | key k down _ ht => rw [ht]; exact .of_eq rfl rfl
  | resolved k x _ _ _ ht => rw [ht, State.resolveWait_frame]; exact .of_eq rfl rfl
  | rejected r ht => rw [ht]; exact .of_eq rfl rfl
  | loaded P _ _ _ ht => rw [ht, State.load_frame]; exact .of_eq rfl rfl
  | paused _ ht => rw [ht]; exact .of_eq rfl rfl
  | resumed _ ht => rw [ht]; exact .of_eq rfl rfl
  | stopped ht => rw [ht, State.teardown, State.clearCounters_eq]; exact .of_eq rfl rfl

/-- Settles O58: a step is an agent's, from a state with the same parameters and trace. -/
theorem parametersFixedTraceGrows : Obligations.ParametersFixedTraceGrows := by
  unfold Obligations.ParametersFixedTraceGrows
  intro s t h
  obtain ⟨e, s0, rfl | ⟨a, rfl⟩ | ⟨rest, -, rfl⟩, hstep⟩ := step_cases h
  all_goals
    obtain ⟨params, trace⟩ := agentStep_extendsTrace hstep
    exact ⟨params, trace⟩

end Sys2Proof.Machine
end

section
/-!
Who writes memory, the timers, the stack, the keys and the frame buffer (R25, R30, R36, R66, R70, R258): first among the
instructions, then among the agents.
-/

namespace Sys2Proof.Machine

/-! ### Instructions -/

/-- What an instruction writes past the registers, I and pc, and which one does; a cycle that runs is stopped only with
the machine (R114, R231). -/
structure ExecWrites (i : Instr) (s t : State) : Prop where
  mem : t.mem = s.mem ∨ ∃ x, i = .ldBVx x ∨ i = .ldMemVx x
  dt : t.dt = s.dt ∨ ∃ x, i = .ldDtVx x
  st : t.st = s.st ∨ ∃ x, i = .ldStVx x
  stack : t.stack = s.stack ∨ i = .ret ∨ ∃ nnn, i = .call nnn
  fb : t.fb = s.fb ∨ i = .cls ∨ ∃ x y n, i = .drwVxVyN x y n
  dtRun : t.status = .running → s.dtRun = true → t.dtRun = true
  stRun : t.status = .running → s.stRun = true → t.stRun = true

section ExecWrites

variable {i : Instr} {s u : State}

theorem ExecWrites.of_registers (v : Vector Byte 16) (a pc : Word) (pending : Option Reg) (n : Nat) :
    ExecWrites i s { s with v := v, i := a, pc := pc, pending := pending, rngDraws := n } :=
  ⟨.inl rfl, .inl rfl, .inl rfl, .inl rfl, .inl rfl, fun _ => id, fun _ => id⟩

theorem ExecWrites.refl (i : Instr) (s : State) : ExecWrites i s s := .of_registers s.v s.i s.pc s.pending s.rngDraws

theorem ExecWrites.of_raise (c : FaultCause) : ExecWrites i s (s.raise c) :=
  ⟨.inl rfl, .inl rfl, .inl rfl, .inl rfl, .inl rfl, by simp, by simp⟩

theorem ExecWrites.advanceTo (h : ExecWrites i s u) (p : Nat) : ExecWrites i s (u.advanceTo p) := by
  by_cases hin : p ≤ 0xFFF
  · rw [State.advanceTo_inside u hin]
    exact ⟨h.mem, h.dt, h.st, h.stack, h.fb, h.dtRun, h.stRun⟩
  · rw [State.advanceTo_past u (Nat.lt_of_not_le hin)]
    exact ⟨h.mem, h.dt, h.st, h.stack, h.fb, by simp, by simp⟩

theorem ExecWrites.next (h : ExecWrites i s u) : ExecWrites i s u.next := h.advanceTo _

theorem ExecWrites.of_skipIf (c : Bool) : ExecWrites i s (s.skipIf c) := by
  rw [State.skipIf_eq]; exact (ExecWrites.refl i s).advanceTo _

theorem ExecWrites.of_unlessFault {check : Option FaultCause} (h : ExecWrites i s u) :
    ExecWrites i s (s.unlessFault check u) := by
  cases check with
  | none => exact h
  | some c => exact .of_raise c

end ExecWrites

/-- WHO WRITES WHAT AMONG THE INSTRUCTIONS. -/
theorem exec_writes {i : Instr} {s t : State} (h : exec i s = .next t) : ExecWrites i s t := by
  cases i with
  | cls =>
    cases h
    exact ExecWrites.next ⟨.inl rfl, .inl rfl, .inl rfl, .inl rfl, .inr (.inl rfl), fun _ => id, fun _ => id⟩
  | drwVxVyN x y n =>
    cases h
    refine .of_unlessFault (.next ?_)
    rw [State.draw_frame]
    exact ⟨.inl rfl, .inl rfl, .inl rfl, .inl rfl, .inr (.inr ⟨x, y, n, rfl⟩), fun _ => id, fun _ => id⟩
  | ret =>
    cases hs : s.stack with
    | nil => rw [exec_ret_of_empty hs] at h; cases h; exact .of_raise _
    | cons r rest =>
      rw [exec_ret_of_cons hs] at h
      cases h
      exact ExecWrites.advanceTo (s := s) (u := { s with stack := rest })
        ⟨.inl rfl, .inl rfl, .inl rfl, .inr (.inl rfl), .inl rfl, fun _ => id, fun _ => id⟩ _
  | call nnn =>
    obtain hroom | hfull := Nat.lt_or_ge s.stack.length 16
    · rw [exec_call_of_room nnn hroom] at h
      cases h
      exact .of_unlessFault
        ⟨.inl rfl, .inl rfl, .inl rfl, .inr (.inr ⟨nnn, rfl⟩), .inl rfl, fun _ => id, fun _ => id⟩
    · rw [exec_call_of_full nnn hfull] at h; cases h; exact .of_raise _
  | ldBVx x =>
    cases h
    exact .of_unlessFault (.next ⟨.inr ⟨x, .inl rfl⟩, by simp, by simp, by simp, by simp, by simp, by simp⟩)
  | ldMemVx x =>
    cases h
    exact .of_unlessFault (.next ⟨.inr ⟨x, .inr rfl⟩, by simp, by simp, by simp, by simp, by simp, by simp⟩)
  | ldDtVx x =>
    cases h
    exact ExecWrites.next ⟨by simp, .inr ⟨x, rfl⟩, by simp, by simp, by simp, by simp +contextual, by simp⟩
  | ldStVx x =>
    cases h
    exact ExecWrites.next ⟨by simp, by simp, .inr ⟨x, rfl⟩, by simp, by simp, by simp, by simp +contextual⟩
  | jp nnn | jpV0Nnn nnn => cases h; exact .of_unlessFault (.of_registers s.v s.i _ s.pending s.rngDraws)
  | seVxKk x kk | sneVxKk x kk | seVxVy x y | sneVxVy x y => cases h; exact .of_skipIf _
  | skpVx x | sknpVx x => cases h; exact .of_unlessFault (.of_skipIf _)
  | ldFVx x | ldVxMem x => cases h; exact .of_unlessFault (.next (.of_registers _ _ s.pc s.pending s.rngDraws))
  | ldVxK x => cases h; exact .of_registers s.v s.i s.pc _ s.rngDraws
  | rndVxKk x kk | ldVxKk x kk | addVxKk x kk | ldVxVy x y | orVxVy x y | andVxVy x y | xorVxVy x y | addVxVy x y
  | shrVxVy x y | subVxVy x y | shlVxVy x y | subnVxVy x y | ldINnn nnn | addIVx x | ldVxDt x =>
    cases h; exact .next (.of_registers _ _ s.pc s.pending _)

/-! ### Agents -/

theorem State.delayTick_dt (s : State) : s.delayTick.dt = if s.dt = 0 then 0 else s.dt - 1 := by
  unfold State.delayTick
  split
  · assumption
  · split
    · next h => simp [h]
    · rfl

theorem State.soundTick_st (s : State) : s.soundTick.st = if s.st = 0 then 0 else s.st - 1 := by
  unfold State.soundTick
  split
  · assumption
  · split
    · next h => simp [State.emit, h]
    · rfl

theorem byte_sub_one_lt {b : Byte} (h : b ≠ 0) : (b - 1).toNat < b.toNat := by
  bv_omega

/-- A tick that finds DT above 0 counts it down (R255). -/
theorem State.delayTick_dt_lt {s : State} (h : s.dt ≠ 0) : s.delayTick.dt.toNat < s.dt.toNat := by
  rw [State.delayTick_dt, if_neg h]; exact byte_sub_one_lt h

/-- A tick that finds ST above 0 counts it down (R256). -/
theorem State.soundTick_st_lt {s : State} (h : s.st ≠ 0) : s.soundTick.st.toNat < s.st.toNat := by
  rw [State.soundTick_st, if_neg h]; exact byte_sub_one_lt h

theorem State.delayTick_dt_le (s : State) : s.delayTick.dt.toNat ≤ s.dt.toNat := by
  by_cases h : s.dt = 0
  · rw [State.delayTick_dt, if_pos h]; exact Nat.zero_le _
  · exact (State.delayTick_dt_lt h).le

/-- Memory, the timers, the stack and the frame buffer are as before. -/
structure KeepsDevices (s t : State) : Prop where
  mem : t.mem = s.mem
  dt : t.dt = s.dt
  st : t.st = s.st
  stack : t.stack = s.stack
  fb : t.fb = s.fb

/-- What a step of an agent writes of memory, the timers, the stack, the keys and the frame buffer, and which agent
does, the CPU by the instruction that it decodes. -/
structure AgentWrites (e : Event) (s t : State) : Prop where
  mem : t.mem = s.mem ∨ (∃ P, e = .host (.load P)) ∨
    e = .cpu ∧ ∃ x, decode s.params.aluLayout (fetched s) = .ok (.ldBVx x) ∨
      decode s.params.aluLayout (fetched s) = .ok (.ldMemVx x)
  dt : t.dt = s.dt ∨ (∃ P, e = .host (.load P)) ∧ t.dt = 0 ∨ e = .delayTick ∧ t.dt.toNat ≤ s.dt.toNat ∨
    e = .cpu ∧ ∃ x, decode s.params.aluLayout (fetched s) = .ok (.ldDtVx x)
  st : t.st = s.st ∨ (∃ P, e = .host (.load P)) ∨ e = .soundTick ∨
    e = .cpu ∧ ∃ x, decode s.params.aluLayout (fetched s) = .ok (.ldStVx x)
  stack : t.stack = s.stack ∨ (∃ P, e = .host (.load P)) ∨
    e = .cpu ∧ (decode s.params.aluLayout (fetched s) = .ok .ret ∨
      ∃ nnn, decode s.params.aluLayout (fetched s) = .ok (.call nnn))
  keys : t.keys = s.keys ∨ ∃ k, k < 16 ∧ (e = .keyDown k ∨ e = .keyUp k)
  fb : t.fb = s.fb ∨ e = .cpu ∧ (decode s.params.aluLayout (fetched s) = .ok .cls ∨
    ∃ x y n, decode s.params.aluLayout (fetched s) = .ok (.drwVxVyN x y n))

section AgentWrites

variable {e : Event} {s t : State}

theorem AgentWrites.of_keepsDevices (h : KeepsDevices s t)
    (keys : t.keys = s.keys ∨ ∃ k, k < 16 ∧ (e = .keyDown k ∨ e = .keyUp k)) : AgentWrites e s t :=
  ⟨.inl h.mem, .inl h.dt, .inl h.st, .inl h.stack, keys, .inl h.fb⟩

theorem exec_keys {i : Instr} (h : exec i s = .next t) : t.keys = s.keys := by
  cases exec_cases h with
  | fault c h => rw [h]; rfl
  | advance u p keeps _ _ h => rw [h, State.advanceTo_keys, keeps.keys]
  | returned u r keeps _ h => rw [h, State.advanceTo_keys, keeps.keys]
  | jumped u p keeps _ _ _ h => rw [h, State.jump_keys, keeps.keys]
  | suspended x _ h => rw [h]

theorem AgentWrites.of_exec {i : Instr} (hd : decode s.params.aluLayout (fetched s) = .ok i)
    (hx : exec i s = .next t) : AgentWrites .cpu s t := by
  obtain ⟨hmem, hdt, hst, hstack, hfb, -, -⟩ := exec_writes hx
  have hdecoded (j : Instr) : i = j ↔ decode s.params.aluLayout (fetched s) = .ok j := by rw [hd, Except.ok.injEq]
  simp only [hdecoded] at hmem hdt hst hstack hfb
  exact ⟨hmem.imp_right fun h => .inr ⟨rfl, h⟩, hdt.imp_right fun h => .inr (.inr ⟨rfl, h⟩),
    hst.imp_right fun h => .inr (.inr ⟨rfl, h⟩), hstack.imp_right fun h => .inr ⟨rfl, h⟩, .inl (exec_keys hx),
    hfb.imp_right fun h => ⟨rfl, h⟩⟩

/-- WHO WRITES WHAT AMONG THE AGENTS. -/
theorem agentStep_writes (h : agentStep e s = .next t) : AgentWrites e s t := by
  cases agentStep_cases h with
  | unchanged ht => rw [ht]; exact .of_keepsDevices ⟨rfl, rfl, rfl, rfl, rfl⟩ (.inl rfl)
  | instruction i u he _ hd hx ht =>
    obtain ⟨hmem, hdt, hst, hstack, hkeys, hfb⟩ := AgentWrites.of_exec hd hx
    rw [ht, he, State.bill_frame]
    exact ⟨hmem, hdt, hst, hstack, hkeys, hfb⟩
  | invalid c _ _ ht => rw [ht]; exact .of_keepsDevices ⟨rfl, rfl, rfl, rfl, rfl⟩ (.inl rfl)
  | delayTick he _ ht =>
    rw [ht, he]
    exact ⟨by simp, .inr (.inr (.inl ⟨rfl, s.delayTick_dt_le⟩)), by simp, by simp, by simp, by simp⟩
  | soundTick he _ ht => rw [ht, he]; exact ⟨by simp, by simp, .inr (.inr (.inl rfl)), by simp, by simp, by simp⟩
  | clockTick _ ht => rw [ht]; exact .of_keepsDevices ⟨rfl, rfl, rfl, rfl, rfl⟩ (.inl rfl)
  | key k down he ht => rw [ht]; exact .of_keepsDevices ⟨rfl, rfl, rfl, rfl, rfl⟩ (.inr ⟨k.val, k.isLt, he⟩)
  | resolved k x he _ _ ht =>
    rw [ht, State.resolveWait_frame]
    exact .of_keepsDevices ⟨rfl, rfl, rfl, rfl, rfl⟩ (.inr ⟨k.val, k.isLt, .inl he⟩)
  | rejected r ht => rw [ht]; exact .of_keepsDevices ⟨rfl, rfl, rfl, rfl, rfl⟩ (.inl rfl)
  | loaded P he _ _ ht =>
    rw [ht, he, State.load_frame]
    exact ⟨.inr (.inl ⟨P, rfl⟩), .inr (.inl ⟨⟨P, rfl⟩, rfl⟩), .inr (.inl ⟨P, rfl⟩), .inr (.inl ⟨P, rfl⟩), .inl rfl,
      .inl rfl⟩
  | paused _ ht => rw [ht]; exact .of_keepsDevices ⟨rfl, rfl, rfl, rfl, rfl⟩ (.inl rfl)
  | resumed _ ht => rw [ht]; exact .of_keepsDevices ⟨rfl, rfl, rfl, rfl, rfl⟩ (.inl rfl)
  | stopped ht =>
    rw [ht, State.teardown, State.clearCounters_eq]
    exact .of_keepsDevices ⟨rfl, rfl, rfl, rfl, rfl⟩ (.inl rfl)

end AgentWrites

/-- Settles O55: where no one writes memory, no address reads differently. -/
theorem onlyStoresAndLoadsChangeMemory : Obligations.OnlyStoresAndLoadsChangeMemory := by
  unfold Obligations.OnlyStoresAndLoadsChangeMemory
  intro e s t h ⟨a, hread⟩
  obtain hmem | hwriter := (agentStep_writes h).mem
  · exact absurd (State.readByte_congr (agentStep_extendsTrace h).params hmem a) hread
  · exact hwriter

/-- Settles O56: the writers of the timers, of which only Fx15 raises DT. -/
theorem timersHaveFewWriters : Obligations.TimersHaveFewWriters := by
  unfold Obligations.TimersHaveFewWriters
  intro e s t h
  have hwrites := agentStep_writes h
  refine ⟨fun hdt => ?_, fun hst => hwrites.st.resolve_left hst, fun hrises => ?_⟩
  · exact (hwrites.dt.resolve_left hdt).imp And.left (Or.imp_left And.left)
  · obtain hkept | ⟨-, hzero⟩ | ⟨-, hle⟩ | hcpu := hwrites.dt
    · exact absurd hrises (by simp [hkept])
    · exact absurd hrises (by simp [hzero])
    · exact absurd hrises (Nat.not_lt.mpr hle)
    · exact hcpu

/-- Settles O57: the writers of the stack, the keys and the frame buffer. -/
theorem stackKeysAndDisplayWriters : Obligations.StackKeysAndDisplayWriters := by
  unfold Obligations.StackKeysAndDisplayWriters
  intro e s t h
  have hwrites := agentStep_writes h
  exact ⟨hwrites.stack.resolve_left, hwrites.keys.resolve_left, hwrites.fb.resolve_left⟩

end Sys2Proof.Machine
end

section
/-!
Running timers (R255 to R257, R268): a timer cycle of a running machine stops only with its timer at 0, so that along a
run in which its ticks come again and again the timer reaches 0.
-/

namespace Sys2Proof.Machine

/-! ### A cycle stops only at 0 -/

/-- A running cycle goes on, or its timer is 0. -/
structure KeepsCycles (s t : State) : Prop where
  delay : s.dtRun = true → t.dt ≠ 0 → t.dtRun = true
  sound : s.stRun = true → t.st ≠ 0 → t.stRun = true

theorem KeepsCycles.of_eq {s t : State} (dtRun : t.dtRun = s.dtRun) (stRun : t.stRun = s.stRun) : KeepsCycles s t :=
  ⟨fun h _ => dtRun.trans h, fun h _ => stRun.trans h⟩

theorem State.keepsCycles_delayTick (s : State) : KeepsCycles s s.delayTick := by
  unfold State.delayTick
  split
  · next h0 => exact ⟨fun _ h => absurd h0 h, fun h _ => h⟩
  · split
    · exact ⟨fun _ h => absurd rfl h, fun h _ => h⟩
    · exact .of_eq rfl rfl

theorem State.keepsCycles_soundTick (s : State) : KeepsCycles s s.soundTick := by
  unfold State.soundTick
  split
  · next h0 => exact ⟨fun h _ => h, fun _ h => absurd h0 h⟩
  · split
    · exact ⟨fun h _ => h, fun _ h => absurd rfl h⟩
    · exact .of_eq rfl rfl

theorem State.keepsCycles_resolveWait (s : State) (x : Reg) (k : Key) (ht : (s.resolveWait x k).status = .running) :
    KeepsCycles s (s.resolveWait x k) := by
  obtain ⟨-, hadvanced⟩ := s.advanced_resolveWait x k
  split at hadvanced
  · obtain ⟨-, hdt, hst⟩ := hadvanced
    exact .of_eq hdt hst
  · rw [hadvanced.1] at ht; cases ht

/-- A step that finds the machine Running and leaves it Running stops a cycle only at 0 (R255 to R257). -/
theorem agentStep_keepsCycles {e : Event} {s t : State} (hs : s.status = .running) (ht : t.status = .running)
    (h : agentStep e s = .next t) : KeepsCycles s t := by
  cases agentStep_cases h with
  | unchanged h => rw [h]; exact .of_eq rfl rfl
  | instruction i u _ _ _ hx h =>
    obtain ⟨-, -, -, -, -, hdt, hst⟩ := exec_writes hx
    rw [h, State.bill_status] at ht
    rw [h, State.bill_frame]
    exact ⟨fun hruns _ => hdt ht hruns, fun hruns _ => hst ht hruns⟩
  | delayTick _ _ h => rw [h]; exact s.keepsCycles_delayTick
  | soundTick _ _ h => rw [h]; exact s.keepsCycles_soundTick
  | clockTick _ h => rw [h]; exact .of_eq rfl rfl
  | key k down _ h => rw [h]; exact .of_eq rfl rfl
  | resolved k x _ _ _ h =>
    rw [h] at ht ⊢
    obtain ⟨hdelay, hsound⟩ := (s.setKey k true).keepsCycles_resolveWait x k ht
    exact ⟨hdelay, hsound⟩
  | rejected r h => rw [h]; exact .of_eq rfl rfl
  | loaded P _ _ hlegal _ => rw [hs] at hlegal; simp at hlegal
  | resumed hpaused _ => rw [hs] at hpaused; cases hpaused
  | invalid c _ _ h | paused _ h | stopped h => rw [h] at ht; cases ht

/-! ### A fair countdown -/

/-- A value that never rises, and that falls again and again while it runs, reaches 0 if it runs until it is there. -/
theorem exists_eq_zero_of_countdown {value : Nat → Byte} {runs : Nat → Bool} (hstart : runs 0 = true)
    (hruns : ∀ n, runs n = true → value (n + 1) ≠ 0 → runs (n + 1) = true)
    (hmono : ∀ n, (value (n + 1)).toNat ≤ (value n).toNat)
    (hfair : ∀ n, ∃ m, n ≤ m ∧ (runs m = true → value m ≠ 0 → (value (m + 1)).toNat < (value m).toNat)) :
    ∃ n, value n = 0 := by
  by_contra hnever
  have hpos : ∀ n, value n ≠ 0 := not_exists.mp hnever
  have hon : ∀ n, runs n = true := by
    intro n
    induction n with
    | zero => exact hstart
    | succ n ih => exact hruns n ih (hpos (n + 1))
  have hanti : Antitone fun n => (value n).toNat := antitone_nat_of_succ_le hmono
  obtain ⟨least, hleast⟩ : ∃ n, ∀ m, (value n).toNat ≤ (value m).toNat :=
    ⟨_, fun m => Function.argmin_le (fun n => (value n).toNat) m⟩
  obtain ⟨m, hm, hfalls⟩ := hfair least
  have hmin := hleast (m + 1)
  have hle : (value m).toNat ≤ (value least).toNat := hanti hm
  have hlt := hfalls (hon m) (hpos m)
  omega

/-! ### Runs -/

/-- One step of a run: an agent's, whatever the schedule and the turn, or none. -/
inductive RunStep (s t : State) : Prop where
  | stays (h : t = s)
  | agent (e : Event) (schedule : List Event) (turn : Agent)
      (h : agentStep e { s with schedule := schedule, turn := turn } = .next t)

theorem runStep_afterEvent (e : Event) (s : State) : RunStep s (afterEvent e s) := by
  unfold afterEvent
  split
  · next h => exact .agent e s.schedule s.turn h
  all_goals exact .stays rfl

theorem runStep_afterStep (s : State) : RunStep s (afterStep s) := by
  unfold afterStep
  split
  · next h =>
    obtain ⟨e, s0, rfl | ⟨a, rfl⟩ | ⟨rest, -, rfl⟩, hstep⟩ := step_cases h
    · exact .agent e s0.schedule s0.turn hstep
    · exact .agent e s.schedule a.next hstep
    · exact .agent e rest s.turn hstep
  all_goals exact .stays rfl

theorem RunStep.params {s t : State} (h : RunStep s t) : t.params = s.params := by
  cases h with
  | stays h => rw [h]
  | agent e schedule turn h => exact (agentStep_extendsTrace h).params

theorem RunStep.keepsCycles {s t : State} (h : RunStep s t) (hs : s.status = .running) (ht : t.status = .running) :
    KeepsCycles s t := by
  cases h with
  | stays h => rw [h]; exact .of_eq rfl rfl
  | agent e schedule turn h =>
    obtain ⟨hdelay, hsound⟩ := agentStep_keepsCycles (s := { s with schedule := schedule, turn := turn }) hs ht h
    exact ⟨hdelay, hsound⟩

section UntimedRun

variable {run : Nat → State} (hstep : ∀ n, RunStep (run n) (run (n + 1)))
  (huntimed : (run 0).params.timing = .untimed) (hon : ∀ n, TimersOn (run n))
include hstep huntimed

theorem untimed_of_run (n : Nat) : (run n).params.timing = .untimed := by
  induction n with
  | zero => exact huntimed
  | succ n ih => rw [(hstep n).params, ih]

include hon

/-- In UNTIMED a delay cycle that runs while the timers are enabled has a step (R255, R257). -/
theorem delayReady_of_run {n : Nat} (hruns : (run n).dtRun = true) : DelayReady (run n) :=
  ⟨hruns, hon n, fun htimed => by rw [untimed_of_run hstep huntimed] at htimed; cases htimed⟩

theorem soundReady_of_run {n : Nat} (hruns : (run n).stRun = true) : SoundReady (run n) :=
  ⟨hruns, hon n, fun htimed => by rw [untimed_of_run hstep huntimed] at htimed; cases htimed⟩

/-- A running delay timer that nothing raises reaches 0, if its cycle, ready, ticks again and again (R268). -/
theorem exists_dt_eq_zero (hstart : (run 0).dtRun = true)
    (hmono : ∀ n, (run (n + 1)).dt.toNat ≤ (run n).dt.toNat)
    (hfair : ∀ n, ∃ m, n ≤ m ∧ (DelayReady (run m) → (run (m + 1)).dt = (run m).delayTick.dt)) :
    ∃ n, (run n).dt = 0 := by
  refine exists_eq_zero_of_countdown hstart (fun n => ((hstep n).keepsCycles (hon n).1 (hon (n + 1)).1).delay) hmono
    fun n => ?_
  obtain ⟨m, hm, hticks⟩ := hfair n
  refine ⟨m, hm, fun hruns hpos => ?_⟩
  rw [hticks (delayReady_of_run hstep huntimed hon hruns)]
  exact State.delayTick_dt_lt hpos

/-- And so does a running sound timer. -/
theorem exists_st_eq_zero (hstart : (run 0).stRun = true)
    (hmono : ∀ n, (run (n + 1)).st.toNat ≤ (run n).st.toNat)
    (hfair : ∀ n, ∃ m, n ≤ m ∧ (SoundReady (run m) → (run (m + 1)).st = (run m).soundTick.st)) :
    ∃ n, (run n).st = 0 := by
  refine exists_eq_zero_of_countdown hstart (fun n => ((hstep n).keepsCycles (hon n).1 (hon (n + 1)).1).sound) hmono
    fun n => ?_
  obtain ⟨m, hm, hticks⟩ := hfair n
  refine ⟨m, hm, fun hruns hpos => ?_⟩
  rw [hticks (soundReady_of_run hstep huntimed hon hruns)]
  exact State.soundTick_st_lt hpos

end UntimedRun

theorem afterEvent_delayTick {s : State} (h : DelayReady s) : afterEvent .delayTick s = s.delayTick := by
  rw [afterEvent, agentStep_delayTick_of_ready h]

/-- Settles O44: fairness gives the delay cycle its ticks, and each counts DT down. -/
theorem aFairRunCountsTheDelayTimerDown : Obligations.AFairRunCountsTheDelayTimerDown := by
  unfold Obligations.AFairRunCountsTheDelayTimerDown
  intro events s huntimed hstart hfair hon hmono
  refine exists_dt_eq_zero (run := runStates events s) (fun n => runStep_afterEvent _ _) huntimed hon hstart hmono
    fun n => ?_
  obtain ⟨m, hm, htakes | hoff⟩ := hfair .delayTick (by simp) n
  · refine ⟨m, hm, fun hready => ?_⟩
    rw [runStates, htakes, afterEvent_delayTick hready]
  · exact ⟨m, hm, fun hready => absurd ((State.delayEnabled_iff _).mpr hready) (by simpa [State.hasStep] using hoff)⟩

end Sys2Proof.Machine
end

section
/-!
The runs of `step` are fair (R268): the schedule is used up, and then the turns bring every agent that keeps a step to
one.
-/

namespace Sys2Proof.Machine

theorem Inv.of_afterStep {s : State} (hi : Inv s) : Inv (afterStep s) := by
  unfold afterStep
  split
  · next h => exact stepKeepsTheInvariant s _ hi h
  all_goals exact hi

theorem Inv.of_stepStates {s : State} (hi : Inv s) (n : Nat) : Inv (stepStates s n) := by
  induction n with
  | zero => exact hi
  | succ n ih => exact ih.of_afterStep

theorem stepStates_add (s : State) (n m : Nat) : stepStates s (n + m) = stepStates (stepStates s n) m := by
  induction m with
  | zero => rfl
  | succ m ih => rw [← Nat.add_assoc, stepStates, ih, stepStates]

theorem stepStates_succ (s : State) (n : Nat) : stepStates s (n + 1) = stepStates (afterStep s) n := by
  rw [Nat.add_comm, stepStates_add]; rfl

theorem afterStep_of_next {s t : State} (h : step s = .next t) : afterStep s = t := by
  rw [afterStep, h]

/-! ### The schedule is used up -/

theorem Inv.afterStep_schedule {s : State} (hi : Inv s) {e : Event} {rest : List Event} (hs : s.schedule = e :: rest) :
    (afterStep s).schedule = rest := by
  obtain ⟨t, ht⟩ := (hi.withSchedule rest).agentStep_exists_next e
  rw [afterStep_of_next ((step_of_schedule hs).trans ht), (agentStep_keeps_order ht).1]

theorem Inv.exists_schedule_eq_nil {s : State} (hi : Inv s) : ∃ n, (stepStates s n).schedule = [] := by
  induction hs : s.schedule generalizing s with
  | nil => exact ⟨0, hs⟩
  | cons e rest ih =>
    obtain ⟨n, hn⟩ := ih hi.of_afterStep (hi.afterStep_schedule hs)
    exact ⟨n + 1, by rw [stepStates_succ, hn]⟩

/-! ### The turns -/

/-- How many agents are asked before this one. -/
def Agent.distance (turn a : Agent) : Nat := turn.order.idxOf a

/-- After an agent that is asked before another, the other is asked sooner. -/
theorem Agent.distance_next_lt {turn a b : Agent} (h : turn.distance b < turn.distance a) :
    b.next.distance a < turn.distance a := by
  revert h
  cases turn <;> cases a <;> cases b <;> decide

theorem Agent.eq_of_distance_eq {turn a b : Agent} (h : turn.distance b = turn.distance a) : b = a := by
  revert h
  cases turn <;> cases a <;> cases b <;> decide

/-- The agent that moves is asked no later than any that has a step. -/
theorem State.idleAgent_distance_le {s : State} {a b : Agent} (hb : s.idleAgent = some b)
    (ha : s.hasStep a.event = true) : s.turn.distance b ≤ s.turn.distance a := by
  obtain ⟨-, before, after, horder, hbefore⟩ := State.idleAgent_some hb
  have hnot : a ∉ before := fun hmem => by simp [hbefore a hmem] at ha
  have hle : (before ++ b :: after).idxOf b ≤ before.length := by
    rw [List.idxOf_append]
    split
    · exact List.idxOf_le_length
    · simp
  rw [Agent.distance, Agent.distance, horder, List.idxOf_append_of_notMem hnot]
  exact hle.trans (Nat.le_add_right _ _)

theorem takesStep_of_idleAgent {s : State} {a : Agent} (hs : s.schedule = []) (ha : s.idleAgent = some a) :
    TakesStep a.event s :=
  ⟨a.next, by rw [step_of_idleAgent hs ha, hs, List.tail_nil, State.passTurn, hs]⟩

/-- Where the turns give another agent than one that has a step, the next state asks the one sooner. -/
theorem Inv.afterStep_of_idleAgent {s : State} (hi : Inv s) {b : Agent} (hs : s.schedule = [])
    (hb : s.idleAgent = some b) :
    (afterStep s).schedule = [] ∧ (afterStep s).turn = b.next := by
  obtain ⟨t, ht⟩ := (hi.passTurn b).agentStep_exists_next b.event
  obtain ⟨hschedule, hturn⟩ := agentStep_keeps_order ht
  rw [afterStep_of_next ((step_of_idleAgent hs hb).trans ht)]
  exact ⟨hschedule.trans hs, hturn⟩

/-- With an empty schedule an agent comes to a step of its own, or to a state in which it has none. -/
theorem Inv.exists_takesStep_of_empty {s : State} (hi : Inv s) (hs : s.schedule = []) (a : Agent) :
    ∃ n, TakesStep a.event (stepStates s n) ∨ (stepStates s n).hasStep a.event = false := by
  induction hd : s.turn.distance a using Nat.strong_induction_on generalizing s with
  | _ d ih =>
    by_cases ha : s.hasStep a.event = true
    · cases hidle : s.idleAgent with
      | none => rw [State.idleAgent_none hidle a] at ha; cases ha
      | some b =>
        obtain heq | hlt := (State.idleAgent_distance_le hidle ha).eq_or_lt
        · exact ⟨0, .inl (takesStep_of_idleAgent hs (Agent.eq_of_distance_eq heq ▸ hidle))⟩
        · obtain ⟨hschedule, hturn⟩ := hi.afterStep_of_idleAgent hs hidle
          have hsooner : (afterStep s).turn.distance a < d := by
            rw [hturn, ← hd]; exact Agent.distance_next_lt hlt
          obtain ⟨n, hn⟩ := ih _ hsooner hi.of_afterStep hschedule rfl
          exact ⟨n + 1, by rw [stepStates_succ]; exact hn⟩
    · exact ⟨0, .inr (Bool.eq_false_iff.mpr ha)⟩

theorem Inv.exists_takesStep {s : State} (hi : Inv s) (a : Agent) (n : Nat) :
    ∃ m, n ≤ m ∧ (TakesStep a.event (stepStates s m) ∨ (stepStates s m).hasStep a.event = false) := by
  obtain ⟨k, hempty⟩ := (hi.of_stepStates n).exists_schedule_eq_nil
  obtain ⟨m, hm⟩ := ((hi.of_stepStates n).of_stepStates k).exists_takesStep_of_empty hempty a
  rw [← stepStates_add, ← stepStates_add] at hm
  exact ⟨n + (k + m), by omega, hm⟩

/-! ### The timers -/

theorem afterStep_dt_of_takesStep {s : State} (h : TakesStep .delayTick s) (hready : DelayReady s) :
    (afterStep s).dt = s.delayTick.dt := by
  obtain ⟨turn, hstep⟩ := h
  rw [agentStep_delayTick_of_ready (s := { s with schedule := s.schedule.tail, turn := turn }) hready] at hstep
  rw [afterStep_of_next hstep, State.delayTick_dt, State.delayTick_dt]

theorem afterStep_st_of_takesStep {s : State} (h : TakesStep .soundTick s) (hready : SoundReady s) :
    (afterStep s).st = s.soundTick.st := by
  obtain ⟨turn, hstep⟩ := h
  rw [agentStep_soundTick_of_ready (s := { s with schedule := s.schedule.tail, turn := turn }) hready] at hstep
  rw [afterStep_of_next hstep, State.soundTick_st, State.soundTick_st]

theorem Inv.exists_delayTick {s : State} (hi : Inv s) (n : Nat) : ∃ m, n ≤ m ∧ (DelayReady (stepStates s m) →
    (stepStates s (m + 1)).dt = (stepStates s m).delayTick.dt) := by
  obtain ⟨m, hm, htakes | hoff⟩ := hi.exists_takesStep .delay n
  · exact ⟨m, hm, afterStep_dt_of_takesStep htakes⟩
  · exact ⟨m, hm, fun hready => absurd ((State.delayEnabled_iff _).mpr hready) (Bool.eq_false_iff.mp hoff)⟩

theorem Inv.exists_soundTick {s : State} (hi : Inv s) (n : Nat) : ∃ m, n ≤ m ∧ (SoundReady (stepStates s m) →
    (stepStates s (m + 1)).st = (stepStates s m).soundTick.st) := by
  obtain ⟨m, hm, htakes | hoff⟩ := hi.exists_takesStep .sound n
  · exact ⟨m, hm, afterStep_st_of_takesStep htakes⟩
  · exact ⟨m, hm, fun hready => absurd ((State.soundEnabled_iff _).mpr hready) (Bool.eq_false_iff.mp hoff)⟩

/-! ### The endless wait (R214) -/

/-- While a wait is pending, the steps that need no input leave it alone. -/
theorem agentStep_keeps_wait {s t : State} {x : Reg} (hp : s.pending = some x) {e : Event}
    (he : e ∈ [Event.cpu, .delayTick, .soundTick, .clock]) (h : agentStep e s = .next t) : t.pending = some x := by
  have htable := runStateMachine e s t h
  simp only [List.mem_cons, List.not_mem_nil, or_false] at he
  obtain rfl | rfl | rfl | rfl := he
  · rw [agentStep_of_not_hasStep (State.cpu_hasStep_of_waiting hp)] at h
    cases h
    exact hp
  all_goals exact htable.2.trans hp

/-- With an empty schedule the step is an agent's that needs no input. -/
theorem step_of_empty {s t : State} (hs : s.schedule = []) (h : step s = .next t) :
    ∃ e ∈ [Event.cpu, .delayTick, .soundTick, .clock], ∃ turn, agentStep e { s with turn := turn } = .next t := by
  cases ha : s.idleAgent with
  | some a =>
    rw [step_of_idleAgent hs ha] at h
    exact ⟨a.event, by cases a <;> decide, a.next, h⟩
  | none =>
    simp only [step, hs, idleStep, ha] at h
    split at h
    · next he =>
      have hclock : s.clockEnabled = true := (Bool.and_eq_true_iff.mp he).1
      exact ⟨.clock, by decide, s.turn, by simpa [agentStep, hclock] using h⟩
    · cases h

theorem afterStep_keeps_wait {s : State} {x : Reg} (hs : s.schedule = []) (hp : s.pending = some x) :
    (afterStep s).schedule = [] ∧ (afterStep s).pending = some x := by
  unfold afterStep
  split
  · next t h =>
    obtain ⟨e, he, turn, hstep⟩ := step_of_empty hs h
    exact ⟨(agentStep_keeps_order hstep).1.trans hs, agentStep_keeps_wait (s := { s with turn := turn }) hp he hstep⟩
  all_goals exact ⟨hs, hp⟩

theorem stepStates_keeps_wait {s : State} {x : Reg} (hs : s.schedule = []) (hp : s.pending = some x) (n : Nat) :
    (stepStates s n).schedule = [] ∧ (stepStates s n).pending = some x := by
  induction n with
  | zero => exact ⟨hs, hp⟩
  | succ n ih => exact afterStep_keeps_wait ih.1 ih.2

/-- Settles O60: the agents by their turns, each timer by the ticks that its cycle comes to, and the wait by every step
that needs no input. -/
theorem runsOfStepAreFair : Obligations.RunsOfStepAreFair := by
  unfold Obligations.RunsOfStepAreFair
  intro s hi
  have hstep (n : Nat) : RunStep (stepStates s n) (stepStates s (n + 1)) := runStep_afterStep _
  refine ⟨fun e he n => ?_, fun huntimed hon => ⟨fun hstart hmono => ?_, fun hstart hmono => ?_⟩,
    fun hs x hp n => (stepStates_keeps_wait hs hp n).2⟩
  · simp only [List.mem_cons, List.not_mem_nil, or_false] at he
    obtain rfl | rfl | rfl := he
    · exact hi.exists_takesStep .cpu n
    · exact hi.exists_takesStep .delay n
    · exact hi.exists_takesStep .sound n
  · exact exists_dt_eq_zero hstep huntimed hon hstart hmono hi.exists_delayTick
  · exact exists_st_eq_zero hstep huntimed hon hstart hmono hi.exists_soundTick

end Sys2Proof.Machine
end
